-- ==== Sys2Proof/Word.lean ====
section
/-! DEFINITION. The machine's word types: 32-bit register values and command words (R12, R15, R173), bytes,
and the operand fields of a command word (R174 to R176). -/

namespace Sys2Proof

/-- A 32-bit value: a peripheral register, a harness register or a command word (R12, R173). Peripheral values are unsigned
32-bit but where a rule states a narrower width (R15): what an access reads or writes is a `Word`, and a stored field has
the width its rule states. -/
abbrev Word := BitVec 32

/-- A byte (R12). -/
abbrev Byte := BitVec 8

/-- The number of a harness register, a 4-bit field of the command word (R175). -/
abbrev RegIdx := BitVec 4

/-- The immediate of format R (R174): a register offset, a bit index or a pin number (R176). -/
abbrev Imm12 := BitVec 12

/-- The immediate of format I (R174). -/
abbrev Imm16 := BitVec 16

end Sys2Proof
end

