-- ==== Sys2Proof/Syntax.lean ====
section
/-! DEFINITION. The command words of the block as one inductive: one constructor for each of the 26 rows of
spec/opcode_table.json (R177), its arguments the word's operand fields. -/

namespace Sys2Proof

/-- The three register blocks an access can name (R18, R101, R175). -/
inductive Block
  /-- The GPIO block. -/
  | gpio
  /-- The Auxiliary block, with the Mini UART. -/
  | aux
  /-- The full UART, a PL011. -/
  | uart0
  deriving DecidableEq, Repr

/-- The operations of the block's interface and of the harness (R177). In `regRd` and `regWr` the block is the raw
4-bit number of the word's `RC` field (R175); `WellFormed` bounds it. -/
inductive Instr
  | regRd (xd : RegIdx) (blk : BitVec 4) (off : Imm12)
  | regWr (xs : RegIdx) (blk : BitVec 4) (off : Imm12)
  | setBit (xd xs : RegIdx) (n : Imm12)
  | clearBit (xd xs : RegIdx) (n : Imm12)
  | toggleBit (xd xs : RegIdx) (n : Imm12)
  | isBitSet (xd xs : RegIdx) (n : Imm12)
  | readBit (xd xs : RegIdx) (n : Imm12)
  | uartInit
  | uartWriteByte (xs : RegIdx)
  | uartWriteString (xa xn : RegIdx)
  | uartReadByte (xv xt : RegIdx)
  | uartFlush
  | uartReadLine (xd xa xc : RegIdx)
  | uartIsDataReady (xd : RegIdx)
  | gpioSetOutput (pin : Imm12)
  | gpioSetHigh (pin : Imm12)
  | gpioSetLow (pin : Imm12)
  | li (xd : RegIdx) (imm : Imm16)
  | lih (xd : RegIdx) (imm : Imm16)
  | addi (xd xs : RegIdx) (imm : Imm16)
  | ldb (xd xb : RegIdx) (imm : Imm16)
  | stb (xs xb : RegIdx) (imm : Imm16)
  | bz (xs : RegIdx) (off : Imm16)
  | bnz (xs : RegIdx) (off : Imm16)
  | j (off : Imm16)
  | halt
  deriving DecidableEq, Repr

end Sys2Proof
end

