-- ==== Sys2Proof/WellFormed.lean ====
section
/-! DEFINITION. Which instructions a command word can stand for: the one field the types do not bound is the block
number of a register access (R175: 0 GPIO, 1 AUX, 2 UART0; 3 to 15 are illegal). -/

namespace Sys2Proof

/-- The check on an instruction's fields: a register access names one of the three blocks (R175). -/
def Instr.wellFormed : Instr → Bool
  | .regRd _ blk _ => decide (blk.toNat < 3)
  | .regWr _ blk _ => decide (blk.toNat < 3)
  | .setBit _ _ _ => true
  | .clearBit _ _ _ => true
  | .toggleBit _ _ _ => true
  | .isBitSet _ _ _ => true
  | .readBit _ _ _ => true
  | .uartInit => true
  | .uartWriteByte _ => true
  | .uartWriteString _ _ => true
  | .uartReadByte _ _ => true
  | .uartFlush => true
  | .uartReadLine _ _ _ => true
  | .uartIsDataReady _ => true
  | .gpioSetOutput _ => true
  | .gpioSetHigh _ => true
  | .gpioSetLow _ => true
  | .li _ _ => true
  | .lih _ _ => true
  | .addi _ _ _ => true
  | .ldb _ _ _ => true
  | .stb _ _ _ => true
  | .bz _ _ => true
  | .bnz _ _ => true
  | .j _ => true
  | .halt => true

/-- An instruction a command word can stand for. -/
abbrev WellFormed (i : Instr) : Prop := i.wellFormed = true

end Sys2Proof
end

