-- ==== Sys2Proof/Decode.lean ====
section
/-! DEFINITION. Reading a command word (R173 to R179), total and rejecting by name; the encoder, written from the same
table (R174, R177); the opcode table's rows as data (R178); the pseudo-instructions and branch offsets (R180, R181). -/

namespace Sys2Proof

/-! ## The fields of a command word (R174) -/

/-- Bits 31:24, `OPC`. -/
def opcField (w : Word) : BitVec 8 := w.extractLsb' 24 8

/-- Bits 23:20, `RA`. -/
def raField (w : Word) : RegIdx := w.extractLsb' 20 4

/-- Bits 19:16, `RB`. -/
def rbField (w : Word) : RegIdx := w.extractLsb' 16 4

/-- Bits 15:12, `RC` (format R). -/
def rcField (w : Word) : RegIdx := w.extractLsb' 12 4

/-- Bits 11:0, `IMM12` (format R). -/
def imm12Field (w : Word) : Imm12 := w.extractLsb' 0 12

/-- Bits 15:0, `IMM16` (format I). -/
def imm16Field (w : Word) : Imm16 := w.extractLsb' 0 16

/-- A word of format R (R174). -/
def wordR (opc : BitVec 8) (ra rb rc : RegIdx) (imm : Imm12) : Word :=
  opc ++ ra ++ rb ++ rc ++ imm

/-- A word of format I (R174). -/
def wordI (opc : BitVec 8) (ra rb : RegIdx) (imm : Imm16) : Word :=
  opc ++ ra ++ rb ++ imm

/-! ## Decoding -/

/-- Why a word stands for no instruction; each case raises `F_ILLEGAL` when the word is fetched (R178, R502). -/
inductive Reject
  /-- `OPC` is not in the opcode map (R178, R179). -/
  | unknownOpcode (opc : BitVec 8)
  /-- A field that must be zero is not (R177). -/
  | nonzeroField (opc : BitVec 8)
  /-- The block number of a register access is 3 to 15 (R175). -/
  | badBlock (rc : BitVec 4)
  deriving DecidableEq, Repr

/-- `i`, when the must-be-zero fields of its row are zero (R177). -/
def zeroFields (w : Word) (zero : Bool) (i : Instr) : Except Reject Instr :=
  if zero then .ok i else .error (.nonzeroField (opcField w))

/-- `i`, when `RB` is zero and `RC` is a block number (R175, R177). -/
def blockFields (w : Word) (i : Instr) : Except Reject Instr :=
  if rbField w ≠ 0 then .error (.nonzeroField (opcField w))
  else if (rcField w).toNat < 3 then .ok i
  else .error (.badBlock (rcField w))

/-- The instruction a command word stands for (R177, R178). -/
def decode (w : Word) : Except Reject Instr :=
  match (opcField w).toNat with
  | 0x01 => blockFields w (.regRd (raField w) (rcField w) (imm12Field w))
  | 0x02 => blockFields w (.regWr (raField w) (rcField w) (imm12Field w))
  | 0x10 => zeroFields w (rcField w == 0) (.setBit (raField w) (rbField w) (imm12Field w))
  | 0x11 => zeroFields w (rcField w == 0) (.clearBit (raField w) (rbField w) (imm12Field w))
  | 0x12 => zeroFields w (rcField w == 0) (.toggleBit (raField w) (rbField w) (imm12Field w))
  | 0x13 => zeroFields w (rcField w == 0) (.isBitSet (raField w) (rbField w) (imm12Field w))
  | 0x14 => zeroFields w (rcField w == 0) (.readBit (raField w) (rbField w) (imm12Field w))
  | 0x20 => zeroFields w (raField w == 0 && rbField w == 0 && rcField w == 0 && imm12Field w == 0) .uartInit
  | 0x21 => zeroFields w (raField w == 0 && rcField w == 0 && imm12Field w == 0) (.uartWriteByte (rbField w))
  | 0x22 => zeroFields w (raField w == 0 && imm12Field w == 0) (.uartWriteString (rbField w) (rcField w))
  | 0x23 => zeroFields w (rcField w == 0 && imm12Field w == 0) (.uartReadByte (raField w) (rbField w))
  | 0x24 => zeroFields w (raField w == 0 && rbField w == 0 && rcField w == 0 && imm12Field w == 0) .uartFlush
  | 0x25 => zeroFields w (imm12Field w == 0) (.uartReadLine (raField w) (rbField w) (rcField w))
  | 0x26 => zeroFields w (rbField w == 0 && rcField w == 0 && imm12Field w == 0) (.uartIsDataReady (raField w))
  | 0x30 => zeroFields w (raField w == 0 && rbField w == 0 && rcField w == 0) (.gpioSetOutput (imm12Field w))
  | 0x31 => zeroFields w (raField w == 0 && rbField w == 0 && rcField w == 0) (.gpioSetHigh (imm12Field w))
  | 0x32 => zeroFields w (raField w == 0 && rbField w == 0 && rcField w == 0) (.gpioSetLow (imm12Field w))
  | 0x40 => zeroFields w (rbField w == 0) (.li (raField w) (imm16Field w))
  | 0x41 => zeroFields w (rbField w == 0) (.lih (raField w) (imm16Field w))
  | 0x42 => .ok (.addi (raField w) (rbField w) (imm16Field w))
  | 0x44 => .ok (.ldb (raField w) (rbField w) (imm16Field w))
  | 0x45 => .ok (.stb (raField w) (rbField w) (imm16Field w))
  | 0x48 => zeroFields w (rbField w == 0) (.bz (raField w) (imm16Field w))
  | 0x49 => zeroFields w (rbField w == 0) (.bnz (raField w) (imm16Field w))
  | 0x4A => zeroFields w (raField w == 0 && rbField w == 0) (.j (imm16Field w))
  | 0x4F => zeroFields w (raField w == 0 && rbField w == 0 && rcField w == 0 && imm12Field w == 0) .halt
  | _ => .error (.unknownOpcode (opcField w))

/-- The instruction of a table word of `nbits` bits whose bits are `w`: one 32-bit command word (R173), the bits above
`nbits` zero. -/
def decodeTableWord (nbits w : Nat) : Option Instr :=
  match decode (BitVec.ofNat 32 (w % 2 ^ nbits)) with
  | .ok i => some i
  | .error _ => none

/-! ## Encoding -/

/-- The opcode of an instruction (R177). -/
def Instr.opc : Instr → BitVec 8
  | .regRd _ _ _ => 0x01
  | .regWr _ _ _ => 0x02
  | .setBit _ _ _ => 0x10
  | .clearBit _ _ _ => 0x11
  | .toggleBit _ _ _ => 0x12
  | .isBitSet _ _ _ => 0x13
  | .readBit _ _ _ => 0x14
  | .uartInit => 0x20
  | .uartWriteByte _ => 0x21
  | .uartWriteString _ _ => 0x22
  | .uartReadByte _ _ => 0x23
  | .uartFlush => 0x24
  | .uartReadLine _ _ _ => 0x25
  | .uartIsDataReady _ => 0x26
  | .gpioSetOutput _ => 0x30
  | .gpioSetHigh _ => 0x31
  | .gpioSetLow _ => 0x32
  | .li _ _ => 0x40
  | .lih _ _ => 0x41
  | .addi _ _ _ => 0x42
  | .ldb _ _ _ => 0x44
  | .stb _ _ _ => 0x45
  | .bz _ _ => 0x48
  | .bnz _ _ => 0x49
  | .j _ => 0x4A
  | .halt => 0x4F

/-- The command word of an instruction (R174, R177). -/
def encode : Instr → Word
  | .regRd xd blk off => wordR 0x01 xd 0 blk off
  | .regWr xs blk off => wordR 0x02 xs 0 blk off
  | .setBit xd xs n => wordR 0x10 xd xs 0 n
  | .clearBit xd xs n => wordR 0x11 xd xs 0 n
  | .toggleBit xd xs n => wordR 0x12 xd xs 0 n
  | .isBitSet xd xs n => wordR 0x13 xd xs 0 n
  | .readBit xd xs n => wordR 0x14 xd xs 0 n
  | .uartInit => wordR 0x20 0 0 0 0
  | .uartWriteByte xs => wordR 0x21 0 xs 0 0
  | .uartWriteString xa xn => wordR 0x22 0 xa xn 0
  | .uartReadByte xv xt => wordR 0x23 xv xt 0 0
  | .uartFlush => wordR 0x24 0 0 0 0
  | .uartReadLine xd xa xc => wordR 0x25 xd xa xc 0
  | .uartIsDataReady xd => wordR 0x26 xd 0 0 0
  | .gpioSetOutput pin => wordR 0x30 0 0 0 pin
  | .gpioSetHigh pin => wordR 0x31 0 0 0 pin
  | .gpioSetLow pin => wordR 0x32 0 0 0 pin
  | .li xd imm => wordI 0x40 xd 0 imm
  | .lih xd imm => wordI 0x41 xd 0 imm
  | .addi xd xs imm => wordI 0x42 xd xs imm
  | .ldb xd xb imm => wordI 0x44 xd xb imm
  | .stb xs xb imm => wordI 0x45 xs xb imm
  | .bz xs off => wordI 0x48 xs 0 off
  | .bnz xs off => wordI 0x49 xs 0 off
  | .j off => wordI 0x4A 0 0 off
  | .halt => wordR 0x4F 0 0 0 0

/-! ## The opcode table as data (R177, R178) -/

/-- A row of the opcode table: the bits a word must have (`pattern`) among those the row fixes (`mask`). -/
structure OpcodeRow where
  mnemonic : String
  pattern : Word
  mask : Word
  deriving DecidableEq, Repr

/-- The rows of register access and the bit utilities. -/
def tableAccess : List OpcodeRow :=
  [⟨"REG_RD", 0x01000000, 0xFF0F0000⟩, ⟨"REG_WR", 0x02000000, 0xFF0F0000⟩,
   ⟨"SET_BIT", 0x10000000, 0xFF00F000⟩, ⟨"CLEAR_BIT", 0x11000000, 0xFF00F000⟩,
   ⟨"TOGGLE_BIT", 0x12000000, 0xFF00F000⟩, ⟨"IS_BIT_SET", 0x13000000, 0xFF00F000⟩,
   ⟨"READ_BIT", 0x14000000, 0xFF00F000⟩]

/-- The rows of the UART and GPIO operations. -/
def tableDriver : List OpcodeRow :=
  [⟨"UART_INIT", 0x20000000, 0xFFFFFFFF⟩, ⟨"UART_WRITE_BYTE", 0x21000000, 0xFFF0FFFF⟩,
   ⟨"UART_WRITE_STRING", 0x22000000, 0xFFF00FFF⟩, ⟨"UART_READ_BYTE", 0x23000000, 0xFF00FFFF⟩,
   ⟨"UART_FLUSH", 0x24000000, 0xFFFFFFFF⟩, ⟨"UART_READ_LINE", 0x25000000, 0xFF000FFF⟩,
   ⟨"UART_IS_DATA_READY", 0x26000000, 0xFF0FFFFF⟩, ⟨"GPIO_SET_OUTPUT", 0x30000000, 0xFFFFF000⟩,
   ⟨"GPIO_SET_HIGH", 0x31000000, 0xFFFFF000⟩, ⟨"GPIO_SET_LOW", 0x32000000, 0xFFFFF000⟩]

/-- The rows of the harness. -/
def tableHarness : List OpcodeRow :=
  [⟨"LI", 0x40000000, 0xFF0F0000⟩, ⟨"LIH", 0x41000000, 0xFF0F0000⟩, ⟨"ADDI", 0x42000000, 0xFF000000⟩,
   ⟨"LDB", 0x44000000, 0xFF000000⟩, ⟨"STB", 0x45000000, 0xFF000000⟩, ⟨"BZ", 0x48000000, 0xFF0F0000⟩,
   ⟨"BNZ", 0x49000000, 0xFF0F0000⟩, ⟨"J", 0x4A000000, 0xFFFF0000⟩, ⟨"HALT", 0x4F000000, 0xFFFFFFFF⟩]

/-- The 26 rows of the opcode table. -/
def opcodeTable : List OpcodeRow := tableAccess ++ tableDriver ++ tableHarness

/-- A word has a row's fixed bits (R178). -/
def OpcodeRow.fits (r : OpcodeRow) (w : Word) : Bool := w &&& r.mask == r.pattern

/-- The row an instruction belongs to (R177). -/
def Instr.mnemonic : Instr → String
  | .regRd _ _ _ => "REG_RD"
  | .regWr _ _ _ => "REG_WR"
  | .setBit _ _ _ => "SET_BIT"
  | .clearBit _ _ _ => "CLEAR_BIT"
  | .toggleBit _ _ _ => "TOGGLE_BIT"
  | .isBitSet _ _ _ => "IS_BIT_SET"
  | .readBit _ _ _ => "READ_BIT"
  | .uartInit => "UART_INIT"
  | .uartWriteByte _ => "UART_WRITE_BYTE"
  | .uartWriteString _ _ => "UART_WRITE_STRING"
  | .uartReadByte _ _ => "UART_READ_BYTE"
  | .uartFlush => "UART_FLUSH"
  | .uartReadLine _ _ _ => "UART_READ_LINE"
  | .uartIsDataReady _ => "UART_IS_DATA_READY"
  | .gpioSetOutput _ => "GPIO_SET_OUTPUT"
  | .gpioSetHigh _ => "GPIO_SET_HIGH"
  | .gpioSetLow _ => "GPIO_SET_LOW"
  | .li _ _ => "LI"
  | .lih _ _ => "LIH"
  | .addi _ _ _ => "ADDI"
  | .ldb _ _ _ => "LDB"
  | .stb _ _ _ => "STB"
  | .bz _ _ => "BZ"
  | .bnz _ _ => "BNZ"
  | .j _ => "J"
  | .halt => "HALT"

/-! ## Assembler forms (R180, R181) -/

/-- The pseudo-instruction `nop` (R181). -/
def nop : Instr := .j 0

/-- The pseudo-instruction `mv xd, xs` (R181). -/
def mv (xd xs : RegIdx) : Instr := .addi xd xs 0

/-- The pseudo-instruction `li32 xd, imm32`: always two words (R181). -/
def li32 (xd : RegIdx) (imm : Word) : List Instr :=
  [.li xd (imm.extractLsb' 0 16), .lih xd (imm.extractLsb' 16 16)]

/-- The immediate of a branch at index `at_` to a label at index `label` (R180). A distance that does not fit 16 bits, of
which R180 states no result, is cut to them: DESIGN CHOICE (notes/assumptions/24.md), unsafe. -/
def branchImm (label at_ : Int) : Imm16 := BitVec.ofInt 16 (label - (at_ + 1))

/-- A register name, `x0` to `x15` (R180). -/
def regText (r : RegIdx) : String := "x" ++ toString r.toNat

/-- A block name; a number with no block has none (R180). -/
def blockText (b : BitVec 4) : Option String :=
  match b.toNat with
  | 0 => some "GPIO"
  | 1 => some "AUX"
  | 2 => some "UART0"
  | _ => none

/-- The operands of a bit utility (R180). -/
def bitText (name : String) (xd xs : RegIdx) (n : Imm12) : String :=
  name ++ " " ++ regText xd ++ ", " ++ regText xs ++ ", " ++ toString n.toNat

/-- An offset and its base register, `simm16(xb)` (R180). -/
def baseText (imm : Imm16) (xb : RegIdx) : String := toString imm.toInt ++ "(" ++ regText xb ++ ")"

/-- The assembler line of an instruction, numbers in decimal, a branch going to `label`; none for a register access that
names no block (R180). -/
def Instr.text (label : String) : Instr → Option String
  | .regRd xd blk off => (blockText blk).map fun b => "reg_rd " ++ regText xd ++ ", " ++ b ++ ", " ++ toString off.toNat
  | .regWr xs blk off => (blockText blk).map fun b => "reg_wr " ++ regText xs ++ ", " ++ b ++ ", " ++ toString off.toNat
  | .setBit xd xs n => some (bitText "set_bit" xd xs n)
  | .clearBit xd xs n => some (bitText "clear_bit" xd xs n)
  | .toggleBit xd xs n => some (bitText "toggle_bit" xd xs n)
  | .isBitSet xd xs n => some (bitText "is_bit_set" xd xs n)
  | .readBit xd xs n => some (bitText "read_bit" xd xs n)
  | .uartInit => some "uart_init"
  | .uartWriteByte xs => some ("uart_write_byte " ++ regText xs)
  | .uartWriteString xa xn => some ("uart_write_string " ++ regText xa ++ ", " ++ regText xn)
  | .uartReadByte xv xt => some ("uart_read_byte " ++ regText xv ++ ", " ++ regText xt)
  | .uartFlush => some "uart_flush"
  | .uartReadLine xd xa xc =>
    some ("uart_read_line " ++ regText xd ++ ", " ++ regText xa ++ ", " ++ regText xc)
  | .uartIsDataReady xd => some ("uart_is_data_ready " ++ regText xd)
  | .gpioSetOutput pin => some ("gpio_set_output " ++ toString pin.toNat)
  | .gpioSetHigh pin => some ("gpio_set_high " ++ toString pin.toNat)
  | .gpioSetLow pin => some ("gpio_set_low " ++ toString pin.toNat)
  | .li xd imm => some ("li " ++ regText xd ++ ", " ++ toString imm.toNat)
  | .lih xd imm => some ("lih " ++ regText xd ++ ", " ++ toString imm.toNat)
  | .addi xd xs imm => some ("addi " ++ regText xd ++ ", " ++ regText xs ++ ", " ++ toString imm.toInt)
  | .ldb xd xb imm => some ("ldb " ++ regText xd ++ ", " ++ baseText imm xb)
  | .stb xs xb imm => some ("stb " ++ regText xs ++ ", " ++ baseText imm xb)
  | .bz xs _ => some ("bz " ++ regText xs ++ ", " ++ label)
  | .bnz xs _ => some ("bnz " ++ regText xs ++ ", " ++ label)
  | .j _ => some ("j " ++ label)
  | .halt => some "halt"

end Sys2Proof
end

