-- ==== Sys2Proof/Config.lean ====
section
/-! DEFINITION. What an implementation fixes for a run (the OPEN parameters of R13), and the free values: constants with
no body, from which every draw of the spec is taken (93_implementation_defined.md, treatment `any value`). -/

namespace Sys2Proof

/-- The system-on-chip, `P_SOC` (R2, R13). -/
inductive Soc
  | bcm2835
  | bcm2836
  | bcm2837
  | bcm2711
  deriving DecidableEq, Repr

/-- Which UART is "the" UART, `P_VARIANT` (R13, R59). -/
inductive Variant
  | mini
  | full
  deriving DecidableEq, Repr

/-- The shape of a function-select write, `P_FSEL_SHAPE` (R13, R401). -/
inductive FselShape
  | oneWrite
  | clearThenSet
  | twoRmw
  deriving DecidableEq, Repr

/-- The agents that take steps (R30). -/
inductive Agent
  /-- The CPU agent, the one software context. -/
  | cpu
  /-- The Mini UART engine. -/
  | mu
  /-- The PL011 engine. -/
  | pl011
  /-- The host at the far end of the serial line. -/
  | host
  deriving DecidableEq, Repr, Inhabited

/-- The parameters R13 leaves OPEN, fixed for a run (R60). `P_PROG_LEN` is the length of the program. -/
structure Config where
  /-- `P_SOC`: gives the peripheral base (R104). -/
  soc : Soc
  /-- `P_VARIANT` (R59). -/
  variant : Variant
  /-- `P_FSEL_SHAPE` (R401). -/
  fselShape : FselShape
  /-- `P_BAUD`, bits a second. -/
  baud : Nat
  /-- `P_CORE_CLK`, the Mini UART's input clock in Hz. -/
  coreClk : Nat
  /-- `P_UARTCLK`, the PL011's reference clock in Hz. -/
  uartClk : Nat
  /-- `P_CLOCKED`: the engines are fairly scheduled (R283). -/
  clocked : Bool
  /-- `P_RAM_SIZE`, bytes of harness RAM (R36). -/
  ramSize : Nat
  deriving DecidableEq, Repr

/-- DESIGN CHOICE (notes/assumptions/3.md): the parameters the model's reset state carries. The spec leaves them OPEN; no
rule of the machine reads this definition. -/
def Config.named : Config :=
  { soc := .bcm2835, variant := .mini, fselShape := .oneWrite, baud := 115200, coreClk := 250000000,
    uartClk := 48000000, clocked := true, ramSize := 65536 }

/-- Draw number `n` of a 32-bit value: register bits no rule defines (R140), and the fields of a disabled Mini UART
(R213). Free: nothing is known of it. -/
opaque Config.freeWord : Nat → Word

/-- Draw number `n` of a list of bytes: the FIFOs of a disabled Mini UART (R213, R62). Free. -/
opaque Config.freeBytes : Nat → List Byte

/-- Draw number `n` of a shifter's contents, idle or a byte with a line configuration (R213, R62). Free. -/
opaque Config.freeFrame : Nat → Option (Byte × BitVec 2 × BitVec 16)

/-- Draw number `n` of a received byte under an ill-formed configuration (R280). Free. -/
opaque Config.freeByte : Nat → Byte

/-- Draw number `n` of the agent that takes the next step (R31). Free. -/
opaque Config.freeAgent : Nat → Agent

/-- Byte number `n` of an endless host input past its listed bytes (R58). Free. -/
opaque Config.freeLineIn : Nat → Byte

end Sys2Proof
end

