-- ==== Sys2Proof/Machine/State.lean ====
section
/-! DEFINITION. Every piece of state the spec gives the machine (10_state.md), as plain data; why a step can stop; and
the state the model resets to. -/

namespace Sys2Proof.Machine

/-! ## Registers of the blocks, by name -/

/-- The Mini UART's registers, in the order of their offsets 0x40 to 0x68 (R148, R151). -/
inductive MuReg
  | io | ier | iir | lcr | mcr | lsr | msr | scratch | cntl | stat | baud
  deriving DecidableEq, Repr

/-- The full UART's registers marked M (R163). -/
inductive UartReg
  | dr | rsrecr | fr | ibrd | fbrd | lcrh | cr | ifls | imsc | ris | mis | icr | dmacr
  deriving DecidableEq, Repr

/-- The registers the model gives a meaning: the rows marked M of R141, R148 and R163. -/
inductive PReg
  /-- GPFSEL0 to GPFSEL5. -/
  | gpfsel (k : Fin 6)
  /-- GPSET0 (`hi` false) and GPSET1 (`hi` true). -/
  | gpset (hi : Bool)
  /-- GPCLR0 and GPCLR1. -/
  | gpclr (hi : Bool)
  /-- GPLEV0 and GPLEV1. -/
  | gplev (hi : Bool)
  /-- AUX_IRQ. -/
  | auxIrq
  /-- AUX_ENABLES. -/
  | auxEnables
  /-- A register of the Mini UART. -/
  | mu (r : MuReg)
  /-- A register of the full UART. -/
  | uart (r : UartReg)
  deriving DecidableEq, Repr

/-! ## Peripheral state -/

/-- A UART engine. -/
inductive Uart
  /-- The Mini UART. -/
  | mu
  /-- The full UART. -/
  | pl011
  deriving DecidableEq, Repr

/-- A Mini UART line configuration: `mu_lcr[1:0]` and `mu_baud` (R307). -/
structure MuCfg where
  size : BitVec 2
  baud : BitVec 16
  deriving DecidableEq, Repr

/-- A PL011 line configuration: `act_lcrh`, `act_ibrd`, `act_fbrd` (R357). -/
structure PlCfg where
  lcrh : BitVec 8
  ibrd : BitVec 16
  fbrd : BitVec 6
  deriving DecidableEq, Repr

/-- A frame in a transmit shifter: the byte, the line configuration it was started with, and whether it is still
intact (R47, R53, R281). -/
structure TxFrame (C : Type) where
  byte : Byte
  cfg : C
  intact : Bool
  deriving DecidableEq, Repr

/-- The GPIO block: `fsel[p]` (R41) and `out[p]` (R42) for pins 0 to 53. -/
structure Gpio where
  fsel : Vector (BitVec 3) 54
  out : BitVec 54
  deriving DecidableEq, Repr

/-- The Auxiliary block's enable bits (R44). -/
structure Aux where
  enMu : Bool
  enSpi1 : Bool
  enSpi2 : Bool
  deriving DecidableEq, Repr

/-- The Mini UART (R45 to R48). A FIFO's head is its oldest byte. -/
structure Mu where
  ier : BitVec 8
  lcr : BitVec 8
  mcr : BitVec 8
  scratch : BitVec 8
  cntl : BitVec 8
  baud : BitVec 16
  txf : List Byte
  rxf : List Byte
  busy : Option (TxFrame MuCfg)
  ovr : Bool
  deriving DecidableEq, Repr

/-- The full UART (R50 to R54). -/
structure Pl011 where
  ibrd : BitVec 16
  fbrd : BitVec 6
  lcrh : BitVec 8
  cr : BitVec 16
  ifls : BitVec 6
  imsc : BitVec 11
  dmacr : BitVec 3
  actIbrd : BitVec 16
  actFbrd : BitVec 6
  actLcrh : BitVec 8
  txf : List Byte
  rxf : List Byte
  busy : Option (TxFrame PlCfg)
  oe : Bool
  deriving DecidableEq, Repr

/-! ## The line and the history -/

/-- An entry of `LINE_OUT` (R57): the finished frame and whether the transmit pin was routed to its UART. -/
inductive LineEntry
  | mu (frame : TxFrame MuCfg) (routed : Bool)
  | pl011 (frame : TxFrame PlCfg) (routed : Bool)
  deriving DecidableEq, Repr

/-- `LINE_IN` (R58): the bytes the host will still send. The listed ones come first; an endless input goes on past them
with bytes of the host's choosing, `sent` of which have gone: DESIGN CHOICE (notes/assumptions/8.md), safe. -/
structure LineIn where
  listed : List Byte
  endless : Bool
  sent : Nat
  deriving DecidableEq, Repr

/-- Why a received byte is lost (R280). -/
inductive Loss
  | unrouted | disabled | overrun
  deriving DecidableEq, Repr

/-- An entry of the event history `EV` (R38). -/
inductive Event
  /-- A register read and the value it returned. -/
  | rd (blk : Block) (off : Nat) (v : Word)
  /-- A register write. -/
  | wr (blk : Block) (off : Nat) (v : Word)
  /-- `TXS`: a frame starts. -/
  | txs (u : Uart) (b : Byte)
  /-- `TXD`: a frame ends. -/
  | txd (u : Uart) (b : Byte)
  /-- `RXP`: a byte enters a receive FIFO. -/
  | rxp (u : Uart) (b : Byte)
  /-- `RXL`: a received byte is lost; no UART when it is unrouted. -/
  | rxl (u : Option Uart) (b : Byte) (why : Loss)
  /-- `FAULT`, with the code's number. -/
  | fault (code : Nat)
  deriving DecidableEq, Repr

/-! ## The CPU agent -/

/-- The eleven fault codes with the information each records (R500 to R512). These are the SPEC's faults: raising one is
a next state whose status is `faulted`. -/
inductive Cause
  /-- 1, `F_ILLEGAL`: the fetched word. -/
  | illegal (w : Word)
  /-- 2, `F_UNWRITTEN`: the register number. -/
  | unwritten (r : RegIdx)
  /-- 3, `F_PC_RANGE`: the operation pointer. -/
  | pcRange (opc : Int)
  /-- 4, `F_RAM_RANGE`: address and length. -/
  | ramRange (a n : Nat)
  /-- 5, `F_SHIFT_RANGE`: the bit index or pin. -/
  | shiftRange (n : Nat)
  /-- 6, `F_UNINIT`: the opcode. -/
  | uninit (opcode : BitVec 8)
  /-- 7, `F_BUF_CAPACITY`: the capacity. -/
  | bufCapacity (cap : Nat)
  /-- 8, `F_REG_REFUSED`: block, offset, and the value of a write. -/
  | regRefused (blk : Block) (off : Nat) (v : Option Word)
  /-- 9, `F_AUX_DISABLED`: the offset. -/
  | auxDisabled (off : Nat)
  /-- 10, `F_PL011_REPROGRAM`: offset and value. -/
  | pl011Reprogram (off : Nat) (v : Word)
  /-- 11, `F_TX_OVERFLOW`: the UART. -/
  | txOverflow (u : Uart)
  deriving DecidableEq, Repr

/-- The run status (R37). -/
inductive Status
  | running
  | halted
  | faulted (c : Cause) (opc : Int)
  deriving DecidableEq, Repr

/-- The driver state `drv` (R39). -/
inductive Drv
  | uninit | ready
  deriving DecidableEq, Repr

/-- Which register access of `SelectFunction` comes next (R401), with the value it will write. -/
inductive SelPhase
  /-- The read of GPFSELk. -/
  | read
  /-- The write of the value with the field cleared. -/
  | clear (v : Word)
  /-- The second read of `TWO_RMW`. -/
  | reread
  /-- The last write, of this value with the field's code put in. -/
  | set (v : Word)
  deriving DecidableEq, Repr

/-- What `UART_READ_LINE` does next (R278). -/
inductive LinePhase
  /-- Read the status, waiting for a byte. -/
  | rxPoll
  /-- Read the byte the status showed. -/
  | rxGet
  /-- Store this byte, then wait for room to echo it. -/
  | store (c : Byte)
  /-- Wait for room for the first of these echo bytes. -/
  | echo (q : List Byte)
  /-- Write the first of these echo bytes. -/
  | put (q : List Byte)
  deriving DecidableEq, Repr

/-- The micro-step an operation in progress takes next, with the operation's own variables (R40). -/
inductive Micro
  /-- The first micro-step. -/
  | start
  /-- `SelectFunction` of this pin. -/
  | select (pin : Nat) (ph : SelPhase)
  /-- `EngineInit_MINI`'s read of AUX_ENABLES. -/
  | enables
  /-- The writes still to do of an engine's initialisation: block, offset, value. -/
  | writes (ws : List (Block × Nat × Word))
  /-- `WriteByte`: wait for room. -/
  | txPoll (b : Byte)
  /-- `WriteByte`: write the byte. -/
  | txPut (b : Byte)
  /-- `UART_WRITE_STRING` of `n` bytes from `a`: take byte `k` from RAM and look for room. -/
  | strByte (a n k : Nat)
  /-- The same, byte `k` taken: wait for room. -/
  | strPoll (a n k : Nat) (b : Byte)
  /-- The same: write byte `k`. -/
  | strPut (a n k : Nat) (b : Byte)
  /-- `UART_READ_BYTE`: read the byte the status showed. -/
  | rxGet
  /-- `UART_FLUSH`: wait for the transmit path to be idle. -/
  | idlePoll
  /-- `UART_READ_LINE` into the `cap` bytes from `a`, with the cursor at `pos`. -/
  | line (a cap pos : Nat) (ph : LinePhase)
  deriving DecidableEq, Repr

/-- The operation context (R40): the command word's instruction and its next micro-step. -/
structure Op where
  instr : Instr
  micro : Micro
  deriving DecidableEq, Repr

/-! ## The state -/

/-- The machine's state. -/
structure State where
  /-- The run's parameters (R13, R60): no step changes them. -/
  cfg : Config
  /-- The program store (R35): no step changes it. -/
  prog : List Word
  /-- The harness registers, each holding a value or none (R32). -/
  x : Vector (Option Word) 16
  /-- The operation pointer (R34). A branch can leave it below 0 (R436): DEDUCED (notes/assumptions/19.md). -/
  opc : Int
  /-- The harness RAM (R36): address and byte, in canonical form. -/
  ram : List Host.Cell
  /-- The run status (R37). -/
  status : Status
  /-- The event history `EV`, oldest first (R38). -/
  ev : List Event
  /-- The driver state (R39). -/
  drv : Drv
  /-- The operation in progress (R40). -/
  op : Option Op
  /-- The GPIO block. -/
  gpio : Gpio
  /-- The Auxiliary block's enables. -/
  aux : Aux
  /-- The Mini UART. -/
  mu : Mu
  /-- The full UART. -/
  pl : Pl011
  /-- `LINE_OUT`, oldest first (R57). -/
  lineOut : List LineEntry
  /-- `LINE_IN` (R58). -/
  lineIn : LineIn
  /-- The model's own: the agents that take the next steps, first one first; past its end the choice is free (R31).
  DESIGN CHOICE (notes/assumptions/6.md). -/
  sched : List Agent
  /-- The model's own: how many free values have been drawn. DESIGN CHOICE (notes/assumptions/7.md). -/
  draws : Nat
  deriving DecidableEq, Repr

/-- Why a step has no next state. Only `step` raises it. -/
inductive Fault
  /-- The run has ended (R641): the CPU agent has stopped and neither an engine nor the host has an enabled step, so no
  agent can step. Raised by `step`. Safe: the spec has no step here. -/
  | runEnded
  deriving DecidableEq, Repr

/-- Why a step has no meaning. -/
inductive Refusal
  /-- An instruction exec gives no meaning yet, by its table mnemonic. Raised by exec's arms only; no arm is left that
  raises it. Safe: the machine stops where the hardware would go on. -/
  | notModelled (mnemonic : String)
  deriving DecidableEq, Repr

/-! ## Reset -/

/-- The GPIO block at reset. PRESUMED (notes/assumptions/2.md), unsafe: the family's hardware reset values of R63 and R602,
every pin an input, and zero for the output latches; the spec's own launch value of each is a draw (R62). -/
def Gpio.reset : Gpio := { fsel := Vector.replicate 54 0, out := 0 }

/-- The Mini UART at reset. PRESUMED (notes/assumptions/2.md), unsafe: the family's hardware reset values of R63 and R602.
Its FIFOs are empty and its shifter idle, so that AUX_MU_LSR_REG is 0x60; AUX_MU_IIR_REG, 0xC1 there, reads as a draw
(R216). -/
def Mu.reset : Mu :=
  { ier := 0, lcr := 0, mcr := 0, scratch := 0, cntl := 0x03, baud := 0, txf := [], rxf := [], busy := none,
    ovr := false }

/-- The full UART at reset. PRESUMED (notes/assumptions/2.md), unsafe: the family's hardware reset values of R63 and R602;
the active divisor and line control equal the stored ones. Its FIFOs are empty and its shifter idle, so that UART_FR is
0x90, the modem inputs aside. -/
def Pl011.reset : Pl011 :=
  { ibrd := 0, fbrd := 0, lcrh := 0, cr := 0x0300, ifls := 0x12, imsc := 0, dmacr := 0, actIbrd := 0, actFbrd := 0,
    actLcrh := 0, txf := [], rxf := [], busy := none, oe := false }

/-- The machine at launch (R61, R600, R601): registers unwritten, operation pointer 0, running, no history, driver
uninitialised, no operation in progress. The peripheral fields, draws in the spec (R62), have the values named in
notes/assumptions/2.md; no program is placed, the RAM lists nothing and the host has nothing to send. -/
def State.reset : State :=
  { cfg := Config.named, prog := [], x := Vector.replicate 16 none, opc := 0, ram := [], status := .running, ev := [],
    drv := .uninit, op := none, gpio := Gpio.reset,
    aux := { enMu := false, enSpi1 := false, enSpi2 := false }, mu := Mu.reset, pl := Pl011.reset, lineOut := [],
    lineIn := { listed := [], endless := false, sent := 0 }, sched := [], draws := 0 }

end Sys2Proof.Machine
end

