-- ==== Sys2Proof/Machine/Params.lean ====
section
/-! DEFINITION. The parameters R13 fixes, the addresses of R104 and the divisors of R172. -/

namespace Sys2Proof.Machine

/-- `P_MU_DEPTH` (R13). -/
def muDepth : Nat := 8

/-- `P_PL011_DEPTH`, with the FIFOs enabled (R13). -/
def pl011Depth : Nat := 16

/-- `P_NUM_PINS` (R14). -/
def numPins : Nat := 54

/-- `P_PINS_PER_FSEL` (R13). -/
def pinsPerFsel : Nat := 10

/-- `P_NUM_FSEL` (R13). -/
def numFsel : Nat := 6

/-- `P_TX_PIN` (R13). -/
def txPin : Nat := 14

/-- `P_RX_PIN` (R13). -/
def rxPin : Nat := 15

/-- `P_FN_OUTPUT` (R146). -/
def fnOutput : BitVec 3 := 0b001

/-- `P_ALT_MINI`, ALT5 (R306). -/
def altMini : BitVec 3 := 0b010

/-- `P_ALT_FULL`, ALT0 (R356). -/
def altFull : BitVec 3 := 0b100

/-- `alt(V)` for a variant (R306, R356). -/
def altOf : Variant → BitVec 3
  | .mini => altMini
  | .full => altFull

/-- `alt(u)` for a UART (R279). -/
def altOfUart : Uart → BitVec 3
  | .mu => altMini
  | .pl011 => altFull

/-- `P_MU_BAUD_DIV` (R172), cut to its 16 bits: DESIGN CHOICE (notes/assumptions/18.md), unsafe. -/
def muBaudDiv (c : Config) : BitVec 16 := BitVec.ofNat 16 (c.coreClk / (8 * c.baud) - 1)

/-- The PL011 divisor in 64ths, rounded to nearest: `floor(q * 64 + 1/2)` for `q = P_UARTCLK / (16 * P_BAUD)`. Its
quotient and remainder by 64 are `P_IBRD` and `P_FBRD`, the carry of R172 included. -/
def pl011Div64 (c : Config) : Nat := (2 * 64 * c.uartClk + 16 * c.baud) / (2 * (16 * c.baud))

/-- `P_IBRD` (R172). -/
def pl011Ibrd (c : Config) : BitVec 16 := BitVec.ofNat 16 (pl011Div64 c / 64)

/-- `P_FBRD` (R172). -/
def pl011Fbrd (c : Config) : BitVec 6 := BitVec.ofNat 6 (pl011Div64 c % 64)

/-- `P_PERIPHERAL_BASE` as a function of `P_SOC` (R13, R104). No rule of the machine depends on it. -/
def peripheralBase : Soc → Word
  | .bcm2835 => 0x20000000
  | .bcm2836 => 0x3F000000
  | .bcm2837 => 0x3F000000
  | .bcm2711 => 0xFE000000

/-- `P_GPIO_OFF`, `P_AUX_OFF`, `P_UART0_OFF` (R13). -/
def blockOffset : Block → Word
  | .gpio => 0x00200000
  | .aux => 0x00215000
  | .uart0 => 0x00201000

/-- `base(blk)` (R104). -/
def blockBase (s : Soc) (b : Block) : Word := peripheralBase s + blockOffset b

end Sys2Proof.Machine
end

