-- ==== Sys2Proof/Machine/Ops.lean ====
section
/-! DEFINITION. The named operations on the state: the harness RAM as a canonical list, the harness registers, the event
history, the operation context, fetching a command word, and raising a fault (R501), the one reaction the spec gives
to every fault. There is no return from a fault (R516). -/

namespace Sys2Proof.Machine

/-! ## The harness RAM (R36, R102) -/

/-- What a RAM address that is not listed reads as. DESIGN CHOICE (notes/assumptions/4.md): 0. -/
def Memory.blank : Byte := 0

/-- The byte at an address. -/
def Memory.read : List Host.Cell → Nat → Byte
  | [], _ => Memory.blank
  | (k, c) :: rest, a => if k = a then c else Memory.read rest a

/-- The memory with one byte written: addresses stay rising, and the blank value is not listed. -/
def Memory.write : List Host.Cell → Nat → Byte → List Host.Cell
  | [], a, b => if b = Memory.blank then [] else [(a, b)]
  | (k, c) :: rest, a, b =>
    if a < k then (if b = Memory.blank then (k, c) :: rest else (a, b) :: (k, c) :: rest)
    else if a = k then (if b = Memory.blank then rest else (a, b) :: rest)
    else (k, c) :: Memory.write rest a b

/-- The canonical form: addresses strictly rising, no entry equal to the blank value. -/
def Memory.wf : List Host.Cell → Bool
  | [] => true
  | (k, c) :: rest => c != Memory.blank && rest.all (fun e => decide (k < e.1)) && Memory.wf rest

/-- The byte of RAM at an address (R19). -/
def State.ramByte (s : State) (a : Nat) : Byte := Memory.read s.ram a

/-- One byte of RAM written (R19, R117: no event). -/
def State.setRam (s : State) (a : Nat) (b : Byte) : State := { s with ram := Memory.write s.ram a b }

/-- The `n` bytes from `a` lie in the RAM, as unbounded integers (R102). -/
def State.inRam (s : State) (a n : Nat) : Bool := decide (a + n ≤ s.cfg.ramSize)

/-! ## Harness registers, history, operation pointer and context -/

/-- A harness register's value, if it holds one (R32). -/
def State.reg (s : State) (r : RegIdx) : Option Word := s.x[r.toNat]

/-- A harness register written (R17, R32). -/
def State.setReg (s : State) (r : RegIdx) (v : Word) : State := { s with x := s.x.set r.toNat (some v) }

/-- An event appended to the history (R38). -/
def State.emit (s : State) (e : Event) : State := { s with ev := s.ev ++ [e] }

/-- An operation ends: the operation pointer moves to `target` and the context is discarded (R34, R40). -/
def State.goto (s : State) (target : Int) : State := { s with opc := target, op := none }

/-- An operation that does not branch ends: `opc <- opc + 1` (R34). -/
def State.finish (s : State) : State := s.goto (s.opc + 1)

/-- An operation stays in progress: `m` is its next micro-step (R40). -/
def State.pause (s : State) (i : Instr) (m : Micro) : State := { s with op := some { instr := i, micro := m } }

/-- The micro-step instruction `i` takes next: its first, unless `i` is the operation in progress (R40). A context of
another instruction is not used, and no step hands one over: DESIGN CHOICE (notes/assumptions/9.md), safe. -/
def State.microOf (s : State) (i : Instr) : Micro :=
  match s.op with
  | some o => if o.instr = i then o.micro else .start
  | none => .start

/-- Fetching the command word at the operation pointer; none outside the program (R34, R429). -/
def State.fetch (s : State) : Option Word := if s.opc < 0 then none else s.prog[s.opc.toNat]?

/-- The number of a fault code (60_exceptions.md section 2). -/
def Cause.code : Cause → Nat
  | .illegal _ => 1
  | .unwritten _ => 2
  | .pcRange _ => 3
  | .ramRange _ _ => 4
  | .shiftRange _ => 5
  | .uninit _ => 6
  | .bufCapacity _ => 7
  | .regRefused _ _ _ => 8
  | .auxDisabled _ => 9
  | .pl011Reprogram _ _ => 10
  | .txOverflow _ => 11

/-- Raising a fault (R501): the status records the cause and the operation pointer, the history gets `FAULT`, the
operation stops, and nothing else changes. -/
def State.raise (s : State) (c : Cause) : State :=
  { s.emit (.fault c.code) with status := .faulted c s.opc, op := none }

/-- What a meaning answers. A fault of the spec is a next state: DESIGN CHOICE (notes/assumptions/5.md), safe. -/
abbrev Res := Host.Outcome State Fault Refusal

/-- The outcome of raising a fault: a next state. -/
def raise (c : Cause) (s : State) : Res := .next (s.raise c)

/-! ## Values of which only some bits are defined -/

/-- A value read from a register: the bits of `mask` are those of `known`, the others are a draw (R140), the opaque
constant `Config.freeWord` at the draw counter: DESIGN CHOICE (notes/assumptions/7.md), safe. -/
structure Drawn where
  known : Word
  mask : Word
  draw : Word
  deriving DecidableEq, Repr

/-- The 32-bit value. -/
def Drawn.word (d : Drawn) : Word := (d.known &&& d.mask) ||| (d.draw &&& ~~~d.mask)

/-- Bit `i` of the value, taken from the part that defines it. -/
def Drawn.bit (d : Drawn) (i : Nat) : Bool := if d.mask.getLsbD i then d.known.getLsbD i else d.draw.getLsbD i

/-- Bits 7:0 of the value, taken from the known part where that defines them all. -/
def Drawn.byte (d : Drawn) : Byte :=
  if d.mask.setWidth 8 = 0xFF then d.known.setWidth 8 else d.word.setWidth 8

/-- The Mini UART after its enable is cleared, from free value number `n` on (R213, R62): any stored values, FIFOs
within their depth, any overrun flag, and a shifter idle or holding a frame that is not intact. DESIGN CHOICE
(notes/assumptions/14.md), safe. -/
def Mu.free (n : Nat) : Mu :=
  { ier := (Config.freeWord n).setWidth 8
    lcr := (Config.freeWord (n + 1)).setWidth 8
    mcr := (Config.freeWord (n + 2)).setWidth 8
    scratch := (Config.freeWord (n + 3)).setWidth 8
    cntl := (Config.freeWord (n + 4)).setWidth 8
    baud := (Config.freeWord (n + 5)).setWidth 16
    txf := (Config.freeBytes n).take muDepth
    rxf := (Config.freeBytes (n + 1)).take muDepth
    busy := (Config.freeFrame n).map fun f => { byte := f.1, cfg := { size := f.2.1, baud := f.2.2 }, intact := false }
    ovr := (Config.freeWord (n + 6)).getLsbD 0 }

/-- How many free values `Mu.free` takes. -/
def Mu.freeCount : Nat := 7

end Sys2Proof.Machine
end

