-- ==== Sys2Proof/Machine/Flags.lean ====
section
/-! DEFINITION. The status flags the block computes from its state (R49, R55), the status registers built of them (R158,
R161, R166), the enables and routings of the UARTs (R279, R308, R358) and the well-formed line configurations (R307,
R357). The command words have no flags of their own. -/

namespace Sys2Proof.Machine

/-! ## GPIO -/

/-- `fsel[p]`; 0 for a pin outside 0 to 53. -/
def Gpio.fselAt (g : Gpio) (p : Nat) : BitVec 3 := if h : p < 54 then g.fsel[p] else 0

/-- A pin is driven by its output latch: its function is output (R42). -/
def Gpio.isOutput (g : Gpio) (p : Nat) : Bool := g.fselAt p == fnOutput

/-- The transmit pin carries UART `u` (R279). -/
def State.txRouted (s : State) (u : Uart) : Bool := s.gpio.fselAt txPin == altOfUart u

/-- The receive pin carries UART `u` (R279). -/
def State.rxRouted (s : State) (u : Uart) : Bool := s.gpio.fselAt rxPin == altOfUart u

/-! ## Mini UART (R49) -/

/-- `mu_data_ready`. -/
def Mu.dataReady (m : Mu) : Bool := !m.rxf.isEmpty

/-- `mu_tx_room`. -/
def Mu.txRoom (m : Mu) : Bool := decide (m.txf.length < muDepth)

/-- The transmit FIFO is full. -/
def Mu.txFull (m : Mu) : Bool := decide (m.txf.length = muDepth)

/-- The receive FIFO is full. -/
def Mu.rxFull (m : Mu) : Bool := decide (m.rxf.length = muDepth)

/-- `mu_tx_idle`. -/
def Mu.txIdle (m : Mu) : Bool := m.txf.isEmpty && m.busy.isNone

/-- The transmitter is enabled (R308). -/
def State.muTxEnabled (s : State) : Bool := s.aux.enMu && s.mu.cntl.getLsbD 1

/-- The receiver is enabled (R308). -/
def State.muRxEnabled (s : State) : Bool := s.aux.enMu && s.mu.cntl.getLsbD 0

/-- `cfg(MU)` (R307). -/
def Mu.lineCfg (m : Mu) : MuCfg := { size := m.lcr.extractLsb' 0 2, baud := m.baud }

/-- `wf(MU, cfg)`: 8-bit mode at the divisor of `P_BAUD` (R307). -/
def MuCfg.ok (c : Config) (l : MuCfg) : Bool := l.size == 0b11 && l.baud == muBaudDiv c

/-! ## Full UART (R55) -/

/-- The FIFO depth: `P_PL011_DEPTH` with the FIFOs enabled, else 1 (R52). -/
def Pl011.depth (u : Pl011) : Nat := if u.lcrh.getLsbD 4 then pl011Depth else 1

/-- `u_fr_busy`. -/
def Pl011.frBusy (u : Pl011) : Bool := u.busy.isSome || !u.txf.isEmpty

/-- `u_rxfe`. -/
def Pl011.rxfe (u : Pl011) : Bool := u.rxf.isEmpty

/-- `u_txff`. -/
def Pl011.txff (u : Pl011) : Bool := decide (u.txf.length = u.depth)

/-- `u_rxff`. -/
def Pl011.rxff (u : Pl011) : Bool := decide (u.rxf.length = u.depth)

/-- `u_txfe`. -/
def Pl011.txfe (u : Pl011) : Bool := u.txf.isEmpty

/-- UARTEN, bit 0 of `u_cr` (R169). -/
def Pl011.enabled (u : Pl011) : Bool := u.cr.getLsbD 0

/-- The transmitter is enabled: UARTEN and TXE (R358). -/
def Pl011.txEnabled (u : Pl011) : Bool := u.cr.getLsbD 0 && u.cr.getLsbD 8

/-- The receiver is enabled: UARTEN and RXE (R358). -/
def Pl011.rxEnabled (u : Pl011) : Bool := u.cr.getLsbD 0 && u.cr.getLsbD 9

/-- `cfg(PL011)` (R357). -/
def Pl011.lineCfg (u : Pl011) : PlCfg := { lcrh := u.actLcrh, ibrd := u.actIbrd, fbrd := u.actFbrd }

/-- `wf(PL011, cfg)`: 8 bits, no parity, one stop bit, no break, the divisor of `P_BAUD` (R357). -/
def PlCfg.ok (c : Config) (l : PlCfg) : Bool :=
  l.lcrh.extractLsb' 5 2 == 0b11 && !l.lcrh.getLsbD 1 && !l.lcrh.getLsbD 3 && !l.lcrh.getLsbD 0 &&
    l.ibrd == pl011Ibrd c && l.fbrd == pl011Fbrd c

/-! ## Status registers -/

/-- A value with bit `i` set when `b`. -/
def bitIf (i : Nat) (b : Bool) : Word := if b then (1 : Word) <<< i else 0

/-- AUX_MU_LSR_REG: the bits R158 defines. -/
def Mu.lsr (m : Mu) : Word :=
  bitIf 0 m.dataReady ||| bitIf 1 m.ovr ||| bitIf 5 m.txRoom ||| bitIf 6 m.txIdle

/-- Which bits of AUX_MU_LSR_REG are defined. -/
def lsrMask : Word := 0x00000063

/-- AUX_MU_STAT_REG: the bits R161 defines. -/
def Mu.stat (m : Mu) : Word :=
  bitIf 0 m.dataReady ||| bitIf 1 m.txRoom ||| bitIf 4 m.ovr ||| bitIf 5 m.txFull ||| bitIf 8 m.txf.isEmpty |||
    bitIf 9 m.txIdle ||| ((BitVec.ofNat 4 m.rxf.length).setWidth 32 <<< 16) |||
    ((BitVec.ofNat 4 m.txf.length).setWidth 32 <<< 24)

/-- Which bits of AUX_MU_STAT_REG are defined. -/
def statMask : Word := 0x0F0F0333

/-- UART_FR: the bits R166 defines. -/
def Pl011.fr (u : Pl011) : Word :=
  bitIf 3 u.frBusy ||| bitIf 4 u.rxfe ||| bitIf 5 u.txff ||| bitIf 6 u.rxff ||| bitIf 7 u.txfe

/-- Which bits of UART_FR are defined. -/
def frMask : Word := 0x000000F8

/-! ## Reserved bits of stored registers

Bits marked reserved hold no state: a write ignores them and a read returns a draw for them (R140, D37). Inside the stored
8 or 16 bits of four registers some are reserved: DEDUCED (notes/assumptions/23.md), safe. -/

/-- The bits of AUX_MU_IER_REG that hold state: 1:0 (R154). -/
def ierMask : Word := 0x00000003

/-- The bits of AUX_MU_LCR_REG that hold state: 7:6 and 1:0 (R156). -/
def lcrMask : Word := 0x000000C3

/-- The bit of AUX_MU_MCR_REG that holds state: 1 (R157). -/
def mcrMask : Word := 0x00000002

/-- The bits of UART_CR that hold state: 15:7 and 2:0 (R169). -/
def crMask : Word := 0x0000FF87

end Sys2Proof.Machine
end

