-- ==== Sys2Proof/Machine/Operands.lean ====
section
/-! DEFINITION. The operand forms of the command words (R175, R176), each with the fault its check raises, in the order
of R513. -/

namespace Sys2Proof.Machine

/-- `IMM12`, zero-extended: a register offset, a bit index or a pin number (R176). -/
def uimm12 (imm : Imm12) : Nat := imm.toNat

/-- `IMM16`, zero-extended to 32 bits (R176: `LI`, `LIH`). -/
def zext16 (imm : Imm16) : Word := imm.setWidth 32

/-- `IMM16`, sign-extended to 32 bits (R176: `ADDI`, `LDB`, `STB`). -/
def sext16 (imm : Imm16) : Word := imm.signExtend 32

/-- A branch's target: `opc + 1 + sext(IMM16)`, as an integer (R176, R436). -/
def State.branchTarget (s : State) (off : Imm16) : Int := s.opc + 1 + off.toInt

/-- The block a number names (R175). -/
def decodeBlock (rc : BitVec 4) : Option Block :=
  match rc.toNat with
  | 0 => some .gpio
  | 1 => some .aux
  | 2 => some .uart0
  | _ => none

/-- A register access's block operand; a number above 2 was refused at decode, `F_ILLEGAL` (R200), and no run reaches this
case: DESIGN CHOICE (notes/assumptions/13.md), safe. -/
def withBlock (i : Instr) (rc : BitVec 4) (s : State) (k : Block → Res) : Res :=
  match decodeBlock rc with
  | some b => k b
  | none => raise (.illegal (encode i)) s

/-- A register operand that is read: `F_UNWRITTEN` when it holds no value (R33, R503). -/
def withReg (r : RegIdx) (s : State) (k : Word → Res) : Res :=
  match s.reg r with
  | some v => k v
  | none => raise (.unwritten r) s

/-- A bit index: `F_SHIFT_RANGE` at 32 and above (R505). -/
def withBitIndex (n : Imm12) (s : State) (k : Nat → Res) : Res :=
  if uimm12 n > 31 then raise (.shiftRange (uimm12 n)) s else k (uimm12 n)

/-- A UART operation other than `UART_INIT`: `F_UNINIT` before `init` (R271, R507). -/
def withReady (opcode : BitVec 8) (s : State) (k : Res) : Res :=
  match s.drv with
  | .ready => k
  | .uninit => raise (.uninit opcode) s

/-- A range of RAM, checked whole: `F_RAM_RANGE` (R102, R504). -/
def withRam (a n : Nat) (s : State) (k : Res) : Res :=
  if s.inRam a n then k else raise (.ramRange a n) s

/-- A RAM address: base register plus sign-extended offset, modulo 2^32 (R433, R434). -/
def ramAddr (base : Word) (off : Imm16) : Nat := (base + sext16 off).toNat

end Sys2Proof.Machine
end

