-- ==== Sys2Proof/Machine/BitUtil.lean ====
section
/-! DEFINITION. The bit utilities (42_bit_utilities.md): pure functions of one 32-bit value and a bit index, and their
command words, each one step. -/

namespace Sys2Proof.Machine

/-- `set_bit(v, n)` (R250). -/
def setBit (v : Word) (n : Nat) : Word := v ||| ((1 : Word) <<< n)

/-- `clear_bit(v, n)` (R251). -/
def clearBit (v : Word) (n : Nat) : Word := v &&& ~~~((1 : Word) <<< n)

/-- `toggle_bit(v, n)` (R252). -/
def toggleBit (v : Word) (n : Nat) : Word := v ^^^ ((1 : Word) <<< n)

/-- `is_bit_set(v, n)` as 1 or 0 (R253). -/
def isBitSet (v : Word) (n : Nat) : Word := if v &&& ((1 : Word) <<< n) ≠ 0 then 1 else 0

/-- `read_bit(v, n)` (R254). -/
def readBit (v : Word) (n : Nat) : Word := (v >>> n) &&& 1

/-- The common form of the five words: read `xs`, check the index, write `xd` (42_bit_utilities.md). -/
def bitOp (f : Word → Nat → Word) (xd xs : RegIdx) (n : Imm12) (s : State) : Res :=
  withReg xs s fun v => withBitIndex n s fun i => .next (s.setReg xd (f v i)).finish

/-- `SET_BIT` (R250). -/
def execSetBit (xd xs : RegIdx) (n : Imm12) (s : State) : Res := bitOp setBit xd xs n s

/-- `CLEAR_BIT` (R251). -/
def execClearBit (xd xs : RegIdx) (n : Imm12) (s : State) : Res := bitOp clearBit xd xs n s

/-- `TOGGLE_BIT` (R252). -/
def execToggleBit (xd xs : RegIdx) (n : Imm12) (s : State) : Res := bitOp toggleBit xd xs n s

/-- `IS_BIT_SET` (R253). -/
def execIsBitSet (xd xs : RegIdx) (n : Imm12) (s : State) : Res := bitOp isBitSet xd xs n s

/-- `READ_BIT` (R254). -/
def execReadBit (xd xs : RegIdx) (n : Imm12) (s : State) : Res := bitOp readBit xd xs n s

end Sys2Proof.Machine
end

