-- ==== Sys2Proof/Machine/Harness.lean ====
section
/-! DEFINITION. The harness command words (47_harness.md): constants, add, RAM byte access, branches and halt, each one
step. -/

namespace Sys2Proof.Machine

/-- `LI` (R430). -/
def execLi (xd : RegIdx) (imm : Imm16) (s : State) : Res :=
  .next (s.setReg xd (zext16 imm)).finish

/-- `LIH` (R431): bits 31:16 replaced, bits 15:0 kept. -/
def execLih (xd : RegIdx) (imm : Imm16) (s : State) : Res :=
  withReg xd s fun v => .next (s.setReg xd ((zext16 imm <<< 16) ||| (v &&& 0xFFFF))).finish

/-- `ADDI` (R432): modulo 2^32. -/
def execAddi (xd xs : RegIdx) (imm : Imm16) (s : State) : Res :=
  withReg xs s fun v => .next (s.setReg xd (v + sext16 imm)).finish

/-- `LDB` (R433): the byte, zero-extended. -/
def execLdb (xd xb : RegIdx) (imm : Imm16) (s : State) : Res :=
  withReg xb s fun base =>
    withRam (ramAddr base imm) 1 s
      (.next (s.setReg xd ((s.ramByte (ramAddr base imm)).setWidth 32)).finish)

/-- `STB` (R434). The value register RA is read before the base register RB, in R513's order and not the pseudocode's:
DEDUCED (notes/assumptions/10.md), unsafe. -/
def execStb (xs xb : RegIdx) (imm : Imm16) (s : State) : Res :=
  withReg xs s fun v =>
    withReg xb s fun base =>
      withRam (ramAddr base imm) 1 s (.next (s.setRam (ramAddr base imm) (v.setWidth 8)).finish)

/-- `BZ` (R435). -/
def execBz (xs : RegIdx) (off : Imm16) (s : State) : Res :=
  withReg xs s fun v => .next (if v = 0 then s.goto (s.branchTarget off) else s.finish)

/-- `BNZ` (R436). -/
def execBnz (xs : RegIdx) (off : Imm16) (s : State) : Res :=
  withReg xs s fun v => .next (if v = 0 then s.finish else s.goto (s.branchTarget off))

/-- `J` (R437). -/
def execJ (off : Imm16) (s : State) : Res := .next (s.goto (s.branchTarget off))

/-- `HALT` (R438): the status changes, the operation pointer does not. -/
def execHalt (s : State) : Res := .next { s.goto s.opc with status := .halted }

end Sys2Proof.Machine
end

