-- ==== Sys2Proof/Machine/Peripheral.lean ====
section
/-! DEFINITION. The register-address HAL: which offsets are registers (R141, R148, R163), the access check (R202), and what
a read and a write of each register does (R204 to R241). `RegRead` and `RegWrite` (R18) are the only way the CPU agent
reaches the peripherals; each is one event and one step (R112, R203). -/

namespace Sys2Proof.Machine

/-! ## The maps -/

/-- The register marked M at an offset of a block (R141, R148, R163). Offsets 0x40 and 0x44 of the Auxiliary block are IO
and IER whatever `mu_lcr` bit 7 (DLAB, R152) holds; no write sets it (R218), a launch draw (R62) or a draw after the Mini
UART's enable is cleared (R213) can: DESIGN CHOICE (notes/assumptions/26.md), unsafe. -/
def regAt : Block → Nat → Option PReg
  | .gpio, off =>
    match off with
    | 0x00 => some (.gpfsel 0)
    | 0x04 => some (.gpfsel 1)
    | 0x08 => some (.gpfsel 2)
    | 0x0C => some (.gpfsel 3)
    | 0x10 => some (.gpfsel 4)
    | 0x14 => some (.gpfsel 5)
    | 0x1C => some (.gpset false)
    | 0x20 => some (.gpset true)
    | 0x28 => some (.gpclr false)
    | 0x2C => some (.gpclr true)
    | 0x34 => some (.gplev false)
    | 0x38 => some (.gplev true)
    | _ => none
  | .aux, off =>
    match off with
    | 0x00 => some .auxIrq
    | 0x04 => some .auxEnables
    | 0x40 => some (.mu .io)
    | 0x44 => some (.mu .ier)
    | 0x48 => some (.mu .iir)
    | 0x4C => some (.mu .lcr)
    | 0x50 => some (.mu .mcr)
    | 0x54 => some (.mu .lsr)
    | 0x58 => some (.mu .msr)
    | 0x5C => some (.mu .scratch)
    | 0x60 => some (.mu .cntl)
    | 0x64 => some (.mu .stat)
    | 0x68 => some (.mu .baud)
    | _ => none
  | .uart0, off =>
    match off with
    | 0x00 => some (.uart .dr)
    | 0x04 => some (.uart .rsrecr)
    | 0x18 => some (.uart .fr)
    | 0x24 => some (.uart .ibrd)
    | 0x28 => some (.uart .fbrd)
    | 0x2C => some (.uart .lcrh)
    | 0x30 => some (.uart .cr)
    | 0x34 => some (.uart .ifls)
    | 0x38 => some (.uart .imsc)
    | 0x3C => some (.uart .ris)
    | 0x40 => some (.uart .mis)
    | 0x44 => some (.uart .icr)
    | 0x48 => some (.uart .dmacr)
    | _ => none

/-! ## The access check (R202) -/

/-- A write the per-register rules refuse: a read-only register (R210, R211, R221, R224, R225, R230, R240) or a value the
rules have no meaning for (R218, R223, R235, R236, R241). -/
def writeRefused (r : PReg) (v : Word) (s : State) : Bool :=
  match r with
  | .gplev _ => true
  | .auxIrq => true
  | .mu .lsr => true
  | .mu .msr => true
  | .mu .stat => true
  | .uart .fr => true
  | .uart .ris => true
  | .uart .mis => true
  | .mu .lcr => v.getLsbD 6 || v.getLsbD 7
  | .mu .cntl => v.extractLsb' 2 6 != 0
  | .uart .lcrh => v.getLsbD 0 || (s.pl.lcrh.getLsbD 4 && !v.getLsbD 4)
  | .uart .cr => v.getLsbD 1 || v.getLsbD 2 || v.getLsbD 7 || v.getLsbD 14 || v.getLsbD 15
  | .uart .dmacr => v.extractLsb' 0 3 != 0
  | _ => false

/-- The faults of a write other than a refusal: a full transmit FIFO (R214, R227), or reprogramming the PL011 while it
is enabled (R233). -/
def writeFault (r : PReg) (off : Nat) (v : Word) (s : State) : Option Cause :=
  match r with
  | .mu .io => if s.mu.txFull then some (.txOverflow .mu) else none
  | .uart .dr => if s.pl.txff then some (.txOverflow .pl011) else none
  | .uart .ibrd => if s.pl.enabled then some (.pl011Reprogram off v) else none
  | .uart .fbrd => if s.pl.enabled then some (.pl011Reprogram off v) else none
  | .uart .lcrh => if s.pl.enabled then some (.pl011Reprogram off v) else none
  | _ => none

/-- A Mini UART register while the Mini UART is disabled (R212). -/
def auxBlocked (r : PReg) (s : State) : Bool :=
  match r with
  | .mu _ => !s.aux.enMu
  | _ => false

/-- The check of a read: the register, or the fault (R202, R212, R513). -/
def checkRead (blk : Block) (off : Nat) (s : State) : Except Cause PReg :=
  match regAt blk off with
  | none => .error (.regRefused blk off none)
  | some r => if auxBlocked r s then .error (.auxDisabled off) else .ok r

/-- The check of a write: the register, or the first fault in the order of R513; between the faults of its item 7 other
than a refusal no two can meet. DEDUCED (notes/assumptions/11.md), unsafe. -/
def checkWrite (blk : Block) (off : Nat) (v : Word) (s : State) : Except Cause PReg :=
  match regAt blk off with
  | none => .error (.regRefused blk off (some v))
  | some r =>
    if writeRefused r v s then .error (.regRefused blk off (some v))
    else if auxBlocked r s then .error (.auxDisabled off)
    else
      match writeFault r off v s with
      | some c => .error c
      | none => .ok r

/-! ## Reads (R204 to R241) -/

/-- The word of GPFSELk: bit `i` is bit `i % 3` of the field of pin `10k + i/3` (R142, R204). -/
def Gpio.selWord (g : Gpio) (k : Nat) : Word :=
  BitVec.ofFnLE fun i : Fin 32 => decide (i.val < 30) && (g.fselAt (10 * k + i.val / 3)).getLsbD (i.val % 3)

/-- Which bits of GPFSELk hold a pin's field (R142). -/
def selMask (k : Nat) : Word := if k = 5 then 0x00000FFF else 0x3FFFFFFF

/-- The first pin of GPSETn, GPCLRn and GPLEVn (R144, R145). -/
def bankBase (hi : Bool) : Nat := if hi then 32 else 0

/-- GPLEVn: bit `i` is the output latch of pin `base + i` (R209). -/
def Gpio.levWord (g : Gpio) (hi : Bool) : Word :=
  BitVec.ofFnLE fun i : Fin 32 => g.out.getLsbD (bankBase hi + i.val)

/-- Which bits of GPLEVn are known: the pins that are outputs (R209). -/
def Gpio.levMask (g : Gpio) (hi : Bool) : Word :=
  BitVec.ofFnLE fun i : Fin 32 => g.isOutput (bankBase hi + i.val)

/-- The oldest byte of a receive FIFO, as a data register shows it (R220, R229). -/
def headWord : List Byte → Word
  | [] => 0
  | b :: _ => b.setWidth 32

/-- Which bits a data register defines: the byte when there is one, else none (R220, R229). -/
def headMask : List Byte → Word
  | [] => 0
  | _ :: _ => 0xFF

/-- What a Mini UART register reads as: its defined bits and which they are (R215 to R226). The reserved bits among the
stored 8 of IER, LCR and MCR read as draws (R140, D37), also beside R215, R218 and R219: DEDUCED
(notes/assumptions/23.md), safe. IO and IER read alike with `mu_lcr` bit 7 set: DESIGN CHOICE
(notes/assumptions/26.md), unsafe. -/
def Mu.value (m : Mu) : MuReg → Word × Word
  | .io => (headWord m.rxf, headMask m.rxf)
  | .ier => (m.ier.setWidth 32, ierMask)
  | .iir => (0, 0)
  | .lcr => (m.lcr.setWidth 32, lcrMask)
  | .mcr => (m.mcr.setWidth 32, mcrMask)
  | .lsr => (m.lsr, lsrMask)
  | .msr => (0, 0)
  | .scratch => (m.scratch.setWidth 32, 0xFF)
  | .cntl => (m.cntl.setWidth 32, 0xFF)
  | .stat => (m.stat, statMask)
  | .baud => (m.baud.setWidth 32, 0xFFFF)

/-- What a PL011 register reads as: its defined bits and which they are (R228 to R241). UART_CR bits 6:3, reserved by R169,
read as draws (R140, D37), also beside R237: DEDUCED (notes/assumptions/23.md), safe. -/
def Pl011.value (u : Pl011) : UartReg → Word × Word
  | .dr => (headWord u.rxf, headMask u.rxf)
  | .rsrecr => (bitIf 3 u.oe, 0x8)
  | .fr => (u.fr, frMask)
  | .ibrd => (u.ibrd.setWidth 32, 0xFFFF)
  | .fbrd => (u.fbrd.setWidth 32, 0x3F)
  | .lcrh => (u.lcrh.setWidth 32, 0xFF)
  | .cr => (u.cr.setWidth 32, crMask)
  | .ifls => (u.ifls.setWidth 32, 0x3F)
  | .imsc => (u.imsc.setWidth 32, 0x7FF)
  | .ris => (0, 0)
  | .mis => (0, 0)
  | .icr => (0, 0)
  | .dmacr => (u.dmacr.setWidth 32, 0x7)

/-- AUX_ENABLES (R213). -/
def Aux.word (a : Aux) : Word := bitIf 0 a.enMu ||| bitIf 1 a.enSpi1 ||| bitIf 2 a.enSpi2

/-- What a register reads as: its defined bits and which they are. -/
def State.regValue (s : State) : PReg → Word × Word
  | .gpfsel k => (s.gpio.selWord k.val, selMask k.val)
  | .gpset _ => (0, 0)
  | .gpclr _ => (0, 0)
  | .gplev hi => (s.gpio.levWord hi, s.gpio.levMask hi)
  | .auxIrq => (0, 0)
  | .auxEnables => (s.aux.word, 0x7)
  | .mu r => s.mu.value r
  | .uart r => s.pl.value r

/-- The side effect of a read: a data register loses its head byte (R220, R229), the LSR read clears the overrun flag
(R225), every other read has none (R114). -/
def State.readEffect (s : State) : PReg → State
  | .mu .io => { s with mu := { s.mu with rxf := s.mu.rxf.tail } }
  | .mu .lsr => { s with mu := { s.mu with ovr := false } }
  | .uart .dr => { s with pl := { s.pl with rxf := s.pl.rxf.tail } }
  | _ => s

/-- The value a read of a register returns, with its draw. -/
def State.drawnOf (s : State) (r : PReg) : Drawn :=
  { known := (s.regValue r).1, mask := (s.regValue r).2, draw := Config.freeWord s.draws }

/-- The state after a read of register `r` at `off` of `blk`: its side effect, one draw taken, its event (R203). One draw
is taken whether or not the register has undefined bits: DESIGN CHOICE (notes/assumptions/7.md), safe. -/
def State.readReg (s : State) (blk : Block) (off : Nat) (r : PReg) : State :=
  { (s.readEffect r).emit (.rd blk off (s.drawnOf r).word) with draws := s.draws + 1 }

/-! ## Writes (R204 to R241) -/

/-- The function selects with GPFSELk written (R205). -/
def Gpio.writeSel (g : Gpio) (k : Nat) (v : Word) : Gpio :=
  { g with fsel := Vector.ofFn fun p : Fin 54 =>
      if p.val / 10 = k then v.extractLsb' (3 * (p.val % 10)) 3 else g.fsel[p] }

/-- The latches a value's 1 bits act on: pins 0 to 31, or 32 to 53 (R144). -/
def bankBits (hi : Bool) (v : Word) : BitVec 54 :=
  if hi then (v.setWidth 54) <<< 32 else v.setWidth 54

/-- GPSETn: each 1 bit sets its latch (R206). -/
def Gpio.setOut (g : Gpio) (hi : Bool) (v : Word) : Gpio := { g with out := g.out ||| bankBits hi v }

/-- GPCLRn: each 1 bit clears its latch (R207). -/
def Gpio.clearOut (g : Gpio) (hi : Bool) (v : Word) : Gpio := { g with out := g.out &&& ~~~bankBits hi v }

/-- A frame that is no longer intact (R281). -/
def TxFrame.corrupt {C : Type} (f : TxFrame C) : TxFrame C := { f with intact := false }

/-- The Mini UART with the frame in its shifter, if any, no longer intact. -/
def Mu.corrupt (m : Mu) : Mu := { m with busy := m.busy.map TxFrame.corrupt }

/-- The PL011 with the frame in its shifter, if any, no longer intact. -/
def Pl011.corrupt (u : Pl011) : Pl011 := { u with busy := u.busy.map TxFrame.corrupt }

/-- A write of GPFSELk: the fields, and a change of the transmit pin's function corrupts both shifters (R205). -/
def State.writeSel (s : State) (k : Nat) (v : Word) : State :=
  let g := s.gpio.writeSel k v
  if g.fselAt txPin = s.gpio.fselAt txPin then { s with gpio := g }
  else { s with gpio := g, mu := s.mu.corrupt, pl := s.pl.corrupt }

/-- A write of AUX_ENABLES; clearing the Mini UART's enable makes its state draws (R213). -/
def State.writeEnables (s : State) (v : Word) : State :=
  let a : Aux := { enMu := v.getLsbD 0, enSpi1 := v.getLsbD 1, enSpi2 := v.getLsbD 2 }
  if s.aux.enMu && !v.getLsbD 0 then
    { s with aux := a, mu := Mu.free s.draws, draws := s.draws + Mu.freeCount }
  else { s with aux := a }

/-- A write of a Mini UART register that the check let through (R214 to R226). A control value with bit 1 clear corrupts
the frame in the shifter even when the transmitter was disabled before: DEDUCED (notes/assumptions/12.md), safe. A write
of IER, LCR or MCR ignores the value's reserved bits (R140): DEDUCED (notes/assumptions/23.md), safe. IO and IER are
written alike with `mu_lcr` bit 7 set: DESIGN CHOICE (notes/assumptions/26.md), unsafe. -/
def Mu.write (m : Mu) (r : MuReg) (v : Word) : Mu :=
  match r with
  | .io => { m with txf := m.txf ++ [v.setWidth 8] }
  | .ier => { m with ier := (v &&& ierMask).setWidth 8 }
  | .iir =>
    { m with rxf := if v.getLsbD 1 then [] else m.rxf, txf := if v.getLsbD 2 then [] else m.txf }
  | .lcr => { m.corrupt with lcr := (v &&& lcrMask).setWidth 8 }
  | .mcr => { m with mcr := (v &&& mcrMask).setWidth 8 }
  | .lsr => m
  | .msr => m
  | .scratch => { m with scratch := v.setWidth 8 }
  | .cntl =>
    if v.getLsbD 1 then { m with cntl := v.setWidth 8 } else { m.corrupt with cntl := v.setWidth 8 }
  | .stat => m
  | .baud => { m.corrupt with baud := v.setWidth 16 }

/-- A write of a PL011 register that the check let through (R227 to R241). A write of UART_CR ignores the value's reserved
bits (R140): DEDUCED (notes/assumptions/23.md), safe. -/
def Pl011.write (u : Pl011) (r : UartReg) (v : Word) : Pl011 :=
  match r with
  | .dr => { u with txf := u.txf ++ [v.setWidth 8] }
  | .rsrecr => { u with oe := false }
  | .fr => u
  | .ibrd => { u with ibrd := v.setWidth 16 }
  | .fbrd => { u with fbrd := v.setWidth 6 }
  | .lcrh =>
    { u.corrupt with lcrh := v.setWidth 8, actLcrh := v.setWidth 8, actIbrd := u.ibrd, actFbrd := u.fbrd }
  | .cr => { u with cr := (v &&& crMask).setWidth 16 }
  | .ifls => { u with ifls := v.setWidth 6 }
  | .imsc => { u with imsc := v.setWidth 11 }
  | .ris => u
  | .mis => u
  | .icr => u
  | .dmacr => { u with dmacr := 0 }

/-- The effect of a write that the check let through. -/
def State.writeEffect (s : State) (r : PReg) (v : Word) : State :=
  match r with
  | .gpfsel k => s.writeSel k.val v
  | .gpset hi => { s with gpio := s.gpio.setOut hi v }
  | .gpclr hi => { s with gpio := s.gpio.clearOut hi v }
  | .gplev _ => s
  | .auxIrq => s
  | .auxEnables => s.writeEnables v
  | .mu r => { s with mu := s.mu.write r v }
  | .uart r => { s with pl := s.pl.write r v }

/-- The state after a write of `v` to register `r` at `off` of `blk`: its effect and its event (R203). -/
def State.writeReg (s : State) (blk : Block) (off : Nat) (r : PReg) (v : Word) : State :=
  (s.writeEffect r v).emit (.wr blk off v)

/-! ## The two access primitives (R18) -/

/-- `RegRead`: the checked read, then `k` with the value and the state after it. -/
def regRead (blk : Block) (off : Nat) (s : State) (k : Drawn → State → Res) : Res :=
  match checkRead blk off s with
  | .error c => raise c s
  | .ok r => k (s.drawnOf r) (s.readReg blk off r)

/-- `RegWrite`: the checked write, then `k` with the state after it. -/
def regWrite (blk : Block) (off : Nat) (v : Word) (s : State) (k : State → Res) : Res :=
  match checkWrite blk off v s with
  | .error c => raise c s
  | .ok r => k (s.writeReg blk off r v)

end Sys2Proof.Machine
end

