-- ==== Sys2Proof/Machine/RegAccess.lean ====
section
/-! DEFINITION. The two command words of the register-address HAL (R200, R201), each one access and one step. -/

namespace Sys2Proof.Machine

/-- `REG_RD` (R200). -/
def execRegRd (xd : RegIdx) (blk : BitVec 4) (off : Imm12) (s : State) : Res :=
  withBlock (.regRd xd blk off) blk s fun b =>
    regRead b (uimm12 off) s fun d t => .next (t.setReg xd d.word).finish

/-- `REG_WR` (R201). -/
def execRegWr (xs : RegIdx) (blk : BitVec 4) (off : Imm12) (s : State) : Res :=
  withBlock (.regWr xs blk off) blk s fun b =>
    withReg xs s fun v => regWrite b (uimm12 off) v s fun t => .next t.finish

end Sys2Proof.Machine
end

