-- ==== Sys2Proof/Machine/GpioOps.lean ====
section
/-! DEFINITION. The GPIO driver (46_gpio.md): `SelectFunction` in its three shapes (R401), one register access a micro-step
(R270), and the three GPIO command words. -/

namespace Sys2Proof.Machine

/-- The byte offset of the select register that owns a pin (R143, R401). -/
def selOffset (pin : Nat) : Nat := 4 * (pin / pinsPerFsel)

/-- The low bit of a pin's field (R143). -/
def selShift (pin : Nat) : Nat := 3 * (pin % pinsPerFsel)

/-- The mask of a pin's field (R401). -/
def selFieldMask (pin : Nat) : Word := (0b111 : Word) <<< selShift pin

/-- A function code in a pin's field (R401). -/
def selCode (pin : Nat) (code : BitVec 3) : Word := code.setWidth 32 <<< selShift pin

/-- The next register access of `SelectFunction(pin, code)`, as part of instruction `i`; `k` takes the state after the
last one (R401). -/
def selectFunction (i : Instr) (pin : Nat) (code : BitVec 3) (ph : SelPhase) (s : State) (k : State → Res) : Res :=
  match ph with
  | .read =>
    regRead .gpio (selOffset pin) s fun d t =>
      let cleared := d.word &&& ~~~selFieldMask pin
      match s.cfg.fselShape with
      | .oneWrite => .next (t.pause i (.select pin (.set cleared)))
      | .clearThenSet => .next (t.pause i (.select pin (.clear cleared)))
      | .twoRmw => .next (t.pause i (.select pin (.clear cleared)))
  | .clear v =>
    regWrite .gpio (selOffset pin) v s fun t =>
      match s.cfg.fselShape with
      | .oneWrite => .next (t.pause i (.select pin (.set v)))
      | .clearThenSet => .next (t.pause i (.select pin (.set v)))
      | .twoRmw => .next (t.pause i (.select pin .reread))
  | .reread => regRead .gpio (selOffset pin) s fun d t => .next (t.pause i (.select pin (.set d.word)))
  | .set v => regWrite .gpio (selOffset pin) (v ||| selCode pin code) s k

/-- `GPIO_SET_OUTPUT` (R402). A pin past the last select register does nothing. -/
def execGpioSetOutput (pin : Imm12) (s : State) : Res :=
  let i : Instr := .gpioSetOutput pin
  let p := uimm12 pin
  if p / pinsPerFsel ≥ numFsel then .next s.finish
  else
    match s.microOf i with
    | .select _ ph => selectFunction i p fnOutput ph s fun t => .next t.finish
    | _ => selectFunction i p fnOutput .read s fun t => .next t.finish

/-- One write of a write-1-to-act bank with the bit of a pin (R404, R405): `F_SHIFT_RANGE` at 64 and above. -/
def writeBank (lo hi : Nat) (p : Nat) (s : State) : Res :=
  if p < 32 then regWrite .gpio lo ((1 : Word) <<< p) s fun t => .next t.finish
  else if p < 64 then regWrite .gpio hi ((1 : Word) <<< (p - 32)) s fun t => .next t.finish
  else raise (.shiftRange p) s

/-- `GPIO_SET_HIGH` (R404). -/
def execGpioSetHigh (pin : Imm12) (s : State) : Res := writeBank 0x1C 0x20 (uimm12 pin) s

/-- `GPIO_SET_LOW` (R405). -/
def execGpioSetLow (pin : Imm12) (s : State) : Res := writeBank 0x28 0x2C (uimm12 pin) s

end Sys2Proof.Machine
end

