-- ==== Sys2Proof/Machine/UartOps.lean ====
section
/-! DEFINITION. The UART driver (43_uart_common.md): the variant primitives, each one register access (R300 to R306, R350
to R356), and the seven operations, one register access a micro-step (R270). Between two micro-steps the operation's
variables stand in the state's context (R40). -/

namespace Sys2Proof.Machine

/-! ## Variant primitives (R272) -/

/-- `TxReady_V()` (R300, R350). -/
def txReady (s : State) (k : Bool → State → Res) : Res :=
  match s.cfg.variant with
  | .mini => regRead .aux 0x54 s fun d t => k (d.bit 5) t
  | .full => regRead .uart0 0x18 s fun d t => k (!d.bit 5) t

/-- `TxPut_V(b)` (R301, R351). -/
def txPut (b : Byte) (s : State) (k : State → Res) : Res :=
  match s.cfg.variant with
  | .mini => regWrite .aux 0x40 (b.setWidth 32) s k
  | .full => regWrite .uart0 0x00 (b.setWidth 32) s k

/-- `RxReady_V()` (R302, R352). -/
def rxReady (s : State) (k : Bool → State → Res) : Res :=
  match s.cfg.variant with
  | .mini => regRead .aux 0x54 s fun d t => k (d.bit 0) t
  | .full => regRead .uart0 0x18 s fun d t => k (!d.bit 4) t

/-- `RxGet_V()` (R303, R353): bits 7:0 of the data register. -/
def rxGet (s : State) (k : Byte → State → Res) : Res :=
  match s.cfg.variant with
  | .mini => regRead .aux 0x40 s fun d t => k d.byte t
  | .full => regRead .uart0 0x00 s fun d t => k d.byte t

/-- `TxIdle_V()` (R304, R354). -/
def txIdle (s : State) (k : Bool → State → Res) : Res :=
  match s.cfg.variant with
  | .mini => regRead .aux 0x54 s fun d t => k (d.bit 6) t
  | .full => regRead .uart0 0x18 s fun d t => k (!d.bit 3) t

/-- The writes of `EngineInit_MINI` after its read of AUX_ENABLES gave `e` (R305). -/
def initWritesMini (c : Config) (e : Word) : List (Block × Nat × Word) :=
  [(.aux, 0x04, e ||| 1), (.aux, 0x68, (muBaudDiv c).setWidth 32), (.aux, 0x4C, 0x03), (.aux, 0x44, 0x00),
   (.aux, 0x60, 0x03), (.aux, 0x48, 0x06)]

/-- The writes of `EngineInit_FULL` (R355). -/
def initWritesFull (c : Config) : List (Block × Nat × Word) :=
  [(.uart0, 0x30, 0x00), (.uart0, 0x44, 0x7FF), (.uart0, 0x24, (pl011Ibrd c).setWidth 32),
   (.uart0, 0x28, (pl011Fbrd c).setWidth 32), (.uart0, 0x2C, 0x70), (.uart0, 0x30, 0x301)]

/-! ## UART_INIT (R273) -/

/-- The end of `UART_INIT`: `drv <- READY`. -/
def State.initDone (s : State) : State := { s.finish with drv := .ready }

/-- The next of the engine's writes; the last one completes `UART_INIT`. -/
def initWrite (ws : List (Block × Nat × Word)) (s : State) : Res :=
  match ws with
  | [] => .next s.initDone
  | [(blk, off, v)] => regWrite blk off v s fun t => .next t.initDone
  | (blk, off, v) :: w :: rest =>
    regWrite blk off v s fun t => .next (t.pause .uartInit (.writes (w :: rest)))

/-- After a pin's function is selected: the other pin, then the engine (R273, R605). -/
def initAfterPin (pin : Nat) (s : State) : State :=
  if pin = txPin then s.pause .uartInit (.select rxPin .read)
  else
    match s.cfg.variant with
    | .mini => s.pause .uartInit .enables
    | .full => s.pause .uartInit (.writes (initWritesFull s.cfg))

/-- One access of a pin's `SelectFunction` inside `UART_INIT`. -/
def initSelect (pin : Nat) (ph : SelPhase) (s : State) : Res :=
  selectFunction .uartInit pin (altOf s.cfg.variant) ph s fun t => .next (initAfterPin pin t)

/-- `UART_INIT` (R273). Accepted in both driver states (R271). -/
def execUartInit (s : State) : Res :=
  match s.microOf .uartInit with
  | .select pin ph => if pin = txPin then initSelect txPin ph s else initSelect rxPin ph s
  | .enables =>
    regRead .aux 0x04 s fun d t => .next (t.pause .uartInit (.writes (initWritesMini s.cfg d.word)))
  | .writes ws => initWrite ws s
  | _ => initSelect txPin .read s

/-! ## UART_WRITE_BYTE and UART_WRITE_STRING (R274, R275) -/

/-- A repetition of `WriteByte`'s spin: the write follows once there is room. -/
def writeBytePoll (i : Instr) (b : Byte) (s : State) : Res :=
  txReady s fun room t => .next (t.pause i (if room then .txPut b else .txPoll b))

/-- `UART_WRITE_BYTE` (R274). -/
def execUartWriteByte (xs : RegIdx) (s : State) : Res :=
  let i : Instr := .uartWriteByte xs
  match s.microOf i with
  | .txPoll b => writeBytePoll i b s
  | .txPut b => txPut b s fun t => .next t.finish
  | _ => withReg xs s fun v => withReady 0x21 s (writeBytePoll i (v.setWidth 8) s)

/-- A repetition of the spin before byte `k` of a string. -/
def stringPoll (i : Instr) (a n k : Nat) (b : Byte) (s : State) : Res :=
  txReady s fun room t => .next (t.pause i (if room then .strPut a n k b else .strPoll a n k b))

/-- Byte `k` of a string, taken from RAM in the step of its first status read (R270). -/
def stringByte (i : Instr) (a n k : Nat) (s : State) : Res := stringPoll i a n k (s.ramByte (a + k)) s

/-- After byte `k` of a string is written: the next byte, or the end. -/
def stringAfter (i : Instr) (a n k : Nat) (s : State) : State :=
  if k + 1 < n then s.pause i (.strByte a n (k + 1)) else s.finish

/-- `UART_WRITE_STRING` (R275). A string of length 0 makes no access. -/
def execUartWriteString (xa xn : RegIdx) (s : State) : Res :=
  let i : Instr := .uartWriteString xa xn
  match s.microOf i with
  | .strByte a n k => stringByte i a n k s
  | .strPoll a n k b => stringPoll i a n k b s
  | .strPut a n k b => txPut b s fun t => .next (stringAfter i a n k t)
  | _ =>
    withReg xa s fun a =>
      withReg xn s fun n =>
        withReady 0x22 s
          (withRam a.toNat n.toNat s
            (if n.toNat = 0 then .next s.finish else stringByte i a.toNat n.toNat 0 s))

/-! ## UART_READ_BYTE, UART_FLUSH, UART_IS_DATA_READY (R276, R277, R284) -/

/-- `UART_READ_BYTE` (R276): the value register is written before the tag register. -/
def execUartReadByte (xv xt : RegIdx) (s : State) : Res :=
  let i : Instr := .uartReadByte xv xt
  match s.microOf i with
  | .rxGet => rxGet s fun c t => .next ((t.setReg xv (c.setWidth 32)).setReg xt 1).finish
  | _ =>
    withReady 0x23 s
      (rxReady s fun ready t =>
        .next (if ready then t.pause i .rxGet else ((t.setReg xv 0).setReg xt 0).finish))

/-- A repetition of `UART_FLUSH`'s spin. -/
def flushPoll (s : State) : Res :=
  txIdle s fun idle t => .next (if idle then t.finish else t.pause .uartFlush .idlePoll)

/-- `UART_FLUSH` (R277). -/
def execUartFlush (s : State) : Res :=
  match s.microOf .uartFlush with
  | .idlePoll => flushPoll s
  | _ => withReady 0x24 s (flushPoll s)

/-- `UART_IS_DATA_READY` (R284). -/
def execUartIsDataReady (xd : RegIdx) (s : State) : Res :=
  withReady 0x26 s (rxReady s fun ready t => .next (t.setReg xd (if ready then 1 else 0)).finish)

/-! ## UART_READ_LINE (R278) -/

/-- CR or LF: the end of a line. -/
def isLineEnd (c : Byte) : Bool := c == 0x0D || c == 0x0A

/-- Backspace or DEL. -/
def isErase (c : Byte) : Bool := c == 0x08 || c == 0x7F

/-- The echo of an erased character: backspace, space, backspace. -/
def eraseEcho : List Byte := [0x08, 0x20, 0x08]

/-- The line is complete: the terminator goes after its `pos` bytes and `pos` is the result. -/
def lineDone (xd : RegIdx) (a pos : Nat) (s : State) : State :=
  ((s.setRam (a + pos) 0).setReg xd (BitVec.ofNat 32 pos)).finish

/-- The top of the loop: a full buffer completes the line, otherwise the next byte is awaited. -/
def lineTop (i : Instr) (xd : RegIdx) (a cap pos : Nat) (s : State) : State :=
  if pos + 1 = cap then lineDone xd a pos s else s.pause i (.line a cap pos .rxPoll)

/-- A repetition of the spin on received data. -/
def lineRxPoll (i : Instr) (a cap pos : Nat) (s : State) : Res :=
  rxReady s fun ready t => .next (t.pause i (.line a cap pos (if ready then .rxGet else .rxPoll)))

/-- What the line does with a received byte. -/
def lineTake (i : Instr) (xd : RegIdx) (a cap pos : Nat) (c : Byte) (s : State) : State :=
  if isLineEnd c then lineDone xd a pos s
  else if isErase c then
    if pos = 0 then lineTop i xd a cap pos s else s.pause i (.line a cap (pos - 1) (.echo eraseEcho))
  else s.pause i (.line a cap pos (.store c))

/-- A repetition of the spin before the echo bytes `q`, the cursor already at `pos`. -/
def lineEcho (i : Instr) (a cap pos : Nat) (q : List Byte) (s : State) : Res :=
  txReady s fun room t => .next (t.pause i (.line a cap pos (if room then .put q else .echo q)))

/-- The first echo byte is written; after the last one the loop starts again. -/
def linePut (i : Instr) (xd : RegIdx) (a cap pos : Nat) (q : List Byte) (s : State) : Res :=
  match q with
  | [] => .next (lineTop i xd a cap pos s)
  | [b] => txPut b s fun t => .next (lineTop i xd a cap pos t)
  | b :: c :: rest => txPut b s fun t => .next (t.pause i (.line a cap pos (.echo (c :: rest))))

/-- The next micro-step of a line in progress. A stored byte goes to RAM in the step of its echo's first status read
(R270). -/
def lineStep (i : Instr) (xd : RegIdx) (a cap pos : Nat) (ph : LinePhase) (s : State) : Res :=
  match ph with
  | .rxPoll => lineRxPoll i a cap pos s
  | .rxGet => rxGet s fun c t => .next (lineTake i xd a cap pos c t)
  | .store c => lineEcho i a cap (pos + 1) [c] (s.setRam (a + pos) c)
  | .echo q => lineEcho i a cap pos q s
  | .put q => linePut i xd a cap pos q s

/-- `UART_READ_LINE` (R278). A capacity of 1 makes no access. -/
def execUartReadLine (xd xa xc : RegIdx) (s : State) : Res :=
  let i : Instr := .uartReadLine xd xa xc
  match s.microOf i with
  | .line a cap pos ph => lineStep i xd a cap pos ph s
  | _ =>
    withReg xa s fun a =>
      withReg xc s fun cap =>
        withReady 0x25 s
          (if cap = 0 then raise (.bufCapacity 0) s
           else
            withRam a.toNat cap.toNat s
              (if cap.toNat = 1 then .next (lineDone xd a.toNat 0 s)
               else lineRxPoll i a.toNat cap.toNat 0 s))

end Sys2Proof.Machine
end

