-- ==== Sys2Proof/Machine/Dispatch.lean ====
section
/-! DEFINITION. One arm for each command word: the CPU agent's next step of that instruction. -/

namespace Sys2Proof.Machine

def exec (i : Instr) (s : State) : Host.Outcome State Fault Refusal :=
  match i with
  -- Register access (41_register_access.md)
  | .regRd xd blk off => Sys2Proof.Machine.execRegRd xd blk off s
  | .regWr xs blk off => Sys2Proof.Machine.execRegWr xs blk off s
  -- Bit utilities (42_bit_utilities.md)
  | .setBit xd xs n => Sys2Proof.Machine.execSetBit xd xs n s
  | .clearBit xd xs n => Sys2Proof.Machine.execClearBit xd xs n s
  | .toggleBit xd xs n => Sys2Proof.Machine.execToggleBit xd xs n s
  | .isBitSet xd xs n => Sys2Proof.Machine.execIsBitSet xd xs n s
  | .readBit xd xs n => Sys2Proof.Machine.execReadBit xd xs n s
  -- UART operations (43_uart_common.md)
  | .uartInit => Sys2Proof.Machine.execUartInit s
  | .uartWriteByte xs => Sys2Proof.Machine.execUartWriteByte xs s
  | .uartWriteString xa xn => Sys2Proof.Machine.execUartWriteString xa xn s
  | .uartReadByte xv xt => Sys2Proof.Machine.execUartReadByte xv xt s
  | .uartFlush => Sys2Proof.Machine.execUartFlush s
  | .uartReadLine xd xa xc => Sys2Proof.Machine.execUartReadLine xd xa xc s
  | .uartIsDataReady xd => Sys2Proof.Machine.execUartIsDataReady xd s
  -- GPIO operations (46_gpio.md)
  | .gpioSetOutput pin => Sys2Proof.Machine.execGpioSetOutput pin s
  | .gpioSetHigh pin => Sys2Proof.Machine.execGpioSetHigh pin s
  | .gpioSetLow pin => Sys2Proof.Machine.execGpioSetLow pin s
  -- Harness (47_harness.md)
  | .li xd imm => Sys2Proof.Machine.execLi xd imm s
  | .lih xd imm => Sys2Proof.Machine.execLih xd imm s
  | .addi xd xs imm => Sys2Proof.Machine.execAddi xd xs imm s
  | .ldb xd xb imm => Sys2Proof.Machine.execLdb xd xb imm s
  | .stb xs xb imm => Sys2Proof.Machine.execStb xs xb imm s
  | .bz xs off => Sys2Proof.Machine.execBz xs off s
  | .bnz xs off => Sys2Proof.Machine.execBnz xs off s
  | .j off => Sys2Proof.Machine.execJ off s
  | .halt => Sys2Proof.Machine.execHalt s

end Sys2Proof.Machine
end

