-- ==== Sys2Proof/Machine/Engine.lean ====
section
/-! DEFINITION. The agents other than the CPU: the two transmit engines (R309 to R311, R359 to R361) and the host's send
step (R280); and which agent takes the next step (R31). -/

namespace Sys2Proof.Machine

/-! ## Mini UART engine -/

/-- TX_START(MU) is enabled (R310). -/
def State.muCanStart (s : State) : Bool := s.muTxEnabled && s.mu.busy.isNone && !s.mu.txf.isEmpty

/-- TX_DONE(MU) is enabled (R311). -/
def State.muCanFinish (s : State) : Bool := s.aux.enMu && s.mu.busy.isSome

/-- TX_START(MU) (R310). -/
def State.muStart (s : State) : State :=
  match s.mu.txf with
  | [] => s
  | b :: rest =>
    let f : TxFrame MuCfg := { byte := b, cfg := s.mu.lineCfg, intact := s.txRouted .mu }
    { s with mu := { s.mu with txf := rest, busy := some f } }.emit (.txs .mu b)

/-- TX_DONE(MU) (R311). -/
def State.muFinish (s : State) : State :=
  match s.mu.busy with
  | none => s
  | some f =>
    { s with mu := { s.mu with busy := none }, lineOut := s.lineOut ++ [LineEntry.mu f (s.txRouted .mu)] }.emit (.txd .mu f.byte)

/-- The Mini UART engine's step: its two steps are never both enabled. -/
def State.muStep (s : State) : State := if s.muCanStart then s.muStart else if s.muCanFinish then s.muFinish else s

/-! ## PL011 engine -/

/-- TX_START(PL011) is enabled (R360). -/
def State.plCanStart (s : State) : Bool := s.pl.txEnabled && s.pl.busy.isNone && !s.pl.txf.isEmpty

/-- TX_DONE(PL011) is enabled (R361). -/
def State.plCanFinish (s : State) : Bool := s.pl.busy.isSome

/-- TX_START(PL011) (R360). -/
def State.plStart (s : State) : State :=
  match s.pl.txf with
  | [] => s
  | b :: rest =>
    let f : TxFrame PlCfg := { byte := b, cfg := s.pl.lineCfg, intact := s.txRouted .pl011 }
    { s with pl := { s.pl with txf := rest, busy := some f } }.emit (.txs .pl011 b)

/-- TX_DONE(PL011) (R361). -/
def State.plFinish (s : State) : State :=
  match s.pl.busy with
  | none => s
  | some f =>
    { s with pl := { s.pl with busy := none }, lineOut := s.lineOut ++ [LineEntry.pl011 f (s.txRouted .pl011)] }.emit
      (.txd .pl011 f.byte)

/-- The PL011 engine's step. -/
def State.plStep (s : State) : State := if s.plCanStart then s.plStart else if s.plCanFinish then s.plFinish else s

/-! ## Host -/

/-- The byte the host sends next, if any (R58). -/
def LineIn.head (l : LineIn) : Option Byte :=
  match l.listed with
  | c :: _ => some c
  | [] => if l.endless then some (Config.freeLineIn l.sent) else none

/-- `LINE_IN` without its head (R280). -/
def LineIn.drop (l : LineIn) : LineIn :=
  match l.listed with
  | _ :: rest => { l with listed := rest }
  | [] => { l with sent := l.sent + 1 }

/-- The UART the receive pin is routed to (R279). -/
def State.rxUart (s : State) : Option Uart :=
  if s.rxRouted .mu then some .mu else if s.rxRouted .pl011 then some .pl011 else none

/-- The byte that enters a receive FIFO: the sent one under a well-formed configuration, else a draw (R280 d). -/
def State.received (s : State) (ok : Bool) (c : Byte) : Byte := if ok then c else Config.freeByte s.draws

/-- Byte `c` arrives at the Mini UART (R280 b to d). -/
def State.muReceive (s : State) (c : Byte) : State :=
  if !s.muRxEnabled then s.emit (.rxl (some .mu) c .disabled)
  else if s.mu.rxFull then { s with mu := { s.mu with ovr := true } }.emit (.rxl (some .mu) c .overrun)
  else
    let b := s.received (s.mu.lineCfg.ok s.cfg) c
    { s with mu := { s.mu with rxf := s.mu.rxf ++ [b] }, draws := s.draws + 1 }.emit (.rxp .mu b)

/-- Byte `c` arrives at the PL011 (R280 b to d). -/
def State.plReceive (s : State) (c : Byte) : State :=
  if !s.pl.rxEnabled then s.emit (.rxl (some .pl011) c .disabled)
  else if s.pl.rxff then { s with pl := { s.pl with oe := true } }.emit (.rxl (some .pl011) c .overrun)
  else
    let b := s.received (s.pl.lineCfg.ok s.cfg) c
    { s with pl := { s.pl with rxf := s.pl.rxf ++ [b] }, draws := s.draws + 1 }.emit (.rxp .pl011 b)

/-- The host's send step (R280). -/
def State.hostStep (s : State) : State :=
  match s.lineIn.head with
  | none => s
  | some c =>
    let t := { s with lineIn := s.lineIn.drop }
    match s.rxUart with
    | none => t.emit (.rxl none c .unrouted)
    | some .mu => t.muReceive c
    | some .pl011 => t.plReceive c

/-! ## What the host receives (R282) -/

/-- The byte of a line entry. -/
def LineEntry.byte : LineEntry → Byte
  | .mu f _ => f.byte
  | .pl011 f _ => f.byte

/-- The host receives exactly the entry's byte: it is intact, routed and well-formed (R282). -/
def LineEntry.exact (c : Config) : LineEntry → Bool
  | .mu f routed => f.intact && routed && f.cfg.ok c
  | .pl011 f routed => f.intact && routed && f.cfg.ok c

/-- The byte sequences the host can have received from a `LINE_OUT`: an exact entry gives its byte, any other entry any
bytes, none included (R282). A relation, so that no byte sequence is chosen: DESIGN CHOICE (notes/assumptions/21.md),
safe. -/
def hostReceives (c : Config) : List LineEntry → List Byte → Prop
  | [], bs => bs = []
  | e :: es, bs =>
    if e.exact c then ∃ rest, bs = e.byte :: rest ∧ hostReceives c es rest
    else ∃ junk rest, bs = junk ++ rest ∧ hostReceives c es rest

/-! ## Whose turn it is (R31) -/

/-- An agent has an enabled step. The CPU agent's is enabled exactly while running (R500, R501, R438). -/
def State.enabled (s : State) : Agent → Bool
  | .cpu => s.status == .running
  | .mu => s.muCanStart || s.muCanFinish
  | .pl011 => s.plCanStart || s.plCanFinish
  | .host => s.lineIn.head.isSome

/-- The agent chosen for the next step: the schedule's first, or a free choice past its end. -/
def State.chosen (s : State) : Agent :=
  match s.sched with
  | a :: _ => a
  | [] => Config.freeAgent s.draws

/-- The agents whose enabled step is not put off for ever (R283): the engines only when clocked. -/
def State.dutiful (s : State) : List Agent := if s.cfg.clocked then [.cpu, .mu, .pl011, .host] else [.cpu, .host]

/-- The agent that takes the next step: the chosen one if it has an enabled step, else the first dutiful one that has;
none when no dutiful agent has. So an engine that is not clocked steps only when chosen (R283). DESIGN CHOICE
(notes/assumptions/6.md), safe. -/
def State.turn (s : State) : Option Agent :=
  if s.enabled s.chosen then some s.chosen else s.dutiful.find? fun a => s.enabled a

/-- With no agent's turn the machine may still go on: an engine has an enabled step, which need never happen as it is not
clocked (R283). -/
def State.idles (s : State) : Bool := s.enabled .mu || s.enabled .pl011

/-- The state with the choice made: the schedule's first entry used up, or one free choice taken. -/
def State.afterTurn (s : State) : State :=
  match s.sched with
  | _ :: rest => { s with sched := rest }
  | [] => { s with draws := s.draws + 1 }

/-- The program with the word `w` at index `k`, padded with zero words (which are illegal, R178) up to it. -/
def placeWord : List Word → Nat → Word → List Word
  | [], 0, w => [w]
  | [], k + 1, w => 0 :: placeWord [] k w
  | _ :: rest, 0, w => w :: rest
  | v :: rest, k + 1, w => v :: placeWord rest k w

end Sys2Proof.Machine
end

