-- ==== Sys2Proof/Machine/Step.lean ====
section
/-! DEFINITION. One step of the machine: one agent takes its next step (R31), the CPU agent's being the next micro-step of
the operation in progress or the first one of the word at the operation pointer (R429). -/

namespace Sys2Proof.Machine

/-- The first micro-step of the word at the operation pointer (R429): fetch, decode, execute. -/
def fetchStep (s : State) : Host.Outcome State Fault Refusal :=
  match s.fetch with
  | none => raise (.pcRange s.opc) s
  | some w =>
    match decode w with
    | .error _ => raise (.illegal w) s
    | .ok i => exec i s

/-- The CPU agent's next step. -/
def cpuStep (s : State) : Host.Outcome State Fault Refusal :=
  match s.op with
  | some o => exec o.instr s
  | none => fetchStep s

/-- One step of the machine. With no agent's turn it idles, changing the schedule or the draw counter only, while an engine
that is not clocked has an enabled step (R283), and the run has ended when no agent has one (R641): DESIGN CHOICE
(notes/assumptions/20.md), safe. -/
def step (s : State) : Host.Outcome State Fault Refusal :=
  match s.turn with
  | none => if s.idles then .next s.afterTurn else .fault .runEnded
  | some .cpu => cpuStep s.afterTurn
  | some .mu => .next s.afterTurn.muStep
  | some .pl011 => .next s.afterTurn.plStep
  | some .host => .next s.afterTurn.hostStep

/-- The state with the word `w` (bits above `nbits` zero) stored where the next step fetches, and that step the CPU
agent's: running, no operation in progress, the operation pointer inside the program, the CPU first in the schedule. The
program is loaded from outside the machine (R35); this stands for that load: DESIGN CHOICE (notes/assumptions/1.md). -/
def State.withFetchWord (s : State) (nbits w : Nat) : State :=
  { s with
    prog := placeWord s.prog s.opc.toNat (BitVec.ofNat 32 (w % 2 ^ nbits))
    opc := s.opc.toNat
    status := .running
    op := none
    sched := .cpu :: s.sched }

end Sys2Proof.Machine
end

