-- ==== Sys2Proof/Safety.lean ====
section
/-! DEFINITION. The terms claims are stated in: repeated micro-steps of one instruction, what a step leaves alone, launch
states and the named launch premises (R61, R62, R603), soundness of a state, runs and fairness (R283, R641). -/

namespace Sys2Proof.Machine

/-! ## Repeated micro-steps -/

/-- `n` micro-steps of instruction `i` in a row, no other agent stepping between them (R270). -/
def execTimes : Nat → Instr → State → Host.Outcome State Fault Refusal
  | 0, _, s => .next s
  | n + 1, i, s =>
    match exec i s with
    | .next t => execTimes n i t
    | .fault r => .fault r
    | .refused r => .refused r

/-! ## The selected UART's FIFOs -/

/-- The bytes waiting in the selected UART's transmit FIFO. -/
def State.txFifo (s : State) : List Byte :=
  match s.cfg.variant with
  | .mini => s.mu.txf
  | .full => s.pl.txf

/-- The bytes received in the selected UART's receive FIFO. -/
def State.rxFifo (s : State) : List Byte :=
  match s.cfg.variant with
  | .mini => s.mu.rxf
  | .full => s.pl.rxf

/-- The depth of the selected UART's FIFOs. -/
def State.txDepth (s : State) : Nat :=
  match s.cfg.variant with
  | .mini => muDepth
  | .full => s.pl.depth

/-- The selected UART's registers can be accessed: the Mini UART only while it is enabled (R212). -/
def State.uartReachable (s : State) : Bool :=
  match s.cfg.variant with
  | .mini => s.aux.enMu
  | .full => true

/-- The selected UART's transmit path is idle: nothing queued, nothing in the shifter (R277). -/
def State.txPathIdle (s : State) : Bool :=
  match s.cfg.variant with
  | .mini => s.mu.txf.isEmpty && s.mu.busy.isNone
  | .full => s.pl.txf.isEmpty && s.pl.busy.isNone

/-! ## What is left alone -/

/-- The peripheral blocks and the serial line are the same. -/
abbrev SamePeripherals (s t : State) : Prop :=
  t.gpio = s.gpio ∧ t.aux = s.aux ∧ t.mu = s.mu ∧ t.pl = s.pl ∧ t.lineOut = s.lineOut ∧ t.lineIn = s.lineIn

/-- Every byte of RAM reads the same. -/
def SameRam (s t : State) : Prop := ∀ a, t.ramByte a = s.ramByte a

/-- Every byte of RAM outside the `n` bytes from `base` reads the same. -/
def SameRamOutside (base n : Nat) (s t : State) : Prop :=
  ∀ a, a < base ∨ base + n ≤ a → t.ramByte a = s.ramByte a

/-- Every harness register outside `dests` is the same. -/
def SameRegsBut (dests : List RegIdx) (s t : State) : Prop := ∀ r, r ∉ dests → t.reg r = s.reg r

/-- The program and the parameters are the same (R35, R60). -/
abbrev SameProgram (s t : State) : Prop := t.prog = s.prog ∧ t.cfg = s.cfg

/-! ## Launch -/

/-- Both shifters are idle or hold a frame that is not intact (R62). -/
def State.launchShifters (s : State) : Prop :=
  (∀ f, s.mu.busy = some f → f.intact = false) ∧ (∀ f, s.pl.busy = some f → f.intact = false)

/-- The FIFOs are within their depths (R46, R52). -/
def State.fifosBounded (s : State) : Prop :=
  s.mu.txf.length ≤ muDepth ∧ s.mu.rxf.length ≤ muDepth ∧
    s.pl.txf.length ≤ s.pl.depth ∧ s.pl.rxf.length ≤ s.pl.depth

/-- The RAM is in canonical form and lists no address outside it (R36, R102). -/
def State.ramSound (s : State) : Prop :=
  Memory.wf s.ram = true ∧ ∀ e ∈ s.ram, e.1 < s.cfg.ramSize

/-- A launch state (R61, R62, R601): the harness and CPU-agent values the spec states; any parameters, program, RAM image
and host input; any peripheral values within the bounds of R62. -/
def State.isLaunch (s : State) : Prop :=
  (∀ r, s.reg r = none) ∧ s.opc = 0 ∧ s.status = .running ∧ s.ev = [] ∧ s.drv = .uninit ∧ s.op = none ∧
    s.lineOut = [] ∧ s.ramSound ∧ s.fifosBounded ∧ s.launchShifters

/-- `L_NO_FAULT` (R603). -/
def State.noFault (s : State) : Prop := ∀ c o, s.status ≠ .faulted c o

/-- `L_MU_CLEAN` (R603). -/
def State.muClean (s : State) : Prop := s.mu.txf = [] ∧ s.mu.busy = none ∧ s.mu.rxf = []

/-- `L_PL011_CLEAN` (R603). -/
def State.plClean (s : State) : Prop :=
  s.pl.txf = [] ∧ s.pl.busy = none ∧ s.pl.rxf = [] ∧ s.pl.lcrh.getLsbD 4 = true

/-- `L_OTHER_QUIET` (R603): the UART of the variant not selected has its transmitter disabled and its shifter idle. -/
def State.otherQuiet (s : State) : Prop :=
  match s.cfg.variant with
  | .mini => s.pl.txEnabled = false ∧ s.pl.busy = none
  | .full => s.muTxEnabled = false ∧ s.mu.busy = none

/-! ## Soundness of a state -/

/-- The selected UART can take one more byte, and its data register can be written (R274). -/
def State.txHasRoom (s : State) : Prop :=
  match s.cfg.variant with
  | .mini => s.aux.enMu = true ∧ s.mu.txf.length < muDepth
  | .full => s.pl.txf.length < s.pl.depth

/-- The selected UART holds a received byte, and its data register can be read (R276). -/
def State.rxHasByte (s : State) : Prop :=
  match s.cfg.variant with
  | .mini => s.aux.enMu = true ∧ s.mu.rxf ≠ []
  | .full => s.pl.rxf ≠ []

/-- What `UART_READ_LINE` relies on between two micro-steps: the cursor leaves room for the terminator, a byte about to be
stored leaves room for one more, and what the last status read showed still holds (R278). -/
def State.lineSound (s : State) (cap pos : Nat) : LinePhase → Prop
  | .rxPoll => pos + 2 ≤ cap
  | .rxGet => pos + 2 ≤ cap ∧ s.rxHasByte
  | .store _ => pos + 2 ≤ cap
  | .echo _ => pos + 1 ≤ cap
  | .put _ => pos + 1 ≤ cap ∧ s.txHasRoom

/-- The block of the selected UART (R305, R355). -/
def State.uartBlock (s : State) : Block :=
  match s.cfg.variant with
  | .mini => .aux
  | .full => .uart0

/-- What an operation in progress relies on between two micro-steps: room seen is still there, a byte seen is still
there, its RAM range is inside the RAM, and an initialisation reads the enables for the Mini UART only and writes only the
selected UART's block, no data register of it (R274, R276, R275, R278, R305, R355). -/
def State.microSound (s : State) : Micro → Prop
  | .start => True
  | .select _ _ => True
  | .enables => s.cfg.variant = .mini
  | .writes ws => ∀ w ∈ ws, w.1 = s.uartBlock ∧ regAt w.1 w.2.1 ≠ some (.mu .io) ∧ regAt w.1 w.2.1 ≠ some (.uart .dr)
  | .txPoll _ => True
  | .txPut _ => s.txHasRoom
  | .strByte a n k => k < n ∧ a + n ≤ s.cfg.ramSize
  | .strPoll a n k _ => k < n ∧ a + n ≤ s.cfg.ramSize
  | .strPut a n k _ => k < n ∧ a + n ≤ s.cfg.ramSize ∧ s.txHasRoom
  | .rxGet => s.rxHasByte
  | .idlePoll => True
  | .line a cap pos ph => a + cap ≤ s.cfg.ramSize ∧ s.lineSound cap pos ph

/-- A sound state: the RAM canonical and inside its size, the FIFOs within their depths, and the operation in progress,
if any, able to rely on what it has seen. -/
def State.sound (s : State) : Prop :=
  s.ramSound ∧ s.fifosBounded ∧ ∀ o, s.op = some o → s.microSound o.micro

/-- What happened up to `s` is still on record in `t`: the histories only grow (R38, R57), the program and the parameters
are fixed (R35, R60), a driver once ready stays so (R39), and a stopped CPU agent stays stopped (R37). -/
def State.recordKept (s t : State) : Prop :=
  (∃ es, t.ev = s.ev ++ es) ∧ (∃ ls, t.lineOut = s.lineOut ++ ls) ∧ SameProgram s t ∧
    (s.drv = .ready → t.drv = .ready) ∧ (s.status ≠ .running → t.status = s.status)

/-! ## Runs (R283, R641) -/

/-- A run: each state is the step of the one before; where no agent has an enabled step the run has ended and its last
state stands from there on. -/
def IsRun (run : Nat → State) : Prop :=
  ∀ n, step (run n) = .next (run (n + 1)) ∨ (step (run n) = .fault .runEnded ∧ run (n + 1) = run n)

/-- Weak fairness of an agent: if its step stays enabled it is eventually taken (R283). -/
def WeaklyFair (a : Agent) (run : Nat → State) : Prop :=
  ∀ n, (∀ m, n ≤ m → (run m).enabled a = true) → ∃ m, n ≤ m ∧ (run m).turn = some a

/-- Fairness (R283): the CPU agent while running, the engines when clocked, the host while it has a byte to send. -/
def IsFair (run : Nat → State) : Prop :=
  WeaklyFair .cpu run ∧ ((run 0).cfg.clocked = true → WeaklyFair .mu run ∧ WeaklyFair .pl011 run) ∧
    WeaklyFair .host run

/-- `H_READY` (R280): the host sends no byte before `UART_INIT` completes. -/
def HostWaitsForInit (run : Nat → State) : Prop :=
  ∀ n, (run n).turn = some .host → (run n).drv = .ready

/-- The receive FIFO of the UART the receive pin is routed to has room, that UART's receiver enabled or not; no FIFO has
when none is routed. R280 says only "the receiving FIFO has room": DESIGN CHOICE (notes/assumptions/25.md), unsafe. -/
def State.rxHasRoom (s : State) : Prop :=
  match s.rxUart with
  | some .mu => s.mu.rxf.length < muDepth
  | some .pl011 => s.pl.rxf.length < s.pl.depth
  | none => False

/-- `H_PACED` (R280, R603): the host sends a byte only when the receiving FIFO has room. What that means when no receiver
takes the byte is the model's choice (notes/assumptions/25.md). -/
def HostIsPaced (run : Nat → State) : Prop := ∀ n, (run n).turn = some .host → (run n).rxHasRoom

/-- The end of a run (R641): the CPU agent has stopped and both engines have no enabled step. -/
def State.ended (s : State) : Prop :=
  s.status ≠ .running ∧ s.enabled .mu = false ∧ s.enabled .pl011 = false

/-- What is observed at the end of a run (R641). -/
structure Observation where
  ram : List Host.Cell
  x : Vector (Option Word) 16
  ev : List Event
  lineOut : List LineEntry
  gpio : Gpio
  aux : Aux
  mu : Mu
  pl : Pl011
  deriving DecidableEq, Repr

/-- The observation of a state. -/
def State.observe (s : State) : Observation :=
  { ram := s.ram, x := s.x, ev := s.ev, lineOut := s.lineOut, gpio := s.gpio, aux := s.aux, mu := s.mu, pl := s.pl }

/-- A run ends with observation `o`: that of its first state in which the CPU agent has stopped and both engines have no
enabled step (R641). -/
def EndsWith (run : Nat → State) (o : Observation) : Prop :=
  ∃ n, (run n).ended ∧ (∀ m, m < n → ¬(run m).ended) ∧ (run n).observe = o

end Sys2Proof.Machine
end

