-- ==== Sys2Proof/Certificates/Slice0/Obligations.lean ====
section
/-! DEFINITION. The statements for the provers, grouped as the spec is: encodings, the step, the harness, the bit
utilities, register access, GPIO, the UART driver, the engines and the host. -/

open Sys2Proof Sys2Proof.Machine

/-! ## Encodings (30_encoding.md Part B) -/

/-- Decoding and encoding agree: decoding the command word of a well-formed instruction gives the instruction back, every
operand at every value; and a word that decodes is the word its instruction encodes to, which is well-formed. -/
def Obligations.DecodeAndEncodeAgree : Prop :=
  (∀ i : Instr, WellFormed i → decode (encode i) = .ok i) ∧
  (∀ (w : Word) (i : Instr), decode w = .ok i → encode i = w ∧ WellFormed i)

/-- R178. A word decodes to the row it fits; at most one row fits; a word that fits none, and a register access with a
block number of 3 or more, raises `F_ILLEGAL`. -/
def Obligations.DecodeFollowsTable : Prop :=
  ∀ w : Word,
    (∀ i, decode w = .ok i → ∃ r ∈ opcodeTable, r.mnemonic = i.mnemonic ∧ r.fits w = true) ∧
    (∀ r₁ ∈ opcodeTable, ∀ r₂ ∈ opcodeTable, r₁.fits w = true → r₂.fits w = true → r₁ = r₂) ∧
    (∀ r ∈ opcodeTable, r.fits w = true →
      ((r.mnemonic = "REG_RD" ∨ r.mnemonic = "REG_WR") → (rcField w).toNat < 3) →
        ∃ i, decode w = .ok i ∧ i.mnemonic = r.mnemonic) ∧
    (∀ s : State, s.fetch = some w →
      ((∀ r ∈ opcodeTable, r.fits w = false) ∨
        (∃ r ∈ opcodeTable, r.fits w = true ∧ (r.mnemonic = "REG_RD" ∨ r.mnemonic = "REG_WR") ∧
          3 ≤ (rcField w).toNat)) →
        fetchStep s = .next (s.raise (.illegal w)))

/-- Words written out from R177's encodings, one at least for each family, decode to the instructions they stand for. -/
def Obligations.SampleWordsDecode : Prop :=
  decode 0x01301054 = .ok (.regRd 3 1 0x54) ∧ decode 0x0210104C = .ok (.regWr 1 1 0x4C) ∧
    decode 0x10110003 = .ok (.setBit 1 1 3) ∧ decode 0x14430015 = .ok (.readBit 4 3 21) ∧
    decode 0x20000000 = .ok .uartInit ∧ decode 0x22012000 = .ok (.uartWriteString 1 2) ∧
    decode 0x25312000 = .ok (.uartReadLine 3 1 2) ∧ decode 0x30000015 = .ok (.gpioSetOutput 21) ∧
    decode 0x4222FFFF = .ok (.addi 2 2 (-1)) ∧ decode 0x45130002 = .ok (.stb 1 3 2) ∧
    decode 0x4910FFFC = .ok (.bnz 1 (-4)) ∧ decode 0x4F000000 = .ok .halt

/-! ## The step (10_state.md, 47_harness.md R429, 60_exceptions.md) -/

/-- The CPU agent's step runs the decoded instruction: with no operation in progress, the well-formed instruction the word
at the operation pointer decodes to; with one in progress, that one. The step first uses up one entry of the schedule, or
draws one free choice past its end, and changes nothing else around the instruction (the schedule is the model's own,
notes/assumptions/6.md). -/
def Obligations.StepRunsDecodedInstruction : Prop :=
  ∀ s : State, s.turn = some .cpu →
    (∀ w i, s.op = none → s.fetch = some w → decode w = .ok i → WellFormed i → step s = exec i s.afterTurn) ∧
    (∀ o, s.op = some o → step s = exec o.instr s.afterTurn) ∧
    s.afterTurn = { s with
      sched := s.sched.tail, draws := if s.sched = [] then s.draws + 1 else s.draws }

/-- R506, R502. When no operation is in progress, fetching at an index below 0 or at or above the program's length raises
`F_PC_RANGE`, and fetching a word with no meaning raises `F_ILLEGAL` with the word, before any operand is read: the state
but for the fault record is as it was. -/
def Obligations.BadFetchFaults : Prop :=
  ∀ s : State, s.turn = some .cpu → s.op = none →
    ((s.opc < 0 ∨ (s.prog.length : Int) ≤ s.opc) → step s = .next (s.afterTurn.raise (.pcRange s.opc))) ∧
    (∀ (k : Nat) (w : Word) (e : Reject), s.opc = k → s.prog[k]? = some w → decode w = .error e →
      step s = .next (s.afterTurn.raise (.illegal w)))

/-- Any agent with an enabled step may take it (R31): it does so when the schedule, the model's own
(notes/assumptions/6.md), names it. Only enabled agents step. The engines and the host step by their own rules. An engine
that is not clocked steps only when chosen, and when it is no agent's turn none but such an engine has an enabled step and
the step idles: no such engine step need ever happen (R283). -/
def Obligations.EnabledAgentsStep : Prop :=
  ∀ s : State,
    (∀ a rest, s.sched = a :: rest → s.enabled a = true → s.turn = some a) ∧
    (∀ a, s.turn = some a → s.enabled a = true) ∧
    (s.turn = some .mu → step s = .next s.afterTurn.muStep) ∧
    (s.turn = some .pl011 → step s = .next s.afterTurn.plStep) ∧
    (s.turn = some .host → step s = .next s.afterTurn.hostStep) ∧
    (s.turn = none → (∀ a, s.enabled a = true → (a = .mu ∨ a = .pl011) ∧ s.cfg.clocked = false) ∧
      ((∃ a, s.enabled a = true) → step s = .next s.afterTurn)) ∧
    (s.cfg.clocked = false → ∀ a, s.turn = some a → a = .mu ∨ a = .pl011 → a = s.chosen)

/-- Raising a fault (R501): the status records the code's record and the operation pointer, `FAULT` is appended with the
fault's code, 1 to 11 as the table of 60_exceptions.md section 2 numbers them, the operation stops; no register, RAM byte
or peripheral changes and the operation pointer does not advance. -/
def Obligations.RaisingRecordsTheFault : Prop :=
  (∀ (s : State) (c : Cause), ∃ t, raise c s = .next t ∧
    t.status = .faulted c s.opc ∧ t.ev = s.ev ++ [.fault c.code] ∧ t.op = none ∧ t.opc = s.opc ∧
    (∀ r, t.reg r = s.reg r) ∧ SameRam s t ∧ SamePeripherals s t ∧ SameProgram s t ∧ t.drv = s.drv) ∧
  (∀ w, (Cause.illegal w).code = 1) ∧ (∀ r, (Cause.unwritten r).code = 2) ∧ (∀ k, (Cause.pcRange k).code = 3) ∧
  (∀ a n, (Cause.ramRange a n).code = 4) ∧ (∀ n, (Cause.shiftRange n).code = 5) ∧
  (∀ opc, (Cause.uninit opc).code = 6) ∧ (∀ n, (Cause.bufCapacity n).code = 7) ∧
  (∀ b off v, (Cause.regRefused b off v).code = 8) ∧ (∀ off, (Cause.auxDisabled off).code = 9) ∧
  (∀ off v, (Cause.pl011Reprogram off v).code = 10) ∧ ∀ u, (Cause.txOverflow u).code = 11

/-- A CPU agent that is halted or faulted takes no further step (R501, R438): whatever step follows, by an engine or the
host, leaves its status, registers, operation pointer, context, driver state and RAM; and no fault or halt disables an
engine or the host. -/
def Obligations.StoppedCpuStaysStopped : Prop :=
  (∀ s t : State, s.status ≠ .running → step s = .next t →
    t.status = s.status ∧ (∀ r, t.reg r = s.reg r) ∧ t.opc = s.opc ∧ t.op = s.op ∧ t.drv = s.drv ∧ SameRam s t) ∧
  (∀ (s : State) (st : Status) (a : Agent), a ≠ .cpu → ({ s with status := st } : State).enabled a = s.enabled a)

/-- Every step from a sound state leads to a sound state: the RAM stays canonical and inside its size, the FIFOs stay
within their depths, room or data an operation has seen is still there when it acts on it, and a string or line in progress
stays inside its range of RAM. -/
def Obligations.SoundnessIsKept : Prop := ∀ s t : State, s.sound → step s = .next t → t.sound

/-- Every launch state is sound (R61, R62), whatever the draws. The model's reset state is a launch state; its peripheral
values are the model's choice, the family's hardware reset values that R63 and R602 print for information
(notes/assumptions/2.md). -/
def Obligations.LaunchIsSound : Prop :=
  (∀ s : State, s.isLaunch → s.sound) ∧ State.reset.isLaunch ∧
  (∀ p, State.reset.gpio.fselAt p = 0) ∧ State.reset.aux.word = 0 ∧
  (State.reset.mu.ier = 0 ∧ State.reset.mu.lcr = 0 ∧ State.reset.mu.mcr = 0 ∧ State.reset.mu.lsr = 0x60 ∧
    State.reset.mu.scratch = 0 ∧ State.reset.mu.cntl = 0x03 ∧ State.reset.mu.baud = 0) ∧
  State.reset.pl.cr = 0x0300 ∧ State.reset.pl.lcrh = 0 ∧ State.reset.pl.ibrd = 0 ∧ State.reset.pl.fbrd = 0 ∧
  State.reset.pl.imsc = 0 ∧ State.reset.pl.ifls = 0x12 ∧ State.reset.pl.dmacr = 0 ∧ State.reset.pl.fr = 0x90

/-- Every step keeps the record: the event history and `LINE_OUT` only grow at their end, the program and the parameters
do not change, a ready driver stays ready, and a status other than running never changes again. -/
def Obligations.RecordIsKept : Prop := ∀ s t : State, step s = .next t → s.recordKept t

/-- Nothing stops the machine but the end of the run: in every state and for every operand `exec` answers a next state, a
fault of the spec being one (the model's choice, notes/assumptions/5.md), and a step has one unless no agent, the host
included, has an enabled step (the model's choice, notes/assumptions/20.md; R641's end of a run does not wait for the
host). -/
def Obligations.EveryInstructionAnswers : Prop :=
  (∀ (i : Instr) (s : State), ∃ t, exec i s = .next t) ∧
  (∀ s : State, (∃ t, step s = .next t) ∨ (step s = .fault .runEnded ∧ ∀ a, s.enabled a = false))

/-! ## Harness (47_harness.md) -/

/-- R430, R431. `LI` writes the zero-extended immediate. `LIH` replaces bits 31:16 and keeps bits 15:0; it faults on an
unwritten register. -/
def Obligations.LoadImmediateResults : Prop :=
  ∀ (s : State) (xd : RegIdx) (imm : Imm16),
    exec (.li xd imm) s = .next (s.setReg xd (BitVec.ofNat 32 imm.toNat)).finish ∧
    (∀ v, s.reg xd = some v → exec (.lih xd imm) s = .next (s.setReg xd (imm ++ v.extractLsb' 0 16)).finish) ∧
    (s.reg xd = none → exec (.lih xd imm) s = .next (s.raise (.unwritten xd)))

/-- R432. `ADDI` adds the sign-extended immediate modulo 2^32; it faults on an unwritten source. -/
def Obligations.AddImmediateResult : Prop :=
  ∀ (s : State) (xd xs : RegIdx) (imm : Imm16),
    (∀ v, s.reg xs = some v →
      exec (.addi xd xs imm) s = .next (s.setReg xd (BitVec.ofInt 32 (v.toNat + imm.toInt))).finish) ∧
    (s.reg xs = none → exec (.addi xd xs imm) s = .next (s.raise (.unwritten xs)))

/-- R433. `LDB` loads the byte at base plus offset modulo 2^32, zero-extended; outside the RAM it raises `F_RAM_RANGE`. -/
def Obligations.LoadByteResult : Prop :=
  ∀ (s : State) (xd xb : RegIdx) (imm : Imm16),
    (s.reg xb = none → exec (.ldb xd xb imm) s = .next (s.raise (.unwritten xb))) ∧
    (∀ base : Word, s.reg xb = some base →
      ∀ a : Nat, (a : Int) = (base.toNat + imm.toInt) % 2 ^ 32 →
        (a < s.cfg.ramSize →
          exec (.ldb xd xb imm) s = .next (s.setReg xd (BitVec.ofNat 32 (s.ramByte a).toNat)).finish) ∧
        (s.cfg.ramSize ≤ a → exec (.ldb xd xb imm) s = .next (s.raise (.ramRange a 1))))

/-- R434. `STB` stores bits 7:0 of its register at base plus offset modulo 2^32: that byte reads back, every other byte,
every register and the peripherals are unchanged. Outside the RAM it raises `F_RAM_RANGE`; an unwritten register raises
`F_UNWRITTEN`, the value register's first: with both unwritten that is R513's order, against R434's pseudocode, which reads
the base register first (the model's choice, notes/assumptions/10.md). -/
def Obligations.StoreByteResult : Prop :=
  ∀ (s : State) (xs xb : RegIdx) (imm : Imm16),
    (s.reg xs = none → exec (.stb xs xb imm) s = .next (s.raise (.unwritten xs))) ∧
    (∀ v, s.reg xs = some v → s.reg xb = none → exec (.stb xs xb imm) s = .next (s.raise (.unwritten xb))) ∧
    (∀ v base : Word, s.reg xs = some v → s.reg xb = some base →
      ∀ a : Nat, (a : Int) = (base.toNat + imm.toInt) % 2 ^ 32 →
        (a < s.cfg.ramSize → ∃ t, exec (.stb xs xb imm) s = .next t ∧
          (Memory.wf s.ram = true → t.ramByte a = v.extractLsb' 0 8) ∧ SameRamOutside a 1 s t ∧
          SameRegsBut [] s t ∧ SamePeripherals s t ∧ SameProgram s t ∧ t.opc = s.opc + 1 ∧ t.op = none ∧
          t.ev = s.ev ∧ t.status = s.status ∧ t.drv = s.drv) ∧
        (s.cfg.ramSize ≤ a → exec (.stb xs xb imm) s = .next (s.raise (.ramRange a 1))))

/-- R435, R436, R437, R438. The branches go to `opc + 1 + sext(IMM16)`, counted in words, or to the next word; an unwritten
register faults; a target outside the program is no fault at the branch, and raises `F_PC_RANGE` at the next fetch. `HALT`
sets the status to halted and does not advance the operation pointer; the engines' and the host's steps stay enabled. -/
def Obligations.ControlFlowResults : Prop :=
  ∀ (s : State) (xs : RegIdx) (off : Imm16),
    (∀ v, s.reg xs = some v →
      exec (.bz xs off) s =
        .next { s with opc := if v = 0 then s.opc + 1 + off.toInt else s.opc + 1, op := none } ∧
      exec (.bnz xs off) s =
        .next { s with opc := if v ≠ 0 then s.opc + 1 + off.toInt else s.opc + 1, op := none }) ∧
    (s.reg xs = none →
      exec (.bz xs off) s = .next (s.raise (.unwritten xs)) ∧
      exec (.bnz xs off) s = .next (s.raise (.unwritten xs))) ∧
    exec (.j off) s = .next { s with opc := s.opc + 1 + off.toInt, op := none } ∧
    ((s.opc < 0 ∨ (s.prog.length : Int) ≤ s.opc) → fetchStep s = .next (s.raise (.pcRange s.opc))) ∧
    exec .halt s = .next { s with status := .halted, op := none } ∧
    ({ s with status := .halted, op := none } : State).enabled .cpu = false ∧
    ∀ a, a ≠ .cpu → ({ s with status := .halted, op := none } : State).enabled a = s.enabled a

/-- Reading a harness register that holds no value raises `F_UNWRITTEN` with its number and changes nothing else (R33,
R503); of several operands the one in the first field, RA then RB then RC, is reported (R513). A register access checks its
block number first, a UART operation reads its operands before anything else. That `STB` reports its value register
whatever its base register holds is the model's reading of R513 (notes/assumptions/10.md). `LIH`, `ADDI`, `BZ` and `BNZ`
stand in the statements of their results. -/
def Obligations.UnwrittenOperandFaults : Prop :=
  ∀ (s : State) (p q : RegIdx),
    (s.reg p = none →
      (∀ d n, exec (.setBit d p n) s = .next (s.raise (.unwritten p)) ∧
        exec (.clearBit d p n) s = .next (s.raise (.unwritten p)) ∧
        exec (.toggleBit d p n) s = .next (s.raise (.unwritten p)) ∧
        exec (.isBitSet d p n) s = .next (s.raise (.unwritten p)) ∧
        exec (.readBit d p n) s = .next (s.raise (.unwritten p))) ∧
      (∀ d imm, exec (.ldb d p imm) s = .next (s.raise (.unwritten p)) ∧
        exec (.stb p d imm) s = .next (s.raise (.unwritten p))) ∧
      (∀ blk off, WellFormed (.regWr p blk off) → exec (.regWr p blk off) s = .next (s.raise (.unwritten p))) ∧
      (s.op = none → exec (.uartWriteByte p) s = .next (s.raise (.unwritten p)) ∧
        (∀ d, exec (.uartWriteString p d) s = .next (s.raise (.unwritten p))) ∧
        (∀ d e, exec (.uartReadLine d p e) s = .next (s.raise (.unwritten p))))) ∧
    (∀ v, s.reg p = some v → s.reg q = none →
      (∀ imm, exec (.stb p q imm) s = .next (s.raise (.unwritten q))) ∧
      (s.op = none → exec (.uartWriteString p q) s = .next (s.raise (.unwritten q)) ∧
        (∀ d, exec (.uartReadLine d p q) s = .next (s.raise (.unwritten q)))))

/-- The frame of the words that touch neither RAM nor a peripheral: the harness words but `STB`, and the bit utilities.
Whatever they answer, faults included, every register but the destination, all RAM, the peripherals, the program, the
driver state and the schedule are unchanged, and the history is unchanged or grows by one fault. -/
def Obligations.RegisterWordsFrame : Prop :=
  ∀ (s t : State) (i : Instr) (dests : List RegIdx),
    ((∃ d imm, i = .li d imm ∧ dests = [d]) ∨ (∃ d imm, i = .lih d imm ∧ dests = [d]) ∨
      (∃ d p imm, i = .addi d p imm ∧ dests = [d]) ∨ (∃ d p imm, i = .ldb d p imm ∧ dests = [d]) ∨
      (∃ d p n, (i = .setBit d p n ∨ i = .clearBit d p n ∨ i = .toggleBit d p n ∨ i = .isBitSet d p n ∨
        i = .readBit d p n) ∧ dests = [d]) ∨
      (∃ p off, (i = .bz p off ∨ i = .bnz p off ∨ i = .j off) ∧ dests = []) ∨ (i = .halt ∧ dests = [])) →
    exec i s = .next t →
      SameRegsBut dests s t ∧ SameRam s t ∧ SamePeripherals s t ∧ SameProgram s t ∧ t.drv = s.drv ∧ t.op = none ∧
      t.sched = s.sched ∧ t.draws = s.draws ∧
      ((t.ev = s.ev ∧ (t.status = s.status ∨ i = .halt)) ∨ ∃ c, t = s.raise c)

/-! ## Bit utilities (42_bit_utilities.md) -/

/-- R250 to R254. With the source written and the index at most 31 each utility writes its value to `xd`; an index of 32 or
more raises `F_SHIFT_RANGE`; an unwritten source raises `F_UNWRITTEN` first. -/
def Obligations.BitUtilityResults : Prop :=
  ∀ (s : State) (xd xs : RegIdx) (n : Imm12),
    (∀ v : Word, s.reg xs = some v → n.toNat ≤ 31 →
      exec (.setBit xd xs n) s = .next (s.setReg xd (v ||| (1#32 <<< n.toNat))).finish ∧
      exec (.clearBit xd xs n) s = .next (s.setReg xd (v &&& ~~~(1#32 <<< n.toNat))).finish ∧
      exec (.toggleBit xd xs n) s = .next (s.setReg xd (v ^^^ (1#32 <<< n.toNat))).finish ∧
      exec (.isBitSet xd xs n) s = .next (s.setReg xd (if v.getLsbD n.toNat then 1 else 0)).finish ∧
      exec (.readBit xd xs n) s = .next (s.setReg xd (if v.getLsbD n.toNat then 1 else 0)).finish) ∧
    (∀ v : Word, s.reg xs = some v → 32 ≤ n.toNat →
      exec (.setBit xd xs n) s = .next (s.raise (.shiftRange n.toNat)) ∧
      exec (.clearBit xd xs n) s = .next (s.raise (.shiftRange n.toNat)) ∧
      exec (.toggleBit xd xs n) s = .next (s.raise (.shiftRange n.toNat)) ∧
      exec (.isBitSet xd xs n) s = .next (s.raise (.shiftRange n.toNat)) ∧
      exec (.readBit xd xs n) s = .next (s.raise (.shiftRange n.toNat))) ∧
    (s.reg xs = none →
      exec (.setBit xd xs n) s = .next (s.raise (.unwritten xs)) ∧
      exec (.clearBit xd xs n) s = .next (s.raise (.unwritten xs)) ∧
      exec (.toggleBit xd xs n) s = .next (s.raise (.unwritten xs)) ∧
      exec (.isBitSet xd xs n) s = .next (s.raise (.unwritten xs)) ∧
      exec (.readBit xd xs n) s = .next (s.raise (.unwritten xs)))

/-- R255, R256, R257. The laws of the utilities for every index 0 to 31 and every value: `set_bit` and `clear_bit` change
only bit n and read back as 1 and 0, clearing a set bit is clearing it, `toggle_bit` is one or the other and undoes itself.
An index of 32 or more faults in every utility and writes no register. -/
def Obligations.BitUtilityLaws : Prop :=
  (∀ (v : Word) (n : Nat), n ≤ 31 →
    clearBit (setBit v n) n = clearBit v n ∧ isBitSet (setBit v n) n = 1 ∧ toggleBit (toggleBit v n) n = v ∧
    (∀ k, k < 32 → k ≠ n → (setBit v n).getLsbD k = v.getLsbD k ∧ (clearBit v n).getLsbD k = v.getLsbD k) ∧
    readBit (setBit v n) n = 1 ∧ readBit (clearBit v n) n = 0 ∧
    toggleBit v n = if readBit v n = 0 then setBit v n else clearBit v n) ∧
  (∀ (s t : State) (i : Instr) (d p : RegIdx) (n : Imm12), 32 ≤ n.toNat →
    (i = .setBit d p n ∨ i = .clearBit d p n ∨ i = .toggleBit d p n ∨ i = .isBitSet d p n ∨ i = .readBit d p n) →
    exec i s = .next t → (∃ c o, t.status = .faulted c o) ∧ ∀ r, t.reg r = s.reg r)

/-! ## Register access (41_register_access.md) -/

/-- `REG_RD` of a register of the map answers one read (R200, R203): the destination gets a value whose defined bits are
the register's, the read's side effect happens, the event records the value, and the operation pointer advances. A read
of a data register takes its oldest byte (R220, R229), a read of AUX_MU_LSR_REG clears the overrun flag (R225), and no
other read changes anything of the peripherals. A Mini UART register needs the Mini UART enabled. Offsets 0x40 and 0x44
are IO and IER whatever `mu_lcr` bit 7 holds: the model's choice (notes/assumptions/26.md). -/
def Obligations.RegisterReadCompletes : Prop :=
  ∀ (s : State) (xd : RegIdx) (blk : BitVec 4) (off : Imm12) (b : Block) (r : PReg),
    decodeBlock blk = some b → regAt b off.toNat = some r → (∀ q, r = .mu q → s.aux.enMu = true) →
      ∃ (t : State) (v : Word), exec (.regRd xd blk off) s = .next t ∧
        (∀ k, (s.regValue r).2.getLsbD k = true → v.getLsbD k = (s.regValue r).1.getLsbD k) ∧
        t.reg xd = some v ∧ t.ev = s.ev ++ [.rd b off.toNat v] ∧ t.opc = s.opc + 1 ∧ t.op = none ∧
        t.status = s.status ∧ t.gpio = s.gpio ∧ t.aux = s.aux ∧ t.lineOut = s.lineOut ∧ t.lineIn = s.lineIn ∧
        (r = .mu .io → t.mu = { s.mu with rxf := s.mu.rxf.tail } ∧ t.pl = s.pl) ∧
        (r = .mu .lsr → t.mu = { s.mu with ovr := false } ∧ t.pl = s.pl) ∧
        (r = .uart .dr → t.pl = { s.pl with rxf := s.pl.rxf.tail } ∧ t.mu = s.mu) ∧
        (r ≠ .mu .io → r ≠ .mu .lsr → r ≠ .uart .dr → SamePeripherals s t)

/-- `REG_WR` of a register that takes the value answers one write (R201, R203): the write's effect, its event, and the
operation pointer advances. The conditions are those of R202, R212, R214, R227 and R233. Offsets 0x40 and 0x44 are IO
and IER whatever `mu_lcr` bit 7 holds: the model's choice (notes/assumptions/26.md). -/
def Obligations.RegisterWriteCompletes : Prop :=
  ∀ (s : State) (xs : RegIdx) (blk : BitVec 4) (off : Imm12) (b : Block) (r : PReg) (v : Word),
    decodeBlock blk = some b → s.reg xs = some v → regAt b off.toNat = some r → writeRefused r v s = false →
      (∀ q, r = .mu q → s.aux.enMu = true) → (r = .mu .io → s.mu.txf.length ≠ 8) →
      (r = .uart .dr → s.pl.txf.length ≠ s.pl.depth) →
      (r = .uart .ibrd ∨ r = .uart .fbrd ∨ r = .uart .lcrh → s.pl.cr.getLsbD 0 = false) →
      ∃ t, exec (.regWr xs blk off) s = .next t ∧
        t.gpio = (s.writeEffect r v).gpio ∧ t.aux = (s.writeEffect r v).aux ∧ t.mu = (s.writeEffect r v).mu ∧
        t.pl = (s.writeEffect r v).pl ∧ t.ev = s.ev ++ [.wr b off.toNat v] ∧ t.opc = s.opc + 1 ∧ t.op = none ∧
        t.status = s.status ∧ (∀ q, t.reg q = s.reg q) ∧ SameRam s t ∧ t.lineOut = s.lineOut

/-- R202. An access raises `F_REG_REFUSED` and performs nothing when its offset is not a multiple of 4, when no register
with a meaning stands there, when it writes a read-only register, or when it writes a value the rules refuse: break or
DLAB in AUX_MU_LCR_REG, flow control in AUX_MU_CNTL_REG, break or clearing FEN in UART_LCRH, SIREN, SIRLP, LBE, RTSEN or
CTSEN in UART_CR, and DMA in UART_DMACR. That this holds of a Mini UART that is disabled and of a PL011 that is enabled
too, against R212 and R233, is the model's reading of R513 (notes/assumptions/11.md). -/
def Obligations.RefusedAccesses : Prop :=
  ∀ (s : State) (x : RegIdx) (blk : BitVec 4) (off : Imm12) (b : Block), decodeBlock blk = some b →
    ((off.toNat % 4 ≠ 0 ∨ regAt b off.toNat = none) →
      exec (.regRd x blk off) s = .next (s.raise (.regRefused b off.toNat none))) ∧
    (∀ v : Word, s.reg x = some v →
      (off.toNat % 4 ≠ 0 ∨ regAt b off.toNat = none ∨
        (b, off.toNat) ∈ [(Block.gpio, 0x34), (.gpio, 0x38), (.aux, 0x00), (.aux, 0x54), (.aux, 0x58), (.aux, 0x64),
          (.uart0, 0x18), (.uart0, 0x3C), (.uart0, 0x40)] ∨
        (b = .aux ∧ off.toNat = 0x4C ∧ (v.getLsbD 6 ∨ v.getLsbD 7)) ∨
        (b = .aux ∧ off.toNat = 0x60 ∧ v.extractLsb' 2 6 ≠ 0) ∨
        (b = .uart0 ∧ off.toNat = 0x2C ∧ (v.getLsbD 0 ∨ (s.pl.lcrh.getLsbD 4 ∧ ¬v.getLsbD 4))) ∨
        (b = .uart0 ∧ off.toNat = 0x30 ∧
          (v.getLsbD 1 ∨ v.getLsbD 2 ∨ v.getLsbD 7 ∨ v.getLsbD 14 ∨ v.getLsbD 15)) ∨
        (b = .uart0 ∧ off.toNat = 0x48 ∧ v.extractLsb' 0 3 ≠ 0)) →
      exec (.regWr x blk off) s = .next (s.raise (.regRefused b off.toNat (some v))))

/-- While the Mini UART is disabled an access to one of its registers, offsets 0x40 to 0x68, raises `F_AUX_DISABLED` and
performs nothing (R212). While UARTEN is 1 a write of UART_IBRD, UART_FBRD or UART_LCRH raises `F_PL011_REPROGRAM` and
performs nothing (R233). A write that is refused anyway is refused first (R513, as notes/assumptions/11.md reads it). A
driver operation of the Mini UART, its driver ready, raises `F_AUX_DISABLED` at its first status read while the Mini UART
is disabled (R212, R514); `F_BUF_CAPACITY` and `F_RAM_RANGE` come before it (R513). -/
def Obligations.BlockedAccesses : Prop :=
  ∀ (s : State) (x : RegIdx),
    (s.aux.enMu = false → ∀ off : Imm12, 0x40 ≤ off.toNat → off.toNat ≤ 0x68 → off.toNat % 4 = 0 →
      exec (.regRd x 1 off) s = .next (s.raise (.auxDisabled off.toNat)) ∧
      (∀ v r, s.reg x = some v → regAt .aux off.toNat = some r → writeRefused r v s = false →
        exec (.regWr x 1 off) s = .next (s.raise (.auxDisabled off.toNat)))) ∧
    (∀ v : Word, s.pl.cr.getLsbD 0 = true → s.reg x = some v →
      exec (.regWr x 2 0x24) s = .next (s.raise (.pl011Reprogram 0x24 v)) ∧
      exec (.regWr x 2 0x28) s = .next (s.raise (.pl011Reprogram 0x28 v)) ∧
      (v.getLsbD 0 = false → (s.pl.lcrh.getLsbD 4 = true → v.getLsbD 4 = true) →
        exec (.regWr x 2 0x2C) s = .next (s.raise (.pl011Reprogram 0x2C v)))) ∧
    (s.cfg.variant = .mini → s.aux.enMu = false → s.drv = .ready → s.op = none → ∀ p q d : RegIdx,
      exec (.uartReadByte p q) s = .next (s.raise (.auxDisabled 0x54)) ∧
      exec .uartFlush s = .next (s.raise (.auxDisabled 0x54)) ∧
      exec (.uartIsDataReady d) s = .next (s.raise (.auxDisabled 0x54)) ∧
      (∀ v : Word, s.reg p = some v → exec (.uartWriteByte p) s = .next (s.raise (.auxDisabled 0x54))) ∧
      (∀ v w : Word, s.reg p = some v → s.reg q = some w →
        (w = 0 → exec (.uartReadLine d p q) s = .next (s.raise (.bufCapacity 0))) ∧
        (s.cfg.ramSize < v.toNat + w.toNat →
          exec (.uartWriteString p q) s = .next (s.raise (.ramRange v.toNat w.toNat)) ∧
          (w ≠ 0 → exec (.uartReadLine d p q) s = .next (s.raise (.ramRange v.toNat w.toNat)))) ∧
        (v.toNat + w.toNat ≤ s.cfg.ramSize →
          (w ≠ 0 → exec (.uartWriteString p q) s = .next (s.raise (.auxDisabled 0x54))) ∧
          (2 ≤ w.toNat → exec (.uartReadLine d p q) s = .next (s.raise (.auxDisabled 0x54))))))

/-- A write of GPFSELk sets the function of each of its pins from the pin's three bits and of no other pin, and corrupts
the frames in the shifters exactly when it changes the transmit pin's function (R205). A read of GPFSELk returns each of
its pins' functions in the pin's three bits, and changes nothing of the peripherals (R204). -/
def Obligations.FunctionSelectAccess : Prop :=
  ∀ (s : State) (x : RegIdx) (k : Nat), k < 6 →
    (∀ v : Word, s.reg x = some v → ∃ t, exec (.regWr x 0 (BitVec.ofNat 12 (4 * k))) s = .next t ∧
      (∀ j, j < 10 → 10 * k + j < 54 → t.gpio.fselAt (10 * k + j) = v.extractLsb' (3 * j) 3) ∧
      (∀ p, p / 10 ≠ k → t.gpio.fselAt p = s.gpio.fselAt p) ∧ t.gpio.out = s.gpio.out ∧
      (t.gpio.fselAt 14 = s.gpio.fselAt 14 → t.mu = s.mu ∧ t.pl = s.pl) ∧
      (t.gpio.fselAt 14 ≠ s.gpio.fselAt 14 →
        t.mu = { s.mu with busy := s.mu.busy.map fun f => { f with intact := false } } ∧
        t.pl = { s.pl with busy := s.pl.busy.map fun f => { f with intact := false } })) ∧
    (∃ t v, exec (.regRd x 0 (BitVec.ofNat 12 (4 * k))) s = .next t ∧ t.reg x = some v ∧ SamePeripherals s t ∧
      ∀ j, j < 10 → 10 * k + j < 54 → v.extractLsb' (3 * j) 3 = s.gpio.fselAt (10 * k + j))

/-- R206, R207. Writing a set register sets, and writing a clear register clears, the output latch of each pin whose bit
is 1, and leaves every other latch. -/
def Obligations.OutputLatchWrites : Prop :=
  ∀ (s : State) (x : RegIdx) (v : Word), s.reg x = some v →
    (∃ t, exec (.regWr x 0 0x1C) s = .next t ∧ t.gpio.fsel = s.gpio.fsel ∧
      ∀ p, p < 54 → t.gpio.out.getLsbD p = (s.gpio.out.getLsbD p || (decide (p < 32) && v.getLsbD p))) ∧
    (∃ t, exec (.regWr x 0 0x20) s = .next t ∧ t.gpio.fsel = s.gpio.fsel ∧
      ∀ p, p < 54 → t.gpio.out.getLsbD p = (s.gpio.out.getLsbD p || (decide (32 ≤ p) && v.getLsbD (p - 32)))) ∧
    (∃ t, exec (.regWr x 0 0x28) s = .next t ∧ t.gpio.fsel = s.gpio.fsel ∧
      ∀ p, p < 54 → t.gpio.out.getLsbD p = (s.gpio.out.getLsbD p && !(decide (p < 32) && v.getLsbD p))) ∧
    (∃ t, exec (.regWr x 0 0x2C) s = .next t ∧ t.gpio.fsel = s.gpio.fsel ∧
      ∀ p, p < 54 → t.gpio.out.getLsbD p = (s.gpio.out.getLsbD p && !(decide (32 ≤ p) && v.getLsbD (p - 32))))

/-- A read of GPLEV0 or GPLEV1 returns the output latch of each pin whose function is output, and has no side effect
(R209). -/
def Obligations.LevelRead : Prop :=
  ∀ (s : State) (x : RegIdx),
    (∃ t v, exec (.regRd x 0 0x34) s = .next t ∧ t.reg x = some v ∧ SamePeripherals s t ∧
      ∀ p, p < 32 → s.gpio.fselAt p = 0b001 → v.getLsbD p = s.gpio.out.getLsbD p) ∧
    (∃ t v, exec (.regRd x 0 0x38) s = .next t ∧ t.reg x = some v ∧ SamePeripherals s t ∧
      ∀ p, 32 ≤ p → p < 54 → s.gpio.fselAt p = 0b001 → v.getLsbD (p - 32) = s.gpio.out.getLsbD p)

/-- AUX_ENABLES (R213): a read returns the three enables in bits 2:0; a write sets them; the write that disables an enabled
Mini UART makes all its state free, its FIFOs within their depth and its shifter idle or not intact; any other write leaves
the Mini UART as it was. The free state is not known: `Mu.free` is built of opaque draws. -/
def Obligations.AuxEnablesAccess : Prop :=
  ∀ (s : State) (x : RegIdx),
    (∃ t v, exec (.regRd x 1 0x04) s = .next t ∧ t.reg x = some v ∧ t.aux = s.aux ∧
      v.getLsbD 0 = s.aux.enMu ∧ v.getLsbD 1 = s.aux.enSpi1 ∧ v.getLsbD 2 = s.aux.enSpi2) ∧
    (∀ v : Word, s.reg x = some v → ∃ t, exec (.regWr x 1 0x04) s = .next t ∧
      t.aux.enMu = v.getLsbD 0 ∧ t.aux.enSpi1 = v.getLsbD 1 ∧ t.aux.enSpi2 = v.getLsbD 2 ∧
      ((s.aux.enMu = true ∧ v.getLsbD 0 = false) → t.mu = Mu.free s.draws ∧
        t.mu.txf.length ≤ 8 ∧ t.mu.rxf.length ≤ 8 ∧ ∀ f, t.mu.busy = some f → f.intact = false) ∧
      (¬(s.aux.enMu = true ∧ v.getLsbD 0 = false) → t.mu = s.mu))

/-- The Mini UART's data register and FIFO clear (R214, R217, R220): a write appends bits 7:0 to the transmit FIFO, or
raises `F_TX_OVERFLOW` when it is full; a read removes and returns the oldest received byte, or removes nothing; a write
of AUX_MU_IIR_REG empties the receive FIFO by bit 1 and the transmit FIFO by bit 2. Offsets 0x40 and 0x44 are IO and IER
whatever `mu_lcr` bit 7 holds: the model's choice (notes/assumptions/26.md). -/
def Obligations.MiniUartFifoAccess : Prop :=
  ∀ (s : State) (x : RegIdx), s.aux.enMu = true →
    (∀ v : Word, s.reg x = some v →
      (s.mu.txf.length = 8 → exec (.regWr x 1 0x40) s = .next (s.raise (.txOverflow .mu))) ∧
      (s.mu.txf.length ≠ 8 → ∃ t, exec (.regWr x 1 0x40) s = .next t ∧
        t.mu = { s.mu with txf := s.mu.txf ++ [v.extractLsb' 0 8] }) ∧
      (∃ t, exec (.regWr x 1 0x48) s = .next t ∧
        t.mu = { s.mu with
          rxf := if v.getLsbD 1 then [] else s.mu.rxf, txf := if v.getLsbD 2 then [] else s.mu.txf })) ∧
    (∀ b rest, s.mu.rxf = b :: rest → ∃ t v, exec (.regRd x 1 0x40) s = .next t ∧ t.reg x = some v ∧
      v.extractLsb' 0 8 = b ∧ t.mu = { s.mu with rxf := rest }) ∧
    (s.mu.rxf = [] → ∃ t, exec (.regRd x 1 0x40) s = .next t ∧ t.mu = s.mu)

/-- Reading AUX_MU_LSR_REG returns data ready, overrun, room and idle in bits 0, 1, 5 and 6, and then clears the overrun
flag (R225). Reading AUX_MU_STAT_REG returns the bits of R161 and changes nothing (R224). -/
def Obligations.MiniUartStatusReads : Prop :=
  ∀ (s : State) (x : RegIdx), s.aux.enMu = true → s.mu.txf.length ≤ 8 → s.mu.rxf.length ≤ 8 →
    (∃ t v, exec (.regRd x 1 0x54) s = .next t ∧ t.reg x = some v ∧
      v.getLsbD 0 = decide (s.mu.rxf ≠ []) ∧ v.getLsbD 1 = s.mu.ovr ∧ v.getLsbD 5 = decide (s.mu.txf.length < 8) ∧
      v.getLsbD 6 = decide (s.mu.txf = [] ∧ s.mu.busy = none) ∧ t.mu = { s.mu with ovr := false }) ∧
    (∃ t v, exec (.regRd x 1 0x64) s = .next t ∧ t.reg x = some v ∧
      v.getLsbD 0 = decide (s.mu.rxf ≠ []) ∧ v.getLsbD 1 = decide (s.mu.txf.length < 8) ∧ v.getLsbD 4 = s.mu.ovr ∧
      v.getLsbD 5 = decide (s.mu.txf.length = 8) ∧ v.getLsbD 8 = decide (s.mu.txf = []) ∧
      v.getLsbD 9 = decide (s.mu.txf = [] ∧ s.mu.busy = none) ∧ (v.extractLsb' 16 4).toNat = s.mu.rxf.length ∧
      (v.extractLsb' 24 4).toNat = s.mu.txf.length ∧ t.mu = s.mu)

/-- Writes of the Mini UART's configuration registers (R215, R218, R219, R222, R223, R226): the register holds the
value's low bits, but for the reserved ones of IER, LCR and MCR, which a write ignores (R140; the field holds 0 there,
notes/assumptions/23.md); the line control, the divisor, and a control value that disables the transmitter make a frame
in the shifter not intact (R281), the last even if it was disabled before (notes/assumptions/12.md); nothing else of the
Mini UART changes. Offsets 0x40 and 0x44 are IO and IER whatever `mu_lcr` bit 7 holds: the model's choice
(notes/assumptions/26.md). -/
def Obligations.MiniUartConfigurationWrites : Prop :=
  ∀ (s : State) (x : RegIdx) (v : Word), s.aux.enMu = true → s.reg x = some v →
    (∃ t, exec (.regWr x 1 0x44) s = .next t ∧ t.mu = { s.mu with ier := v.extractLsb' 0 8 &&& 0x03 }) ∧
    (v.getLsbD 6 = false → v.getLsbD 7 = false → ∃ t, exec (.regWr x 1 0x4C) s = .next t ∧
      t.mu = { s.mu with
        lcr := v.extractLsb' 0 8 &&& 0xC3, busy := s.mu.busy.map fun f => { f with intact := false } }) ∧
    (∃ t, exec (.regWr x 1 0x50) s = .next t ∧ t.mu = { s.mu with mcr := v.extractLsb' 0 8 &&& 0x02 }) ∧
    (∃ t, exec (.regWr x 1 0x5C) s = .next t ∧ t.mu = { s.mu with scratch := v.extractLsb' 0 8 }) ∧
    (v.extractLsb' 2 6 = 0 → ∃ t, exec (.regWr x 1 0x60) s = .next t ∧
      t.mu = { s.mu with
        cntl := v.extractLsb' 0 8
        busy := if v.getLsbD 1 then s.mu.busy else s.mu.busy.map fun f => { f with intact := false } }) ∧
    (∃ t, exec (.regWr x 1 0x68) s = .next t ∧
      t.mu = { s.mu with baud := v.extractLsb' 0 16, busy := s.mu.busy.map fun f => { f with intact := false } })

/-- The full UART's data, error and flag registers (R227 to R230): a write of UART_DR appends bits 7:0 or raises
`F_TX_OVERFLOW` when the FIFO is full, enabled or not; a read removes and returns the oldest received byte, or removes
nothing; UART_RSRECR shows and clears the overrun flag; UART_FR shows BUSY, RXFE, TXFF, RXFF and TXFE and changes
nothing. -/
def Obligations.Pl011DataAndFlags : Prop :=
  ∀ (s : State) (x : RegIdx),
    (∀ v : Word, s.reg x = some v →
      (s.pl.txf.length = s.pl.depth → exec (.regWr x 2 0x00) s = .next (s.raise (.txOverflow .pl011))) ∧
      (s.pl.txf.length ≠ s.pl.depth → ∃ t, exec (.regWr x 2 0x00) s = .next t ∧
        t.pl = { s.pl with txf := s.pl.txf ++ [v.extractLsb' 0 8] }) ∧
      (∃ t, exec (.regWr x 2 0x04) s = .next t ∧ t.pl = { s.pl with oe := false })) ∧
    (∀ b rest, s.pl.rxf = b :: rest → ∃ t v, exec (.regRd x 2 0x00) s = .next t ∧ t.reg x = some v ∧
      v.extractLsb' 0 8 = b ∧ t.pl = { s.pl with rxf := rest }) ∧
    (s.pl.rxf = [] → ∃ t, exec (.regRd x 2 0x00) s = .next t ∧ t.pl = s.pl) ∧
    (∃ t v, exec (.regRd x 2 0x04) s = .next t ∧ t.reg x = some v ∧ v.getLsbD 3 = s.pl.oe ∧ t.pl = s.pl) ∧
    (∃ t v, exec (.regRd x 2 0x18) s = .next t ∧ t.reg x = some v ∧
      v.getLsbD 3 = decide (s.pl.busy ≠ none ∨ s.pl.txf ≠ []) ∧ v.getLsbD 4 = decide (s.pl.rxf = []) ∧
      v.getLsbD 5 = decide (s.pl.txf.length = s.pl.depth) ∧ v.getLsbD 6 = decide (s.pl.rxf.length = s.pl.depth) ∧
      v.getLsbD 7 = decide (s.pl.txf = []) ∧ t.pl = s.pl)

/-- Writes of the full UART's configuration registers (R231, R232, R235, R236, R238, R239, R241): the divisors are stored
and take effect only at the next write of UART_LCRH, which also stores and activates the line control and corrupts a frame
in the shifter; UART_CR, but for its reserved bits 6:3, which a write ignores (R140; the field holds 0 there,
notes/assumptions/23.md), UART_IFLS and UART_IMSC are stored, UART_ICR changes nothing, UART_DMACR takes only 0. -/
def Obligations.Pl011ConfigurationWrites : Prop :=
  ∀ (s : State) (x : RegIdx) (v : Word), s.reg x = some v →
    (s.pl.cr.getLsbD 0 = false →
      (∃ t, exec (.regWr x 2 0x24) s = .next t ∧ t.pl = { s.pl with ibrd := v.extractLsb' 0 16 }) ∧
      (∃ t, exec (.regWr x 2 0x28) s = .next t ∧ t.pl = { s.pl with fbrd := v.extractLsb' 0 6 }) ∧
      (v.getLsbD 0 = false → (s.pl.lcrh.getLsbD 4 = true → v.getLsbD 4 = true) →
        ∃ t, exec (.regWr x 2 0x2C) s = .next t ∧
          t.pl = { s.pl with
            lcrh := v.extractLsb' 0 8, actLcrh := v.extractLsb' 0 8, actIbrd := s.pl.ibrd, actFbrd := s.pl.fbrd,
            busy := s.pl.busy.map fun f => { f with intact := false } } ∧
          (v.getLsbD 4 = true → t.pl.depth = 16))) ∧
    (v.getLsbD 1 = false → v.getLsbD 2 = false → v.getLsbD 7 = false → v.getLsbD 14 = false → v.getLsbD 15 = false →
      ∃ t, exec (.regWr x 2 0x30) s = .next t ∧ t.pl = { s.pl with cr := v.extractLsb' 0 16 &&& 0xFF87 }) ∧
    (∃ t, exec (.regWr x 2 0x34) s = .next t ∧ t.pl = { s.pl with ifls := v.extractLsb' 0 6 }) ∧
    (∃ t, exec (.regWr x 2 0x38) s = .next t ∧ t.pl = { s.pl with imsc := v.extractLsb' 0 11 }) ∧
    (∃ t, exec (.regWr x 2 0x44) s = .next t ∧ t.pl = s.pl) ∧
    (v.extractLsb' 0 3 = 0 → ∃ t, exec (.regWr x 2 0x48) s = .next t ∧ t.pl = { s.pl with dmacr := 0 })

/-- A stored configuration register reads back the bits it stores, its other bits free (R215, R218, R219, R222, R223,
R226, R231, R232, R234, R237, R238), the reserved bits inside a stored field among them (R140, against R215, R218, R219
and R237: notes/assumptions/23.md). A write-only or interrupt-status register reads as a free value (R208, R211, R216,
R221, R239, R240). None of these reads has a side effect. Offsets 0x40 and 0x44 are IO and IER whatever `mu_lcr` bit 7
holds: the model's choice (notes/assumptions/26.md). -/
def Obligations.StoredRegistersRead : Prop :=
  ∀ (s : State) (x : RegIdx),
    (s.aux.enMu = true → ∀ (off : Imm12) (field mask : BitVec 8),
      (off, field, mask) ∈ [((0x44 : Imm12), s.mu.ier, (0x03 : BitVec 8)), (0x4C, s.mu.lcr, 0xC3), (0x50, s.mu.mcr, 0x02),
        (0x5C, s.mu.scratch, 0xFF), (0x60, s.mu.cntl, 0xFF)] →
      ∃ t v, exec (.regRd x 1 off) s = .next t ∧ t.reg x = some v ∧ v.extractLsb' 0 8 &&& mask = field &&& mask ∧
        t.mu = s.mu) ∧
    (∀ (blk : BitVec 4) (off : Imm12),
      (blk, off) ∈ [((0 : BitVec 4), (0x1C : Imm12)), (0, 0x20), (0, 0x28), (0, 0x2C), (1, 0x00), (2, 0x3C), (2, 0x40),
        (2, 0x44)] ∨ (s.aux.enMu = true ∧ (blk, off) ∈ [((1 : BitVec 4), (0x48 : Imm12)), (1, 0x58)]) →
      ∃ t v, exec (.regRd x blk off) s = .next t ∧ t.reg x = some v ∧ SamePeripherals s t ∧ t.opc = s.opc + 1) ∧
    (s.aux.enMu = true → ∃ t v, exec (.regRd x 1 0x68) s = .next t ∧ t.reg x = some v ∧
      v.extractLsb' 0 16 = s.mu.baud ∧ t.mu = s.mu) ∧
    (∃ t v, exec (.regRd x 2 0x24) s = .next t ∧ t.reg x = some v ∧ v.extractLsb' 0 16 = s.pl.ibrd ∧ t.pl = s.pl) ∧
    (∃ t v, exec (.regRd x 2 0x28) s = .next t ∧ t.reg x = some v ∧ v.extractLsb' 0 6 = s.pl.fbrd ∧ t.pl = s.pl) ∧
    (∃ t v, exec (.regRd x 2 0x2C) s = .next t ∧ t.reg x = some v ∧ v.extractLsb' 0 8 = s.pl.lcrh ∧ t.pl = s.pl) ∧
    (∃ t v, exec (.regRd x 2 0x30) s = .next t ∧ t.reg x = some v ∧ v.extractLsb' 0 16 &&& 0xFF87 = s.pl.cr &&& 0xFF87 ∧
      t.pl = s.pl) ∧
    (∃ t v, exec (.regRd x 2 0x34) s = .next t ∧ t.reg x = some v ∧ v.extractLsb' 0 6 = s.pl.ifls ∧ t.pl = s.pl) ∧
    (∃ t v, exec (.regRd x 2 0x38) s = .next t ∧ t.reg x = some v ∧ v.extractLsb' 0 11 = s.pl.imsc ∧ t.pl = s.pl) ∧
    (∃ t v, exec (.regRd x 2 0x48) s = .next t ∧ t.reg x = some v ∧ v.extractLsb' 0 3 = s.pl.dmacr ∧ t.pl = s.pl)

/-- The frame of the register access words: whatever they answer, every register but the destination of `REG_RD`, all RAM,
the serial line, the program, the parameters and the driver state are unchanged, no operation is left in progress, a read
changes no GPIO state, and each block is changed only by an access to it (a write of GPFSEL1 can also mark the frames in
the shifters as not intact). -/
def Obligations.RegisterAccessFrame : Prop :=
  ∀ (s t : State) (x : RegIdx) (blk : BitVec 4) (off : Imm12),
    (exec (.regRd x blk off) s = .next t → SameRegsBut [x] s t ∧ SameRam s t ∧ t.gpio = s.gpio ∧ t.aux = s.aux ∧
      (blk ≠ 1 → t.mu = s.mu) ∧ (blk ≠ 2 → t.pl = s.pl) ∧ t.lineOut = s.lineOut ∧ t.lineIn = s.lineIn ∧
      SameProgram s t ∧ t.drv = s.drv ∧ t.op = none ∧ t.sched = s.sched) ∧
    (exec (.regWr x blk off) s = .next t → SameRegsBut [] s t ∧ SameRam s t ∧ (blk ≠ 0 → t.gpio = s.gpio) ∧
      (blk ≠ 1 → t.aux = s.aux ∧ (t.mu = s.mu ∨ (blk = 0 ∧ off = 4 ∧ t.mu = s.mu.corrupt))) ∧
      (blk ≠ 2 → t.pl = s.pl ∨ (blk = 0 ∧ off = 4 ∧ t.pl = s.pl.corrupt)) ∧
      t.lineOut = s.lineOut ∧ t.lineIn = s.lineIn ∧ SameProgram s t ∧ t.drv = s.drv ∧ t.op = none ∧
      t.sched = s.sched)

/-! ## GPIO operations (46_gpio.md) -/

/-- `GPIO_SET_OUTPUT` of a pin below 60 completes after 2, 3 or 4 accesses by the shape of the function-select write (R401,
R402): the pin's function is output, no other pin's function and no output latch changes, and the operation pointer
advances; for pins 54 to 59 no pin changes. From 60 on it makes no access. -/
def Obligations.SetOutputCompletes : Prop :=
  ∀ (s : State) (pin : Imm12), s.op = none →
    (pin.toNat < 60 →
      ∃ t, execTimes (match s.cfg.fselShape with | .oneWrite => 2 | .clearThenSet => 3 | .twoRmw => 4)
          (.gpioSetOutput pin) s = .next t ∧
        (pin.toNat < 54 → t.gpio.fselAt pin.toNat = 0b001) ∧
        (∀ p, p ≠ pin.toNat → t.gpio.fselAt p = s.gpio.fselAt p) ∧ t.gpio.out = s.gpio.out ∧
        t.opc = s.opc + 1 ∧ t.op = none ∧ t.status = s.status) ∧
    (60 ≤ pin.toNat → exec (.gpioSetOutput pin) s = .next s.finish)

/-- R404, R405. `GPIO_SET_HIGH` and `GPIO_SET_LOW` make one write of the pin's bit, to the first bank's register below pin
32 and the second's from 32 on: the pin's latch becomes 1 or 0, no other latch and no function changes. From pin 64 on they
raise `F_SHIFT_RANGE` and make no access. -/
def Obligations.SetHighAndLowResults : Prop :=
  ∀ (s : State) (pin : Imm12),
    (pin.toNat < 64 →
      ∃ t u, exec (.gpioSetHigh pin) s = .next t ∧ exec (.gpioSetLow pin) s = .next u ∧
        (∀ p, p < 54 → t.gpio.out.getLsbD p = (decide (p = pin.toNat) || s.gpio.out.getLsbD p) ∧
          u.gpio.out.getLsbD p = (!decide (p = pin.toNat) && s.gpio.out.getLsbD p)) ∧
        t.gpio.fsel = s.gpio.fsel ∧ u.gpio.fsel = s.gpio.fsel ∧
        t.ev = s.ev ++ [if pin.toNat < 32 then .wr .gpio 0x1C (1#32 <<< pin.toNat)
          else .wr .gpio 0x20 (1#32 <<< (pin.toNat - 32))] ∧
        u.ev = s.ev ++ [if pin.toNat < 32 then .wr .gpio 0x28 (1#32 <<< pin.toNat)
          else .wr .gpio 0x2C (1#32 <<< (pin.toNat - 32))] ∧
        t.opc = s.opc + 1 ∧ u.opc = s.opc + 1 ∧ t.status = s.status ∧ u.status = s.status) ∧
    (64 ≤ pin.toNat → exec (.gpioSetHigh pin) s = .next (s.raise (.shiftRange pin.toNat)) ∧
      exec (.gpioSetLow pin) s = .next (s.raise (.shiftRange pin.toNat)))

/-- The frame of the GPIO operations: whatever a micro-step of one answers, every register, all RAM, the Auxiliary
enables, the serial line, the program, the parameters and the driver state are unchanged; of the UARTs only the intactness
of a frame in a shifter can change, and `GPIO_SET_HIGH` and `GPIO_SET_LOW` change no function. -/
def Obligations.GpioOperationsFrame : Prop :=
  ∀ (s t : State) (i : Instr) (pin : Imm12),
    (i = .gpioSetOutput pin ∨ i = .gpioSetHigh pin ∨ i = .gpioSetLow pin) → exec i s = .next t →
      SameRegsBut [] s t ∧ SameRam s t ∧ t.aux = s.aux ∧ (t.mu = s.mu ∨ t.mu = s.mu.corrupt) ∧
      (t.pl = s.pl ∨ t.pl = s.pl.corrupt) ∧ t.lineOut = s.lineOut ∧ t.lineIn = s.lineIn ∧ SameProgram s t ∧
      t.drv = s.drv ∧ (i ≠ .gpioSetOutput pin → t.gpio.fsel = s.gpio.fsel ∧ t.mu = s.mu ∧ t.pl = s.pl ∧ t.op = none) ∧
      (i = .gpioSetOutput pin → t.gpio.out = s.gpio.out)

/-! ## UART driver (43_uart_common.md) -/

/-- A UART operation other than `UART_INIT`, the registers it reads written, raises `F_UNINIT` with its opcode while the
driver is uninitialised, before any access (R271, R507). Three of the six read no register. -/
def Obligations.UninitialisedDriverFaults : Prop :=
  ∀ (s : State) (p q d : RegIdx), s.drv = .uninit → s.op = none →
    exec (.uartReadByte p q) s = .next (s.raise (.uninit 0x23)) ∧
    exec .uartFlush s = .next (s.raise (.uninit 0x24)) ∧
    exec (.uartIsDataReady d) s = .next (s.raise (.uninit 0x26)) ∧
    (∀ v, s.reg p = some v → exec (.uartWriteByte p) s = .next (s.raise (.uninit 0x21))) ∧
    (∀ v w, s.reg p = some v → s.reg q = some w →
      exec (.uartWriteString p q) s = .next (s.raise (.uninit 0x22)) ∧
      exec (.uartReadLine d p q) s = .next (s.raise (.uninit 0x25)))

/-- `UART_INIT` of the Mini UART completes from any state with no operation in progress, in either driver state and for
every shape of the function-select write, and leaves the state of R273 and R313: both pins routed, the Mini UART enabled,
configured at `P_BAUD` 8N1 with the divisor of R172, both FIFOs empty, the driver ready; the byte in the shifter stays. The
full UART stays as it was, but that a frame in its shifter can stop being intact. The divisor spelled out for every clock
and baud rate, also where R172 gives none that fits its field, is the model's choice (notes/assumptions/18.md). -/
def Obligations.InitMiniCompletes : Prop :=
  ∀ s : State, s.op = none → s.cfg.variant = .mini →
    ∃ n t, execTimes n .uartInit s = .next t ∧ t.op = none ∧ t.opc = s.opc + 1 ∧ t.drv = .ready ∧
      t.status = s.status ∧ t.gpio.fselAt 14 = 0b010 ∧ t.gpio.fselAt 15 = 0b010 ∧
      (∀ p, p ≠ 14 → p ≠ 15 → t.gpio.fselAt p = s.gpio.fselAt p) ∧ t.gpio.out = s.gpio.out ∧
      t.aux = { s.aux with enMu := true } ∧ t.mu.baud = muBaudDiv s.cfg ∧
      muBaudDiv s.cfg = BitVec.ofNat 16 (s.cfg.coreClk / (8 * s.cfg.baud) - 1) ∧
      (t.pl = s.pl ∨ t.pl = { s.pl with busy := s.pl.busy.map fun f => { f with intact := false } }) ∧
      t.mu.lcr = 0x03 ∧ t.mu.ier = 0x00 ∧ t.mu.cntl = 0x03 ∧ t.mu.txf = [] ∧ t.mu.rxf = [] ∧
      t.mu.mcr = s.mu.mcr ∧ t.mu.scratch = s.mu.scratch ∧
      t.mu.ovr = s.mu.ovr ∧ t.mu.busy.map (·.byte) = s.mu.busy.map (·.byte) ∧
      (∀ r, t.reg r = s.reg r) ∧ SameRam s t

/-- `UART_INIT` of the full UART completes from any state with no operation in progress, in either driver state and for
every shape of the function-select write, and leaves the state of R273 and R363: both pins routed, the divisors and line
control stored and active, the divisors those of R172, the engine enabled, the FIFOs as they were, the driver ready. The
Mini UART stays as it was, but that a frame in its shifter can stop being intact. The divisors spelled out, and the line
configuration well-formed with them, for every clock and baud rate, also where R172 gives none that fit their fields, are
the model's choice (notes/assumptions/18.md). -/
def Obligations.InitFullCompletes : Prop :=
  ∀ s : State, s.op = none → s.cfg.variant = .full →
    ∃ n t, execTimes n .uartInit s = .next t ∧ t.op = none ∧ t.opc = s.opc + 1 ∧ t.drv = .ready ∧
      t.status = s.status ∧ t.gpio.fselAt 14 = 0b100 ∧ t.gpio.fselAt 15 = 0b100 ∧
      (∀ p, p ≠ 14 → p ≠ 15 → t.gpio.fselAt p = s.gpio.fselAt p) ∧ t.gpio.out = s.gpio.out ∧ t.aux = s.aux ∧
      (let whole := s.cfg.uartClk / (16 * s.cfg.baud)
       let sixtyFourths := (64 * (s.cfg.uartClk % (16 * s.cfg.baud)) + 8 * s.cfg.baud) / (16 * s.cfg.baud)
       pl011Ibrd s.cfg = BitVec.ofNat 16 (if sixtyFourths = 64 then whole + 1 else whole) ∧
       pl011Fbrd s.cfg = BitVec.ofNat 6 (if sixtyFourths = 64 then 0 else sixtyFourths)) ∧
      (t.mu = s.mu ∨ t.mu = { s.mu with busy := s.mu.busy.map fun f => { f with intact := false } }) ∧
      t.pl.cr = 0x0301 ∧ t.pl.ibrd = pl011Ibrd s.cfg ∧ t.pl.actIbrd = pl011Ibrd s.cfg ∧
      t.pl.fbrd = pl011Fbrd s.cfg ∧ t.pl.actFbrd = pl011Fbrd s.cfg ∧ t.pl.lcrh = 0x70 ∧ t.pl.actLcrh = 0x70 ∧
      t.pl.depth = 16 ∧ t.pl.lineCfg.ok s.cfg = true ∧ t.pl.txf = s.pl.txf ∧ t.pl.rxf = s.pl.rxf ∧
      t.pl.oe = s.pl.oe ∧ t.pl.ifls = s.pl.ifls ∧ t.pl.imsc = s.pl.imsc ∧ t.pl.dmacr = s.pl.dmacr ∧
      t.pl.busy.map (·.byte) = s.pl.busy.map (·.byte) ∧ (∀ r, t.reg r = s.reg r) ∧ SameRam s t

/-- R305, R355. The register accesses of an engine's initialisation, in order, as the event history shows them: for the
Mini UART a read of AUX_ENABLES and six writes, for the full UART six writes. The divisors written where R172 gives none
that fit their fields are the model's choice (notes/assumptions/18.md). -/
def Obligations.EngineInitSequences : Prop :=
  ∀ s : State,
    (s.op = some ⟨.uartInit, .enables⟩ → ∃ e t, execTimes 7 .uartInit s = .next t ∧ t.op = none ∧
      t.ev = s.ev ++ [.rd .aux 0x04 e, .wr .aux 0x04 (e ||| 0x00000001),
        .wr .aux 0x68 (BitVec.ofNat 32 (muBaudDiv s.cfg).toNat), .wr .aux 0x4C 0x00000003,
        .wr .aux 0x44 0x00000000, .wr .aux 0x60 0x00000003, .wr .aux 0x48 0x00000006]) ∧
    (s.op = some ⟨.uartInit, .writes (initWritesFull s.cfg)⟩ → ∃ t, execTimes 6 .uartInit s = .next t ∧ t.op = none ∧
      t.ev = s.ev ++ [.wr .uart0 0x30 0x00000000, .wr .uart0 0x44 0x000007FF,
        .wr .uart0 0x24 (BitVec.ofNat 32 (pl011Ibrd s.cfg).toNat),
        .wr .uart0 0x28 (BitVec.ofNat 32 (pl011Fbrd s.cfg).toNat), .wr .uart0 0x2C 0x00000070,
        .wr .uart0 0x30 0x00000301])

/-- The last access of an operation of several accesses completes it: the write that puts the function code of a pin's
select register ends `GPIO_SET_OUTPUT` (R401, R402), the last engine write ends `UART_INIT` and makes the driver ready
(R273), and the write of the last byte ends `UART_WRITE_STRING` (R275). That write reaches the Mini UART's data register
whatever `mu_lcr` bit 7 holds: the model's choice (notes/assumptions/26.md). -/
def Obligations.LastAccessCompletes : Prop :=
  (∀ (s : State) (pin : Imm12) (v : Word), s.op = some ⟨.gpioSetOutput pin, .select pin.toNat (.set v)⟩ →
    pin.toNat < 60 → ∃ t, exec (.gpioSetOutput pin) s = .next t ∧ t.op = none ∧ t.opc = s.opc + 1 ∧
      t.status = s.status ∧ t.ev = s.ev ++ [.wr .gpio (4 * (pin.toNat / 10)) (v ||| (1#32 <<< (3 * (pin.toNat % 10))))] ∧
      (pin.toNat < 54 → v.extractLsb' (3 * (pin.toNat % 10)) 3 = 0 → t.gpio.fselAt pin.toNat = 0b001)) ∧
  (∀ s : State, s.op = some ⟨.uartInit, .writes [(.aux, 0x48, 0x06)]⟩ → s.aux.enMu = true →
    ∃ t, exec .uartInit s = .next t ∧ t.op = none ∧ t.opc = s.opc + 1 ∧ t.drv = .ready ∧ t.status = s.status ∧
      t.mu = { s.mu with rxf := [], txf := [] }) ∧
  (∀ s : State, s.op = some ⟨.uartInit, .writes [(.uart0, 0x30, 0x301)]⟩ →
    ∃ t, exec .uartInit s = .next t ∧ t.op = none ∧ t.opc = s.opc + 1 ∧ t.drv = .ready ∧ t.status = s.status ∧
      t.pl = { s.pl with cr := 0x0301 }) ∧
  (∀ (s : State) (xa xn : RegIdx) (a n k : Nat) (b : Byte),
    s.op = some ⟨.uartWriteString xa xn, .strPut a n k b⟩ → k + 1 = n → s.txHasRoom →
      ∃ t, exec (.uartWriteString xa xn) s = .next t ∧ t.op = none ∧ t.opc = s.opc + 1 ∧ t.status = s.status ∧
        t.txFifo = s.txFifo ++ [b])

/-- `UART_WRITE_BYTE` (R274) looks for room and writes only after it saw some. With room it completes in two accesses:
bits 7:0 of the register are appended to the selected UART's transmit FIFO. Without room the status read is repeated:
the operation pointer and the FIFO stay, and the operation stays at its spin. In its spin, with room, it leaves the spin
and writes the byte; the write completes it. The Mini UART's data register is reached whatever `mu_lcr` bit 7 holds: the
model's choice (notes/assumptions/26.md). -/
def Obligations.WriteByteResults : Prop :=
  ∀ (s : State) (xs : RegIdx), s.uartReachable = true →
    (∀ v : Word, s.op = none → s.drv = .ready → s.reg xs = some v →
      (s.txFifo.length < s.txDepth →
        ∃ s₁ t, exec (.uartWriteByte xs) s = .next s₁ ∧ s₁.txFifo = s.txFifo ∧
          exec (.uartWriteByte xs) s₁ = .next t ∧ t.txFifo = s.txFifo ++ [v.extractLsb' 0 8] ∧
          t.opc = s.opc + 1 ∧ t.op = none ∧ t.status = s.status ∧ (∀ r, t.reg r = s.reg r) ∧ SameRam s t) ∧
      (s.txFifo.length = s.txDepth →
        ∃ s₁ s₂, exec (.uartWriteByte xs) s = .next s₁ ∧ s₁.op = some ⟨.uartWriteByte xs, .txPoll (v.extractLsb' 0 8)⟩ ∧
          exec (.uartWriteByte xs) s₁ = .next s₂ ∧ s₂.op = s₁.op ∧ s₂.opc = s.opc ∧ s₂.txFifo = s.txFifo ∧
          s₂.status = s.status)) ∧
    (∀ b, s.op = some ⟨.uartWriteByte xs, .txPoll b⟩ → s.txFifo.length < s.txDepth →
      ∃ s₁ t, exec (.uartWriteByte xs) s = .next s₁ ∧ s₁.op = some ⟨.uartWriteByte xs, .txPut b⟩ ∧
        s₁.txFifo = s.txFifo ∧ exec (.uartWriteByte xs) s₁ = .next t ∧ t.txFifo = s.txFifo ++ [b] ∧
        t.opc = s.opc + 1 ∧ t.op = none ∧ t.status = s.status) ∧
    (∀ b, s.op = some ⟨.uartWriteByte xs, .txPut b⟩ → s.txFifo.length < s.txDepth →
      ∃ t, exec (.uartWriteByte xs) s = .next t ∧ t.txFifo = s.txFifo ++ [b] ∧ t.opc = s.opc + 1 ∧ t.op = none ∧
        t.status = s.status ∧ (∀ r, t.reg r = s.reg r) ∧ SameRam s t)

/-- `UART_WRITE_STRING` (R275) of a string inside the RAM, with room for all of it, completes in two accesses a byte and
appends the string's bytes to the transmit FIFO in order; a string of length 0 completes at once; a string that does not
lie inside the RAM raises `F_RAM_RANGE` before any access. Before byte `k` the byte is taken from RAM; with no room it
spins on the status, with room it writes the byte, and goes on to the next or completes. The Mini UART's data register
is reached whatever `mu_lcr` bit 7 holds: the model's choice (notes/assumptions/26.md). -/
def Obligations.WriteStringResults : Prop :=
  (∀ (s : State) (xa xn : RegIdx) (a n : Word), s.op = none → s.drv = .ready →
    s.reg xa = some a → s.reg xn = some n →
      (s.cfg.ramSize < a.toNat + n.toNat →
        exec (.uartWriteString xa xn) s = .next (s.raise (.ramRange a.toNat n.toNat))) ∧
      (a.toNat + n.toNat ≤ s.cfg.ramSize → n = 0 → exec (.uartWriteString xa xn) s = .next s.finish) ∧
      (a.toNat + n.toNat ≤ s.cfg.ramSize → n ≠ 0 → s.uartReachable = true → s.txFifo.length + n.toNat ≤ s.txDepth →
        ∃ t, execTimes (2 * n.toNat) (.uartWriteString xa xn) s = .next t ∧
          t.txFifo = s.txFifo ++ (List.range n.toNat).map (fun k => s.ramByte (a.toNat + k)) ∧
          t.opc = s.opc + 1 ∧ t.op = none ∧ t.status = s.status ∧ (∀ r, t.reg r = s.reg r) ∧ SameRam s t)) ∧
  (∀ (s : State) (xa xn : RegIdx) (a n k : Nat), s.uartReachable = true →
    (s.op = some ⟨.uartWriteString xa xn, .strByte a n k⟩ →
      ∃ t, exec (.uartWriteString xa xn) s = .next t ∧ t.txFifo = s.txFifo ∧ t.opc = s.opc ∧ t.status = s.status ∧
        (s.txFifo.length = s.txDepth →
          t.op = some ⟨.uartWriteString xa xn, .strPoll a n k (s.ramByte (a + k))⟩) ∧
        (s.txFifo.length < s.txDepth →
          t.op = some ⟨.uartWriteString xa xn, .strPut a n k (s.ramByte (a + k))⟩)) ∧
    (∀ b, s.op = some ⟨.uartWriteString xa xn, .strPoll a n k b⟩ →
      (s.txFifo.length = s.txDepth → ∃ t, exec (.uartWriteString xa xn) s = .next t ∧ t.op = s.op ∧
        t.txFifo = s.txFifo ∧ t.opc = s.opc ∧ t.status = s.status) ∧
      (s.txFifo.length < s.txDepth →
        ∃ s₁ t, exec (.uartWriteString xa xn) s = .next s₁ ∧ s₁.op = some ⟨.uartWriteString xa xn, .strPut a n k b⟩ ∧
          s₁.txFifo = s.txFifo ∧ exec (.uartWriteString xa xn) s₁ = .next t ∧ t.txFifo = s.txFifo ++ [b] ∧
          t.status = s.status ∧
          (k + 1 < n → t.opc = s.opc ∧ t.op = some ⟨.uartWriteString xa xn, .strByte a n (k + 1)⟩) ∧
          (n ≤ k + 1 → t.opc = s.opc + 1 ∧ t.op = none))) ∧
    (∀ b, s.op = some ⟨.uartWriteString xa xn, .strPut a n k b⟩ → s.txFifo.length < s.txDepth →
      ∃ t, exec (.uartWriteString xa xn) s = .next t ∧ t.txFifo = s.txFifo ++ [b] ∧ t.status = s.status ∧
        (∀ r, t.reg r = s.reg r) ∧ SameRam s t ∧
        (k + 1 < n → t.opc = s.opc ∧ t.op = some ⟨.uartWriteString xa xn, .strByte a n (k + 1)⟩) ∧
        (n ≤ k + 1 → t.opc = s.opc + 1 ∧ t.op = none)))

/-- `UART_READ_BYTE` (R276) reads the status once. With a byte received it completes in two accesses: the byte leaves
the FIFO, the value register gets it zero-extended and then the tag register gets 1. With none it completes in one: both
get 0. Its second access, whatever stepped since the first, takes the oldest byte and completes. The Mini UART's data
register is reached whatever `mu_lcr` bit 7 holds: the model's choice (notes/assumptions/26.md). -/
def Obligations.ReadByteResults : Prop :=
  (∀ (s : State) (xv xt : RegIdx), s.op = none → s.drv = .ready → s.uartReachable = true →
    (∀ b rest, s.rxFifo = b :: rest →
      ∃ s₁ t, exec (.uartReadByte xv xt) s = .next s₁ ∧ s₁.rxFifo = s.rxFifo ∧ s₁.opc = s.opc ∧
        exec (.uartReadByte xv xt) s₁ = .next t ∧ t.rxFifo = rest ∧ t.reg xt = some 1 ∧
        (xv ≠ xt → t.reg xv = some (BitVec.ofNat 32 b.toNat)) ∧ SameRegsBut [xv, xt] s t ∧ t.opc = s.opc + 1 ∧
        t.op = none ∧ t.status = s.status ∧ SameRam s t) ∧
    (s.rxFifo = [] →
      ∃ t, exec (.uartReadByte xv xt) s = .next t ∧ t.reg xv = some 0 ∧ t.reg xt = some 0 ∧ t.rxFifo = [] ∧
        SameRegsBut [xv, xt] s t ∧ t.opc = s.opc + 1 ∧ t.op = none ∧ t.status = s.status ∧ SameRam s t)) ∧
  (∀ (s : State) (xv xt : RegIdx) (b : Byte) (rest : List Byte), s.op = some ⟨.uartReadByte xv xt, .rxGet⟩ →
    s.uartReachable = true → s.rxFifo = b :: rest →
      ∃ t, exec (.uartReadByte xv xt) s = .next t ∧ t.rxFifo = rest ∧ t.reg xt = some 1 ∧
        (xv ≠ xt → t.reg xv = some (BitVec.ofNat 32 b.toNat)) ∧ SameRegsBut [xv, xt] s t ∧ t.opc = s.opc + 1 ∧
        t.op = none ∧ t.status = s.status ∧ SameRam s t)

/-- `UART_IS_DATA_READY` (R284) completes in one status read: 1 when a byte has been received, else 0; it removes none. -/
def Obligations.DataReadyResult : Prop :=
  ∀ (s : State) (xd : RegIdx), s.drv = .ready → s.uartReachable = true →
    ∃ t, exec (.uartIsDataReady xd) s = .next t ∧ t.reg xd = some (if s.rxFifo = [] then 0 else 1) ∧
      t.rxFifo = s.rxFifo ∧ SameRegsBut [xd] s t ∧ t.opc = s.opc + 1 ∧ t.op = none ∧ t.status = s.status ∧
      SameRam s t

/-- `UART_FLUSH` (R277) completes on the first status read that shows the transmit path idle, FIFO empty and shifter done,
be it the operation's first read or one of its spin; until then it repeats the read and the operation pointer stays. -/
def Obligations.FlushResults : Prop :=
  ∀ s : State, (s.op = none ∧ s.drv = .ready ∨ s.op = some ⟨.uartFlush, .idlePoll⟩) → s.uartReachable = true →
    ∃ t, exec .uartFlush s = .next t ∧ t.status = s.status ∧ t.txFifo = s.txFifo ∧ (∀ r, t.reg r = s.reg r) ∧
      SameRam s t ∧ t.uartReachable = true ∧ t.txPathIdle = s.txPathIdle ∧
      (s.txPathIdle = true → t.opc = s.opc + 1 ∧ t.op = none) ∧
      (s.txPathIdle = false → t.opc = s.opc ∧ t.op = some ⟨.uartFlush, .idlePoll⟩)

/-- How `UART_READ_LINE` starts (R278): a capacity of 0 raises `F_BUF_CAPACITY`, before the range is looked at; a Line
Buffer that does not lie inside the RAM raises `F_RAM_RANGE`; a capacity of 1 completes at once with the terminator and
length 0; otherwise the first status read waits for a byte. -/
def Obligations.ReadLineStarts : Prop :=
  ∀ (s : State) (xd xa xc : RegIdx) (a cap : Word), s.op = none → s.drv = .ready →
    s.reg xa = some a → s.reg xc = some cap →
      (cap = 0 → exec (.uartReadLine xd xa xc) s = .next (s.raise (.bufCapacity 0))) ∧
      (cap ≠ 0 → s.cfg.ramSize < a.toNat + cap.toNat →
        exec (.uartReadLine xd xa xc) s = .next (s.raise (.ramRange a.toNat cap.toNat))) ∧
      (cap = 1 → a.toNat + 1 ≤ s.cfg.ramSize → Memory.wf s.ram = true →
        ∃ t, exec (.uartReadLine xd xa xc) s = .next t ∧ t.ramByte a.toNat = 0 ∧ SameRamOutside a.toNat 1 s t ∧
          t.reg xd = some 0 ∧ SameRegsBut [xd] s t ∧ t.ev = s.ev ∧ t.opc = s.opc + 1 ∧ t.op = none ∧
          t.status = s.status) ∧
      (2 ≤ cap.toNat → a.toNat + cap.toNat ≤ s.cfg.ramSize → s.uartReachable = true →
        ∃ t, exec (.uartReadLine xd xa xc) s = .next t ∧ t.rxFifo = s.rxFifo ∧ t.opc = s.opc ∧ SameRam s t ∧
          t.op = some ⟨.uartReadLine xd xa xc,
            .line a.toNat cap.toNat 0 (if s.rxFifo = [] then .rxPoll else .rxGet)⟩)

/-- What `UART_READ_LINE` does with a received byte (R278), the cursor at `pos` before the last place. CR and LF
complete the line: the terminator goes to `a + pos`, the result is `pos`, nothing is echoed. BS and DEL step the cursor
back and queue the echo BS, space, BS, or are dropped at position 0. Any other byte is stored at `a + pos` and, with
room to echo it, in three accesses echoed; if it fills the buffer the line is complete with length `pos + 1`, otherwise
the next byte is awaited. One access at a time: the status read awaiting a byte is repeated until it shows one; a data
byte taken is stored with the status read for its echo, room or not; that read is repeated until it shows room; then the
first byte of the echo is written, and the rest echoed or the loop begun again, where a full buffer completes the line.
With room the erase echo BS, space, BS is written to the transmit FIFO in six accesses, and the next byte is awaited.
The Mini UART's data register is reached whatever `mu_lcr` bit 7 holds: the model's choice (notes/assumptions/26.md). -/
def Obligations.ReadLineTakesBytes : Prop :=
  (∀ (s : State) (xd xa xc : RegIdx) (a cap pos : Nat) (c : Byte) (rest : List Byte),
    s.op = some ⟨.uartReadLine xd xa xc, .line a cap pos .rxGet⟩ → s.uartReachable = true →
    s.rxFifo = c :: rest → pos + 2 ≤ cap → cap < 2 ^ 32 → Memory.wf s.ram = true →
      ((c = 0x0D ∨ c = 0x0A) → ∃ t, exec (.uartReadLine xd xa xc) s = .next t ∧ t.rxFifo = rest ∧
        t.ramByte (a + pos) = 0 ∧ SameRamOutside (a + pos) 1 s t ∧ t.reg xd = some (BitVec.ofNat 32 pos) ∧
        SameRegsBut [xd] s t ∧ t.txFifo = s.txFifo ∧ t.opc = s.opc + 1 ∧ t.op = none ∧ t.status = s.status) ∧
      ((c = 0x08 ∨ c = 0x7F) → ∃ t, exec (.uartReadLine xd xa xc) s = .next t ∧ t.rxFifo = rest ∧ SameRam s t ∧
        t.opc = s.opc ∧ t.op = some ⟨.uartReadLine xd xa xc,
          if pos = 0 then .line a cap 0 .rxPoll else .line a cap (pos - 1) (.echo [0x08, 0x20, 0x08])⟩) ∧
      (c ≠ 0x0D → c ≠ 0x0A → c ≠ 0x08 → c ≠ 0x7F →
        ∃ t, exec (.uartReadLine xd xa xc) s = .next t ∧ t.rxFifo = rest ∧ t.txFifo = s.txFifo ∧ SameRam s t ∧
          t.opc = s.opc ∧ t.status = s.status ∧ t.op = some ⟨.uartReadLine xd xa xc, .line a cap pos (.store c)⟩) ∧
      (c ≠ 0x0D → c ≠ 0x0A → c ≠ 0x08 → c ≠ 0x7F → s.txFifo.length < s.txDepth →
        ∃ t, execTimes 3 (.uartReadLine xd xa xc) s = .next t ∧ t.rxFifo = rest ∧ t.txFifo = s.txFifo ++ [c] ∧
          t.ramByte (a + pos) = c ∧ t.status = s.status ∧
          (pos + 2 < cap → SameRamOutside (a + pos) 1 s t ∧ t.opc = s.opc ∧
            t.op = some ⟨.uartReadLine xd xa xc, .line a cap (pos + 1) .rxPoll⟩) ∧
          (pos + 2 = cap → SameRamOutside (a + pos) 2 s t ∧ t.ramByte (a + pos + 1) = 0 ∧
            t.reg xd = some (BitVec.ofNat 32 (pos + 1)) ∧ t.opc = s.opc + 1 ∧ t.op = none))) ∧
  (∀ (s : State) (xd xa xc : RegIdx) (a cap pos : Nat), s.uartReachable = true →
    (s.op = some ⟨.uartReadLine xd xa xc, .line a cap pos .rxPoll⟩ →
      ∃ t, exec (.uartReadLine xd xa xc) s = .next t ∧ t.rxFifo = s.rxFifo ∧ SameRam s t ∧ t.opc = s.opc ∧
        t.status = s.status ∧
        t.op = some ⟨.uartReadLine xd xa xc, .line a cap pos (if s.rxFifo = [] then .rxPoll else .rxGet)⟩) ∧
    (∀ c, s.op = some ⟨.uartReadLine xd xa xc, .line a cap pos (.store c)⟩ → Memory.wf s.ram = true →
      ∃ t, exec (.uartReadLine xd xa xc) s = .next t ∧ t.ramByte (a + pos) = c ∧ SameRamOutside (a + pos) 1 s t ∧
        t.opc = s.opc ∧ t.status = s.status ∧ t.txFifo = s.txFifo ∧ t.rxFifo = s.rxFifo ∧
        (s.txFifo.length < s.txDepth →
          t.op = some ⟨.uartReadLine xd xa xc, .line a cap (pos + 1) (.put [c])⟩) ∧
        (s.txFifo.length = s.txDepth →
          t.op = some ⟨.uartReadLine xd xa xc, .line a cap (pos + 1) (.echo [c])⟩)) ∧
    (∀ q, s.op = some ⟨.uartReadLine xd xa xc, .line a cap pos (.echo q)⟩ →
      ∃ t, exec (.uartReadLine xd xa xc) s = .next t ∧ t.txFifo = s.txFifo ∧ SameRam s t ∧ t.opc = s.opc ∧
        t.status = s.status ∧
        (s.txFifo.length < s.txDepth → t.op = some ⟨.uartReadLine xd xa xc, .line a cap pos (.put q)⟩) ∧
        (s.txFifo.length = s.txDepth → t.op = s.op)) ∧
    (∀ b q, s.op = some ⟨.uartReadLine xd xa xc, .line a cap pos (.put (b :: q))⟩ → s.txFifo.length < s.txDepth →
      Memory.wf s.ram = true →
      ∃ t, exec (.uartReadLine xd xa xc) s = .next t ∧ t.txFifo = s.txFifo ++ [b] ∧ t.rxFifo = s.rxFifo ∧
        t.status = s.status ∧
        (q ≠ [] → SameRam s t ∧ t.opc = s.opc ∧
          t.op = some ⟨.uartReadLine xd xa xc, .line a cap pos (.echo q)⟩) ∧
        (q = [] → pos + 1 ≠ cap → SameRam s t ∧ t.opc = s.opc ∧
          t.op = some ⟨.uartReadLine xd xa xc, .line a cap pos .rxPoll⟩) ∧
        (q = [] → pos + 1 = cap → t.ramByte (a + pos) = 0 ∧ SameRamOutside (a + pos) 1 s t ∧
          t.reg xd = some (BitVec.ofNat 32 pos) ∧ SameRegsBut [xd] s t ∧ t.opc = s.opc + 1 ∧ t.op = none)) ∧
    (s.op = some ⟨.uartReadLine xd xa xc, .line a cap pos (.echo [0x08, 0x20, 0x08])⟩ → pos + 2 ≤ cap →
      s.txFifo.length + 3 ≤ s.txDepth →
      ∃ t, execTimes 6 (.uartReadLine xd xa xc) s = .next t ∧ t.txFifo = s.txFifo ++ [0x08, 0x20, 0x08] ∧
        t.rxFifo = s.rxFifo ∧ SameRam s t ∧ t.opc = s.opc ∧ t.status = s.status ∧
        t.op = some ⟨.uartReadLine xd xa xc, .line a cap pos .rxPoll⟩))

/-- `UART_READ_LINE` never writes past its Line Buffer (R278): from a sound state every micro-step of a line in progress
leaves every byte of RAM outside the `cap` bytes from `a`, and every register but the result. -/
def Obligations.LineStaysInItsBuffer : Prop :=
  ∀ (s t : State) (xd xa xc : RegIdx) (a cap pos : Nat) (ph : LinePhase), s.sound →
    s.op = some ⟨.uartReadLine xd xa xc, .line a cap pos ph⟩ → exec (.uartReadLine xd xa xc) s = .next t →
      SameRamOutside a cap s t ∧ SameRegsBut [xd] s t ∧ a + cap ≤ s.cfg.ramSize

/-- A driver operation never raises `F_TX_OVERFLOW` (R274, R512): from a sound state no micro-step of an operation in
progress, and no first micro-step of an instruction other than `REG_WR`, does. -/
def Obligations.DriverNeverOverflows : Prop :=
  ∀ (s t : State) (i : Instr) (u : Uart) (o : Int), s.sound → (∀ q, s.op = some q → q.instr = i) →
    s.status = .running → exec i s = .next t → t.status = .faulted (.txOverflow u) o → ∃ x b f, i = .regWr x b f

/-- The frame of the UART operations but `UART_INIT`: whatever a micro-step of one answers, the registers other than the
operation's results, the GPIO block, the Auxiliary enables, the serial line, the program, the parameters and the driver
state are unchanged; of the UARTs only the selected one's FIFOs and the Mini UART's overrun flag change; and RAM is
unchanged by all but `UART_READ_LINE`, which from a sound state changes only bytes of its Line Buffer, whether it starts
or is in progress. The Mini UART's data register is reached whatever `mu_lcr` bit 7 holds: the model's choice
(notes/assumptions/26.md). -/
def Obligations.UartOperationsFrame : Prop :=
  ∀ (s t : State) (i : Instr) (dests : List RegIdx),
    ((∃ p, i = .uartWriteByte p ∧ dests = []) ∨ (∃ p q, i = .uartWriteString p q ∧ dests = []) ∨
      (∃ p q, i = .uartReadByte p q ∧ dests = [p, q]) ∨ (i = .uartFlush ∧ dests = []) ∨
      (∃ d p q, i = .uartReadLine d p q ∧ dests = [d]) ∨ (∃ d, i = .uartIsDataReady d ∧ dests = [d])) →
    exec i s = .next t →
      SameRegsBut dests s t ∧ t.gpio = s.gpio ∧ t.aux = s.aux ∧ t.lineOut = s.lineOut ∧ t.lineIn = s.lineIn ∧
      SameProgram s t ∧ t.drv = s.drv ∧ t.sched = s.sched ∧
      (s.cfg.variant = .mini → t.pl = s.pl ∧
        t.mu = { s.mu with txf := t.mu.txf, rxf := t.mu.rxf, ovr := t.mu.ovr }) ∧
      (s.cfg.variant = .full → t.mu = s.mu ∧ t.pl = { s.pl with txf := t.pl.txf, rxf := t.pl.rxf }) ∧
      ((∀ d p q, i ≠ .uartReadLine d p q) → SameRam s t) ∧
      (∀ d p q, i = .uartReadLine d p q →
        (∀ a cap pos ph, s.sound → s.op = some ⟨i, .line a cap pos ph⟩ → SameRamOutside a cap s t) ∧
        (∀ a cap : Word, s.op = none → s.reg p = some a → s.reg q = some cap →
          SameRamOutside a.toNat cap.toNat s t) ∧
        (s.op = none → (s.reg p = none ∨ s.reg q = none) → SameRam s t))

/-- The frame of `UART_INIT`: whatever a micro-step of it answers, every register, all RAM, the serial line, the program
and the parameters are unchanged, and no output latch changes while it selects the pins' functions. From a sound state no
output latch changes at all, and the UART of the other variant stays as it was, but that a frame in its shifter can stop
being intact (R273). -/
def Obligations.InitFrame : Prop :=
  ∀ s t : State, exec .uartInit s = .next t →
    SameRegsBut [] s t ∧ SameRam s t ∧ t.lineOut = s.lineOut ∧ t.lineIn = s.lineIn ∧ SameProgram s t ∧
    t.sched = s.sched ∧ (s.drv = .ready → t.drv = .ready) ∧
    ((∀ ws, s.op ≠ some ⟨.uartInit, .writes ws⟩) → t.gpio.out = s.gpio.out) ∧
    (s.sound → t.gpio.out = s.gpio.out ∧
      (s.cfg.variant = .mini →
        t.pl = s.pl ∨ t.pl = { s.pl with busy := s.pl.busy.map fun f => { f with intact := false } }) ∧
      (s.cfg.variant = .full → t.aux = s.aux ∧
        (t.mu = s.mu ∨ t.mu = { s.mu with busy := s.mu.busy.map fun f => { f with intact := false } })))

/-! ## Engines, line and host (43_uart_common.md section 3, 44_uart_mini.md, 45_uart_pl011.md) -/

/-- R310, R311. The Mini UART engine. TX_START, enabled with the transmitter enabled, the shifter idle and a byte queued,
moves the oldest byte into the shifter with the current line configuration, intact if the pin is routed. TX_DONE, enabled
with the Mini UART enabled and a frame in the shifter, appends the frame to `LINE_OUT` and idles the shifter, whether or not
the transmitter is enabled. -/
def Obligations.MiniUartEngine : Prop :=
  ∀ s : State,
    (∀ b rest, s.aux.enMu = true → s.mu.cntl.getLsbD 1 = true → s.mu.busy = none → s.mu.txf = b :: rest →
      s.enabled .mu = true ∧ s.muStep = { s with
        mu := { s.mu with
          txf := rest
          busy := some ⟨b, ⟨s.mu.lcr.extractLsb' 0 2, s.mu.baud⟩, decide (s.gpio.fselAt 14 = 0b010)⟩ }
        ev := s.ev ++ [.txs .mu b] }) ∧
    (∀ f, s.aux.enMu = true → s.mu.busy = some f → s.enabled .mu = true ∧ s.muStep = { s with
        mu := { s.mu with busy := none }
        lineOut := s.lineOut ++ [.mu f (decide (s.gpio.fselAt 14 = 0b010))]
        ev := s.ev ++ [.txd .mu f.byte] }) ∧
    (s.enabled .mu = true → s.aux.enMu = true ∧
      (s.mu.busy ≠ none ∨ (s.mu.cntl.getLsbD 1 = true ∧ s.mu.busy = none ∧ s.mu.txf ≠ [])))

/-- R360, R361. The PL011 engine. TX_START, enabled with UARTEN and TXE set, the shifter idle and a byte queued, moves the
oldest byte into the shifter with the active line configuration, intact if the pin is routed. TX_DONE, enabled with a frame
in the shifter, enabled UART or not, appends the frame to `LINE_OUT` and idles the shifter. -/
def Obligations.Pl011Engine : Prop :=
  ∀ s : State,
    (∀ b rest, s.pl.cr.getLsbD 0 = true → s.pl.cr.getLsbD 8 = true → s.pl.busy = none → s.pl.txf = b :: rest →
      s.enabled .pl011 = true ∧ s.plStep = { s with
        pl := { s.pl with
          txf := rest
          busy := some ⟨b, ⟨s.pl.actLcrh, s.pl.actIbrd, s.pl.actFbrd⟩, decide (s.gpio.fselAt 14 = 0b100)⟩ }
        ev := s.ev ++ [.txs .pl011 b] }) ∧
    (∀ f, s.pl.busy = some f → s.enabled .pl011 = true ∧ s.plStep = { s with
        pl := { s.pl with busy := none }
        lineOut := s.lineOut ++ [.pl011 f (decide (s.gpio.fselAt 14 = 0b100))]
        ev := s.ev ++ [.txd .pl011 f.byte] }) ∧
    (s.enabled .pl011 = true → s.pl.busy ≠ none ∨
      (s.pl.cr.getLsbD 0 = true ∧ s.pl.cr.getLsbD 8 = true ∧ s.pl.busy = none ∧ s.pl.txf ≠ []))

/-- The host's send step (R280) with `c` the byte at the head of `LINE_IN`, a listed one or, past an endless input's listed
bytes, a free one. Unrouted, it is lost; routed to a disabled receiver, it is lost; to a full FIFO, it is lost and the
overrun flag set; otherwise it enters the FIFO, exactly under a well-formed configuration (R307, R357) and as a free byte
under any other. The divisors of a well-formed configuration where R172 gives none that fit their fields are the model's
choice (notes/assumptions/18.md). -/
def Obligations.HostSends : Prop :=
  (∀ s : State, (s.enabled .host = true ↔ (s.lineIn.listed ≠ [] ∨ s.lineIn.endless = true)) ∧
    (∀ c rest, s.lineIn.listed = c :: rest →
      s.lineIn.head = some c ∧ s.lineIn.drop = { s.lineIn with listed := rest })) ∧
  (∀ (s : State) (c : Byte), s.lineIn.head = some c →
    let sent : LineIn := s.lineIn.drop
    (s.gpio.fselAt 15 ≠ 0b010 → s.gpio.fselAt 15 ≠ 0b100 →
      s.hostStep = { s with lineIn := sent, ev := s.ev ++ [.rxl none c .unrouted] }) ∧
    (s.gpio.fselAt 15 = 0b010 →
      ((s.aux.enMu = false ∨ s.mu.cntl.getLsbD 0 = false) →
        s.hostStep = { s with lineIn := sent, ev := s.ev ++ [.rxl (some .mu) c .disabled] }) ∧
      (s.aux.enMu = true → s.mu.cntl.getLsbD 0 = true → s.mu.rxf.length = 8 → s.hostStep = { s with
        lineIn := sent, mu := { s.mu with ovr := true }, ev := s.ev ++ [.rxl (some .mu) c .overrun] }) ∧
      (s.aux.enMu = true → s.mu.cntl.getLsbD 0 = true → s.mu.rxf.length ≠ 8 →
        ∃ b, s.hostStep.mu = { s.mu with rxf := s.mu.rxf ++ [b] } ∧ s.hostStep.lineIn = sent ∧
          s.hostStep.ev = s.ev ++ [.rxp .mu b] ∧ s.hostStep.pl = s.pl ∧
          (s.mu.lcr.extractLsb' 0 2 = 0b11 → s.mu.baud = muBaudDiv s.cfg → b = c))) ∧
    (s.gpio.fselAt 15 = 0b100 →
      ((s.pl.cr.getLsbD 0 = false ∨ s.pl.cr.getLsbD 9 = false) →
        s.hostStep = { s with lineIn := sent, ev := s.ev ++ [.rxl (some .pl011) c .disabled] }) ∧
      (s.pl.cr.getLsbD 0 = true → s.pl.cr.getLsbD 9 = true → s.pl.rxf.length = s.pl.depth → s.hostStep = { s with
        lineIn := sent, pl := { s.pl with oe := true }, ev := s.ev ++ [.rxl (some .pl011) c .overrun] }) ∧
      (s.pl.cr.getLsbD 0 = true → s.pl.cr.getLsbD 9 = true → s.pl.rxf.length ≠ s.pl.depth →
        ∃ b, s.hostStep.pl = { s.pl with rxf := s.pl.rxf ++ [b] } ∧ s.hostStep.lineIn = sent ∧
          s.hostStep.ev = s.ev ++ [.rxp .pl011 b] ∧ s.hostStep.mu = s.mu ∧
          (s.pl.actLcrh.extractLsb' 5 2 = 0b11 → s.pl.actLcrh.getLsbD 1 = false → s.pl.actLcrh.getLsbD 3 = false →
            s.pl.actLcrh.getLsbD 0 = false → s.pl.actIbrd = pl011Ibrd s.cfg → s.pl.actFbrd = pl011Fbrd s.cfg →
            b = c))))

/-- What the host receives (R282): of a `LINE_OUT` whose every entry is intact, routed and well-formed (R307: 8-bit mode at
the divisor; R357: 8 bits, no parity, one stop bit, no break, the divisors), exactly the entries' bytes in order, and
nothing else; an entry that is not is received as any bytes, none included; and the entries are received in order. That
the reception is a relation, and the divisors, cut to their fields, for every clock and baud rate, also where R172 gives
none that fit, are the model's choices (notes/assumptions/21.md, notes/assumptions/18.md). -/
def Obligations.HostReceivesExactFrames : Prop :=
  ∀ c : Config,
    let good : LineEntry → Prop := fun e =>
      match e with
      | .mu f routed => f.intact = true ∧ routed = true ∧ f.cfg.size = 0b11 ∧
          f.cfg.baud = BitVec.ofNat 16 (c.coreClk / (8 * c.baud) - 1)
      | .pl011 f routed => f.intact = true ∧ routed = true ∧ f.cfg.lcrh.extractLsb' 5 2 = 0b11 ∧
          f.cfg.lcrh.getLsbD 1 = false ∧ f.cfg.lcrh.getLsbD 3 = false ∧ f.cfg.lcrh.getLsbD 0 = false ∧
          f.cfg.ibrd = pl011Ibrd c ∧ f.cfg.fbrd = pl011Fbrd c
    let byte : LineEntry → Byte := fun e =>
      match e with
      | .mu f _ => f.byte
      | .pl011 f _ => f.byte
    (∀ out bs, (∀ e ∈ out, good e) → (hostReceives c out bs ↔ bs = out.map byte)) ∧
    (∀ e bs, ¬good e → hostReceives c [e] bs) ∧
    (∀ out₁ out₂ bs, hostReceives c (out₁ ++ out₂) bs ↔
      ∃ b₁ b₂, bs = b₁ ++ b₂ ∧ hostReceives c out₁ b₁ ∧ hostReceives c out₂ b₂)

/-- `UART_FLUSH` completes under fairness (R283, R285): on every fair run, with the engines clocked, from a state in which
the CPU is running and in the flush's spin and the selected UART's transmitter is enabled, the operation pointer advances
past it. A run and its fairness are the model's `IsRun` and `IsFair` (notes/assumptions/17.md). -/
def Obligations.FlushTerminatesUnderFairness : Prop :=
  ∀ (run : Nat → State), IsRun run → IsFair run → (run 0).cfg.clocked = true → (run 0).status = .running →
    (run 0).op = some ⟨.uartFlush, .idlePoll⟩ →
    ((run 0).cfg.variant = .mini → (run 0).muTxEnabled = true) →
    ((run 0).cfg.variant = .full → (run 0).pl.txEnabled = true) →
      ∃ n, (run n).op = none ∧ (run n).opc = (run 0).opc + 1 ∧ (run n).status = .running ∧
        (run n).txPathIdle = true
end

