-- ==== Sys2Proof/Laws/State.lean ====
section
/-! SUPPORT. The state's fields after each named update, one lemma a field (all by rfl), so that no proof unfolds a record
update; the accessors after those updates; the microstep an instruction takes next. -/

namespace Sys2Proof.Machine

variable (s : State)

/-! ### `setRam` -/

@[simp] theorem State.setRam_cfg (a : Nat) (b : Byte) : (s.setRam a b).cfg = s.cfg := rfl
@[simp] theorem State.setRam_prog (a : Nat) (b : Byte) : (s.setRam a b).prog = s.prog := rfl
@[simp] theorem State.setRam_x (a : Nat) (b : Byte) : (s.setRam a b).x = s.x := rfl
@[simp] theorem State.setRam_opc (a : Nat) (b : Byte) : (s.setRam a b).opc = s.opc := rfl
@[simp] theorem State.setRam_ram (a : Nat) (b : Byte) : (s.setRam a b).ram = Memory.write s.ram a b := rfl
@[simp] theorem State.setRam_status (a : Nat) (b : Byte) : (s.setRam a b).status = s.status := rfl
@[simp] theorem State.setRam_ev (a : Nat) (b : Byte) : (s.setRam a b).ev = s.ev := rfl
@[simp] theorem State.setRam_drv (a : Nat) (b : Byte) : (s.setRam a b).drv = s.drv := rfl
@[simp] theorem State.setRam_op (a : Nat) (b : Byte) : (s.setRam a b).op = s.op := rfl
@[simp] theorem State.setRam_gpio (a : Nat) (b : Byte) : (s.setRam a b).gpio = s.gpio := rfl
@[simp] theorem State.setRam_aux (a : Nat) (b : Byte) : (s.setRam a b).aux = s.aux := rfl
@[simp] theorem State.setRam_mu (a : Nat) (b : Byte) : (s.setRam a b).mu = s.mu := rfl
@[simp] theorem State.setRam_pl (a : Nat) (b : Byte) : (s.setRam a b).pl = s.pl := rfl
@[simp] theorem State.setRam_lineOut (a : Nat) (b : Byte) : (s.setRam a b).lineOut = s.lineOut := rfl
@[simp] theorem State.setRam_lineIn (a : Nat) (b : Byte) : (s.setRam a b).lineIn = s.lineIn := rfl
@[simp] theorem State.setRam_sched (a : Nat) (b : Byte) : (s.setRam a b).sched = s.sched := rfl
@[simp] theorem State.setRam_draws (a : Nat) (b : Byte) : (s.setRam a b).draws = s.draws := rfl

/-! ### `setReg` -/

@[simp] theorem State.setReg_cfg (r : RegIdx) (v : Word) : (s.setReg r v).cfg = s.cfg := rfl
@[simp] theorem State.setReg_prog (r : RegIdx) (v : Word) : (s.setReg r v).prog = s.prog := rfl
@[simp] theorem State.setReg_x (r : RegIdx) (v : Word) : (s.setReg r v).x = s.x.set r.toNat (some v) := rfl
@[simp] theorem State.setReg_opc (r : RegIdx) (v : Word) : (s.setReg r v).opc = s.opc := rfl
@[simp] theorem State.setReg_ram (r : RegIdx) (v : Word) : (s.setReg r v).ram = s.ram := rfl
@[simp] theorem State.setReg_status (r : RegIdx) (v : Word) : (s.setReg r v).status = s.status := rfl
@[simp] theorem State.setReg_ev (r : RegIdx) (v : Word) : (s.setReg r v).ev = s.ev := rfl
@[simp] theorem State.setReg_drv (r : RegIdx) (v : Word) : (s.setReg r v).drv = s.drv := rfl
@[simp] theorem State.setReg_op (r : RegIdx) (v : Word) : (s.setReg r v).op = s.op := rfl
@[simp] theorem State.setReg_gpio (r : RegIdx) (v : Word) : (s.setReg r v).gpio = s.gpio := rfl
@[simp] theorem State.setReg_aux (r : RegIdx) (v : Word) : (s.setReg r v).aux = s.aux := rfl
@[simp] theorem State.setReg_mu (r : RegIdx) (v : Word) : (s.setReg r v).mu = s.mu := rfl
@[simp] theorem State.setReg_pl (r : RegIdx) (v : Word) : (s.setReg r v).pl = s.pl := rfl
@[simp] theorem State.setReg_lineOut (r : RegIdx) (v : Word) : (s.setReg r v).lineOut = s.lineOut := rfl
@[simp] theorem State.setReg_lineIn (r : RegIdx) (v : Word) : (s.setReg r v).lineIn = s.lineIn := rfl
@[simp] theorem State.setReg_sched (r : RegIdx) (v : Word) : (s.setReg r v).sched = s.sched := rfl
@[simp] theorem State.setReg_draws (r : RegIdx) (v : Word) : (s.setReg r v).draws = s.draws := rfl

/-! ### `emit` -/

@[simp] theorem State.emit_cfg (e : Event) : (s.emit e).cfg = s.cfg := rfl
@[simp] theorem State.emit_prog (e : Event) : (s.emit e).prog = s.prog := rfl
@[simp] theorem State.emit_x (e : Event) : (s.emit e).x = s.x := rfl
@[simp] theorem State.emit_opc (e : Event) : (s.emit e).opc = s.opc := rfl
@[simp] theorem State.emit_ram (e : Event) : (s.emit e).ram = s.ram := rfl
@[simp] theorem State.emit_status (e : Event) : (s.emit e).status = s.status := rfl
@[simp] theorem State.emit_ev (e : Event) : (s.emit e).ev = s.ev ++ [e] := rfl
@[simp] theorem State.emit_drv (e : Event) : (s.emit e).drv = s.drv := rfl
@[simp] theorem State.emit_op (e : Event) : (s.emit e).op = s.op := rfl
@[simp] theorem State.emit_gpio (e : Event) : (s.emit e).gpio = s.gpio := rfl
@[simp] theorem State.emit_aux (e : Event) : (s.emit e).aux = s.aux := rfl
@[simp] theorem State.emit_mu (e : Event) : (s.emit e).mu = s.mu := rfl
@[simp] theorem State.emit_pl (e : Event) : (s.emit e).pl = s.pl := rfl
@[simp] theorem State.emit_lineOut (e : Event) : (s.emit e).lineOut = s.lineOut := rfl
@[simp] theorem State.emit_lineIn (e : Event) : (s.emit e).lineIn = s.lineIn := rfl
@[simp] theorem State.emit_sched (e : Event) : (s.emit e).sched = s.sched := rfl
@[simp] theorem State.emit_draws (e : Event) : (s.emit e).draws = s.draws := rfl

/-! ### `goto` -/

@[simp] theorem State.goto_cfg (target : Int) : (s.goto target).cfg = s.cfg := rfl
@[simp] theorem State.goto_prog (target : Int) : (s.goto target).prog = s.prog := rfl
@[simp] theorem State.goto_x (target : Int) : (s.goto target).x = s.x := rfl
@[simp] theorem State.goto_opc (target : Int) : (s.goto target).opc = target := rfl
@[simp] theorem State.goto_ram (target : Int) : (s.goto target).ram = s.ram := rfl
@[simp] theorem State.goto_status (target : Int) : (s.goto target).status = s.status := rfl
@[simp] theorem State.goto_ev (target : Int) : (s.goto target).ev = s.ev := rfl
@[simp] theorem State.goto_drv (target : Int) : (s.goto target).drv = s.drv := rfl
@[simp] theorem State.goto_op (target : Int) : (s.goto target).op = none := rfl
@[simp] theorem State.goto_gpio (target : Int) : (s.goto target).gpio = s.gpio := rfl
@[simp] theorem State.goto_aux (target : Int) : (s.goto target).aux = s.aux := rfl
@[simp] theorem State.goto_mu (target : Int) : (s.goto target).mu = s.mu := rfl
@[simp] theorem State.goto_pl (target : Int) : (s.goto target).pl = s.pl := rfl
@[simp] theorem State.goto_lineOut (target : Int) : (s.goto target).lineOut = s.lineOut := rfl
@[simp] theorem State.goto_lineIn (target : Int) : (s.goto target).lineIn = s.lineIn := rfl
@[simp] theorem State.goto_sched (target : Int) : (s.goto target).sched = s.sched := rfl
@[simp] theorem State.goto_draws (target : Int) : (s.goto target).draws = s.draws := rfl

/-! ### `finish` -/

@[simp] theorem State.finish_cfg : (s.finish).cfg = s.cfg := rfl
@[simp] theorem State.finish_prog : (s.finish).prog = s.prog := rfl
@[simp] theorem State.finish_x : (s.finish).x = s.x := rfl
@[simp] theorem State.finish_opc : (s.finish).opc = s.opc + 1 := rfl
@[simp] theorem State.finish_ram : (s.finish).ram = s.ram := rfl
@[simp] theorem State.finish_status : (s.finish).status = s.status := rfl
@[simp] theorem State.finish_ev : (s.finish).ev = s.ev := rfl
@[simp] theorem State.finish_drv : (s.finish).drv = s.drv := rfl
@[simp] theorem State.finish_op : (s.finish).op = none := rfl
@[simp] theorem State.finish_gpio : (s.finish).gpio = s.gpio := rfl
@[simp] theorem State.finish_aux : (s.finish).aux = s.aux := rfl
@[simp] theorem State.finish_mu : (s.finish).mu = s.mu := rfl
@[simp] theorem State.finish_pl : (s.finish).pl = s.pl := rfl
@[simp] theorem State.finish_lineOut : (s.finish).lineOut = s.lineOut := rfl
@[simp] theorem State.finish_lineIn : (s.finish).lineIn = s.lineIn := rfl
@[simp] theorem State.finish_sched : (s.finish).sched = s.sched := rfl
@[simp] theorem State.finish_draws : (s.finish).draws = s.draws := rfl

/-! ### `pause` -/

@[simp] theorem State.pause_cfg (i : Instr) (m : Micro) : (s.pause i m).cfg = s.cfg := rfl
@[simp] theorem State.pause_prog (i : Instr) (m : Micro) : (s.pause i m).prog = s.prog := rfl
@[simp] theorem State.pause_x (i : Instr) (m : Micro) : (s.pause i m).x = s.x := rfl
@[simp] theorem State.pause_opc (i : Instr) (m : Micro) : (s.pause i m).opc = s.opc := rfl
@[simp] theorem State.pause_ram (i : Instr) (m : Micro) : (s.pause i m).ram = s.ram := rfl
@[simp] theorem State.pause_status (i : Instr) (m : Micro) : (s.pause i m).status = s.status := rfl
@[simp] theorem State.pause_ev (i : Instr) (m : Micro) : (s.pause i m).ev = s.ev := rfl
@[simp] theorem State.pause_drv (i : Instr) (m : Micro) : (s.pause i m).drv = s.drv := rfl
@[simp] theorem State.pause_op (i : Instr) (m : Micro) : (s.pause i m).op = some ⟨i, m⟩ := rfl
@[simp] theorem State.pause_gpio (i : Instr) (m : Micro) : (s.pause i m).gpio = s.gpio := rfl
@[simp] theorem State.pause_aux (i : Instr) (m : Micro) : (s.pause i m).aux = s.aux := rfl
@[simp] theorem State.pause_mu (i : Instr) (m : Micro) : (s.pause i m).mu = s.mu := rfl
@[simp] theorem State.pause_pl (i : Instr) (m : Micro) : (s.pause i m).pl = s.pl := rfl
@[simp] theorem State.pause_lineOut (i : Instr) (m : Micro) : (s.pause i m).lineOut = s.lineOut := rfl
@[simp] theorem State.pause_lineIn (i : Instr) (m : Micro) : (s.pause i m).lineIn = s.lineIn := rfl
@[simp] theorem State.pause_sched (i : Instr) (m : Micro) : (s.pause i m).sched = s.sched := rfl
@[simp] theorem State.pause_draws (i : Instr) (m : Micro) : (s.pause i m).draws = s.draws := rfl

/-! ### `raise` -/

@[simp] theorem State.raise_cfg (c : Cause) : (s.raise c).cfg = s.cfg := rfl
@[simp] theorem State.raise_prog (c : Cause) : (s.raise c).prog = s.prog := rfl
@[simp] theorem State.raise_x (c : Cause) : (s.raise c).x = s.x := rfl
@[simp] theorem State.raise_opc (c : Cause) : (s.raise c).opc = s.opc := rfl
@[simp] theorem State.raise_ram (c : Cause) : (s.raise c).ram = s.ram := rfl
@[simp] theorem State.raise_status (c : Cause) : (s.raise c).status = .faulted c s.opc := rfl
@[simp] theorem State.raise_ev (c : Cause) : (s.raise c).ev = s.ev ++ [.fault c.code] := rfl
@[simp] theorem State.raise_drv (c : Cause) : (s.raise c).drv = s.drv := rfl
@[simp] theorem State.raise_op (c : Cause) : (s.raise c).op = none := rfl
@[simp] theorem State.raise_gpio (c : Cause) : (s.raise c).gpio = s.gpio := rfl
@[simp] theorem State.raise_aux (c : Cause) : (s.raise c).aux = s.aux := rfl
@[simp] theorem State.raise_mu (c : Cause) : (s.raise c).mu = s.mu := rfl
@[simp] theorem State.raise_pl (c : Cause) : (s.raise c).pl = s.pl := rfl
@[simp] theorem State.raise_lineOut (c : Cause) : (s.raise c).lineOut = s.lineOut := rfl
@[simp] theorem State.raise_lineIn (c : Cause) : (s.raise c).lineIn = s.lineIn := rfl
@[simp] theorem State.raise_sched (c : Cause) : (s.raise c).sched = s.sched := rfl
@[simp] theorem State.raise_draws (c : Cause) : (s.raise c).draws = s.draws := rfl

/-! ### `initDone` -/

@[simp] theorem State.initDone_cfg : (s.initDone).cfg = s.cfg := rfl
@[simp] theorem State.initDone_prog : (s.initDone).prog = s.prog := rfl
@[simp] theorem State.initDone_x : (s.initDone).x = s.x := rfl
@[simp] theorem State.initDone_opc : (s.initDone).opc = s.opc + 1 := rfl
@[simp] theorem State.initDone_ram : (s.initDone).ram = s.ram := rfl
@[simp] theorem State.initDone_status : (s.initDone).status = s.status := rfl
@[simp] theorem State.initDone_ev : (s.initDone).ev = s.ev := rfl
@[simp] theorem State.initDone_drv : (s.initDone).drv = .ready := rfl
@[simp] theorem State.initDone_op : (s.initDone).op = none := rfl
@[simp] theorem State.initDone_gpio : (s.initDone).gpio = s.gpio := rfl
@[simp] theorem State.initDone_aux : (s.initDone).aux = s.aux := rfl
@[simp] theorem State.initDone_mu : (s.initDone).mu = s.mu := rfl
@[simp] theorem State.initDone_pl : (s.initDone).pl = s.pl := rfl
@[simp] theorem State.initDone_lineOut : (s.initDone).lineOut = s.lineOut := rfl
@[simp] theorem State.initDone_lineIn : (s.initDone).lineIn = s.lineIn := rfl
@[simp] theorem State.initDone_sched : (s.initDone).sched = s.sched := rfl
@[simp] theorem State.initDone_draws : (s.initDone).draws = s.draws := rfl

/-! ### Accessors -/

/-- A register reads back the value just written. -/
@[simp] theorem State.reg_setReg_same (r : RegIdx) (v : Word) : (s.setReg r v).reg r = some v := by
  simp [State.reg]

/-- Writing a register leaves every other one. -/
theorem State.reg_setReg_other {r q : RegIdx} (h : q ≠ r) (v : Word) : (s.setReg r v).reg q = s.reg q := by
  have : r.toNat ≠ q.toNat := fun e => h (BitVec.eq_of_toNat_eq e.symm)
  simp [State.reg, this]

@[simp] theorem State.reg_setRam (a : Nat) (b : Byte) (r : RegIdx) : (s.setRam a b).reg r = s.reg r := rfl
@[simp] theorem State.reg_emit (e : Event) (r : RegIdx) : (s.emit e).reg r = s.reg r := rfl
@[simp] theorem State.reg_goto (t : Int) (r : RegIdx) : (s.goto t).reg r = s.reg r := rfl
@[simp] theorem State.reg_finish (r : RegIdx) : s.finish.reg r = s.reg r := rfl
@[simp] theorem State.reg_pause (i : Instr) (m : Micro) (r : RegIdx) : (s.pause i m).reg r = s.reg r := rfl
@[simp] theorem State.reg_raise (c : Cause) (r : RegIdx) : (s.raise c).reg r = s.reg r := rfl

@[simp] theorem State.ramByte_setReg (r : RegIdx) (v : Word) (a : Nat) : (s.setReg r v).ramByte a = s.ramByte a := rfl
@[simp] theorem State.ramByte_emit (e : Event) (a : Nat) : (s.emit e).ramByte a = s.ramByte a := rfl
@[simp] theorem State.ramByte_goto (t : Int) (a : Nat) : (s.goto t).ramByte a = s.ramByte a := rfl
@[simp] theorem State.ramByte_finish (a : Nat) : s.finish.ramByte a = s.ramByte a := rfl
@[simp] theorem State.ramByte_pause (i : Instr) (m : Micro) (a : Nat) : (s.pause i m).ramByte a = s.ramByte a := rfl
@[simp] theorem State.ramByte_raise (c : Cause) (a : Nat) : (s.raise c).ramByte a = s.ramByte a := rfl

/-! ### The operation context -/

/-- With no operation in progress, an instruction starts. -/
theorem State.microOf_idle (h : s.op = none) (i : Instr) : s.microOf i = .start := by simp [State.microOf, h]

/-- An operation left at a micro-step takes that one next. -/
@[simp] theorem State.microOf_pause (i : Instr) (m : Micro) : (s.pause i m).microOf i = m := by
  simp [State.microOf]

/-- The operation in progress takes the micro-step of its context. -/
theorem State.microOf_op {o : Op} (h : s.op = some o) : s.microOf o.instr = o.micro := by simp [State.microOf, h]

end Sys2Proof.Machine
end

