-- ==== Sys2Proof/Laws/Memory.lean ====
section
/-! SUPPORT. The harness RAM: a byte written reads back, every other byte is left, and the canonical form and the address
bound are kept. -/

namespace Sys2Proof.Machine

/-- The byte written reads back. -/
theorem Memory.read_write_same (m : List Host.Cell) (a : Nat) (b : Byte) (h : Memory.wf m = true) :
    Memory.read (Memory.write m a b) a = b := by
  induction m with
  | nil => by_cases hb : b = Memory.blank <;> simp [Memory.write, Memory.read, hb]
  | cons e rest ih =>
    obtain ⟨k, c⟩ := e
    simp only [Memory.wf, Bool.and_eq_true, bne_iff_ne, List.all_eq_true, decide_eq_true_eq] at h
    obtain ⟨⟨_, hlt⟩, hwf⟩ := h
    have absent : ∀ (l : List Host.Cell) (x : Nat), (∀ e ∈ l, x < e.1) → Memory.read l x = Memory.blank := by
      intro l x hl
      induction l with
      | nil => rfl
      | cons e l ih2 =>
        have := hl e (by simp)
        rw [Memory.read, if_neg (by omega), ih2 fun e he => hl e (by simp [he])]
    unfold Memory.write
    split_ifs with h1 h2 h3 h4
    · rw [Memory.read, if_neg (by omega), absent _ _ fun e he => by have := hlt e he; omega, h2]
    · simp [Memory.read]
    · rw [absent _ _ fun e he => by have := hlt e he; omega, h4]
    · simp [Memory.read]
    · rw [Memory.read, if_neg (by omega), ih hwf]

/-- Every other byte is left. -/
theorem Memory.read_write_other (m : List Host.Cell) {a q : Nat} (hq : q ≠ a) (b : Byte) :
    Memory.read (Memory.write m a b) q = Memory.read m q := by
  induction m with
  | nil => by_cases hb : b = Memory.blank <;> simp [Memory.write, Memory.read, hb, Ne.symm hq]
  | cons e rest ih =>
    obtain ⟨k, c⟩ := e
    unfold Memory.write
    split_ifs with h1 h2 h3 h4
    · rfl
    · simp [Memory.read, Ne.symm hq]
    · simp [Memory.read, ← h3, Ne.symm hq]
    · simp [Memory.read, ← h3, Ne.symm hq]
    · simp only [Memory.read, ih]

/-- The entries of a written memory: the written cell, or entries that were there. -/
theorem Memory.mem_write {m : List Host.Cell} {a : Nat} {b : Byte} {e : Host.Cell} (h : e ∈ Memory.write m a b) :
    e = (a, b) ∨ e ∈ m := by
  induction m with
  | nil =>
    unfold Memory.write at h
    split_ifs at h
    · simp at h
    · simpa using h
  | cons f rest ih =>
    obtain ⟨k, c⟩ := f
    unfold Memory.write at h
    split_ifs at h
    · exact .inr h
    · simpa using h
    · exact .inr (by simp [h])
    · rcases List.mem_cons.1 h with h | h
      · exact .inl h
      · exact .inr (by simp [h])
    · rcases List.mem_cons.1 h with h | h
      · exact .inr (by simp [h])
      · rcases ih h with h | h
        · exact .inl h
        · exact .inr (by simp [h])

/-- A write keeps the canonical form. -/
theorem Memory.wf_write (m : List Host.Cell) (a : Nat) (b : Byte) (h : Memory.wf m = true) :
    Memory.wf (Memory.write m a b) = true := by
  induction m with
  | nil => by_cases hb : b = Memory.blank <;> simp [Memory.write, Memory.wf, hb]
  | cons e rest ih =>
    obtain ⟨k, c⟩ := e
    have h0 := h
    simp only [Memory.wf, Bool.and_eq_true, bne_iff_ne, List.all_eq_true, decide_eq_true_eq] at h
    obtain ⟨⟨hc, hlt⟩, hwf⟩ := h
    unfold Memory.write
    split_ifs with h1 h2 h3 h4
    · exact h0
    · simp only [Memory.wf, Bool.and_eq_true, bne_iff_ne, List.all_eq_true, decide_eq_true_eq]
      refine ⟨⟨h2, ?_⟩, ⟨hc, hlt⟩, hwf⟩
      intro e he
      rcases List.mem_cons.1 he with rfl | he
      · exact h1
      · have := hlt e he; omega
    · exact hwf
    · simp only [Memory.wf, Bool.and_eq_true, bne_iff_ne, List.all_eq_true, decide_eq_true_eq]
      exact ⟨⟨h4, fun e he => by have := hlt e he; omega⟩, hwf⟩
    · simp only [Memory.wf, Bool.and_eq_true, bne_iff_ne, List.all_eq_true, decide_eq_true_eq]
      refine ⟨⟨hc, ?_⟩, ih hwf⟩
      intro e he
      rcases Memory.mem_write he with rfl | he
      · show k < a; omega
      · exact hlt e he

/-- Writing inside the RAM keeps it sound. -/
theorem State.ramSound_setRam {s : State} {a : Nat} (b : Byte) (h : s.ramSound) (ha : a < s.cfg.ramSize) :
    (s.setRam a b).ramSound := by
  refine ⟨Memory.wf_write _ _ _ h.1, ?_⟩
  intro e he
  rcases Memory.mem_write he with rfl | he
  · exact ha
  · exact h.2 e he

/-- A byte of RAM reads back. -/
theorem State.ramByte_setRam_same {s : State} (h : Memory.wf s.ram = true) (a : Nat) (b : Byte) :
    (s.setRam a b).ramByte a = b := Memory.read_write_same _ _ _ h

/-- The other bytes of RAM are left. -/
theorem State.ramByte_setRam_other (s : State) {a q : Nat} (hq : q ≠ a) (b : Byte) :
    (s.setRam a b).ramByte q = s.ramByte q := Memory.read_write_other _ hq _

end Sys2Proof.Machine
end

