-- ==== Sys2Proof/Laws/Access.lean ====
section
/-! SUPPORT. Register accesses: what a read and a write leave alone, what the two primitives answer, and reading a bit of
a value of which only some bits are defined. -/

namespace Sys2Proof.Machine

/-! ### Values with draws -/

/-- A defined bit of a drawn value is the known one. -/
theorem Drawn.word_defined (d : Drawn) {i : Nat} (h : d.mask.getLsbD i = true) :
    d.word.getLsbD i = d.known.getLsbD i := by
  simp [Drawn.word, h]

/-- `bit` is the bit of the value. -/
theorem Drawn.bit_eq (d : Drawn) {i : Nat} (h : i < 32) : d.bit i = d.word.getLsbD i := by
  unfold Drawn.bit Drawn.word
  split_ifs with hm <;> simp [h] at hm ⊢ <;> simp [hm]

/-- `byte` is bits 7:0 of the value. -/
theorem Drawn.byte_eq (d : Drawn) : d.byte = d.word.setWidth 8 := by
  unfold Drawn.byte
  split_ifs with hm
  · ext i hi
    have hb : d.mask.getLsbD i = true := by
      have := congrArg (fun v : BitVec 8 => v.getLsbD i) hm
      simp only [BitVec.getLsbD_setWidth, hi, decide_true, Bool.true_and] at this
      rw [this]
      have all : ∀ i < 8, (0xFF : BitVec 8).getLsbD i = true := by decide
      exact all i hi
    simp [Drawn.word, hb]
  · rfl

/-! ### The map -/

/-- Every register of the map stands at a multiple of 4 (R110). -/
theorem regAt_aligned {blk : Block} {off : Nat} {r : PReg} (h : regAt blk off = some r) : off % 4 = 0 := by
  cases blk <;> simp only [regAt] at h <;> split at h <;> first | rfl | cases h

/-! ### Reads -/

section
variable (s : State) (blk : Block) (off : Nat) (r : PReg)

@[simp] theorem State.readReg_cfg : (s.readReg blk off r).cfg = s.cfg := by
  cases r <;> try rfl
  all_goals (rename_i q; cases q <;> rfl)
@[simp] theorem State.readReg_prog : (s.readReg blk off r).prog = s.prog := by
  cases r <;> try rfl
  all_goals (rename_i q; cases q <;> rfl)
@[simp] theorem State.readReg_x : (s.readReg blk off r).x = s.x := by
  cases r <;> try rfl
  all_goals (rename_i q; cases q <;> rfl)
@[simp] theorem State.readReg_opc : (s.readReg blk off r).opc = s.opc := by
  cases r <;> try rfl
  all_goals (rename_i q; cases q <;> rfl)
@[simp] theorem State.readReg_ram : (s.readReg blk off r).ram = s.ram := by
  cases r <;> try rfl
  all_goals (rename_i q; cases q <;> rfl)
@[simp] theorem State.readReg_status : (s.readReg blk off r).status = s.status := by
  cases r <;> try rfl
  all_goals (rename_i q; cases q <;> rfl)
@[simp] theorem State.readReg_drv : (s.readReg blk off r).drv = s.drv := by
  cases r <;> try rfl
  all_goals (rename_i q; cases q <;> rfl)
@[simp] theorem State.readReg_op : (s.readReg blk off r).op = s.op := by
  cases r <;> try rfl
  all_goals (rename_i q; cases q <;> rfl)
@[simp] theorem State.readReg_gpio : (s.readReg blk off r).gpio = s.gpio := by
  cases r <;> try rfl
  all_goals (rename_i q; cases q <;> rfl)
@[simp] theorem State.readReg_aux : (s.readReg blk off r).aux = s.aux := by
  cases r <;> try rfl
  all_goals (rename_i q; cases q <;> rfl)
@[simp] theorem State.readReg_lineOut : (s.readReg blk off r).lineOut = s.lineOut := by
  cases r <;> try rfl
  all_goals (rename_i q; cases q <;> rfl)
@[simp] theorem State.readReg_lineIn : (s.readReg blk off r).lineIn = s.lineIn := by
  cases r <;> try rfl
  all_goals (rename_i q; cases q <;> rfl)
@[simp] theorem State.readReg_sched : (s.readReg blk off r).sched = s.sched := by
  cases r <;> try rfl
  all_goals (rename_i q; cases q <;> rfl)
@[simp] theorem State.readReg_draws : (s.readReg blk off r).draws = s.draws + 1 := rfl
@[simp] theorem State.readReg_mu : (s.readReg blk off r).mu = (s.readEffect r).mu := rfl
@[simp] theorem State.readReg_pl : (s.readReg blk off r).pl = (s.readEffect r).pl := rfl
@[simp] theorem State.readReg_ev :
    (s.readReg blk off r).ev = s.ev ++ [.rd blk off (s.drawnOf r).word] := by
  cases r <;> try rfl
  all_goals (rename_i q; cases q <;> rfl)
@[simp] theorem State.readReg_reg (q : RegIdx) : (s.readReg blk off r).reg q = s.reg q := by simp [State.reg]
@[simp] theorem State.readReg_ramByte (a : Nat) : (s.readReg blk off r).ramByte a = s.ramByte a := by
  simp [State.ramByte]
end

/-! ### Writes -/

section
variable (s : State) (blk : Block) (off : Nat) (r : PReg) (v : Word)

@[simp] theorem State.writeSel_other (k : Nat) :
    (s.writeSel k v).cfg = s.cfg ∧ (s.writeSel k v).prog = s.prog ∧ (s.writeSel k v).x = s.x ∧
      (s.writeSel k v).opc = s.opc ∧ (s.writeSel k v).ram = s.ram ∧ (s.writeSel k v).status = s.status ∧
      (s.writeSel k v).ev = s.ev ∧ (s.writeSel k v).drv = s.drv ∧ (s.writeSel k v).op = s.op ∧
      (s.writeSel k v).aux = s.aux ∧ (s.writeSel k v).lineOut = s.lineOut ∧ (s.writeSel k v).lineIn = s.lineIn ∧
      (s.writeSel k v).sched = s.sched ∧ (s.writeSel k v).draws = s.draws := by
  unfold State.writeSel; dsimp only; split_ifs <;> simp

@[simp] theorem State.writeEnables_other :
    (s.writeEnables v).cfg = s.cfg ∧ (s.writeEnables v).prog = s.prog ∧ (s.writeEnables v).x = s.x ∧
      (s.writeEnables v).opc = s.opc ∧ (s.writeEnables v).ram = s.ram ∧ (s.writeEnables v).status = s.status ∧
      (s.writeEnables v).ev = s.ev ∧ (s.writeEnables v).drv = s.drv ∧ (s.writeEnables v).op = s.op ∧
      (s.writeEnables v).gpio = s.gpio ∧ (s.writeEnables v).pl = s.pl ∧ (s.writeEnables v).lineOut = s.lineOut ∧
      (s.writeEnables v).lineIn = s.lineIn ∧ (s.writeEnables v).sched = s.sched := by
  unfold State.writeEnables; dsimp only; split_ifs <;> simp

@[simp] theorem State.writeReg_cfg : (s.writeReg blk off r v).cfg = s.cfg := by
  cases r <;> simp [State.writeReg, State.writeEffect]
@[simp] theorem State.writeReg_prog : (s.writeReg blk off r v).prog = s.prog := by
  cases r <;> simp [State.writeReg, State.writeEffect]
@[simp] theorem State.writeReg_x : (s.writeReg blk off r v).x = s.x := by
  cases r <;> simp [State.writeReg, State.writeEffect]
@[simp] theorem State.writeReg_opc : (s.writeReg blk off r v).opc = s.opc := by
  cases r <;> simp [State.writeReg, State.writeEffect]
@[simp] theorem State.writeReg_ram : (s.writeReg blk off r v).ram = s.ram := by
  cases r <;> simp [State.writeReg, State.writeEffect]
@[simp] theorem State.writeReg_status : (s.writeReg blk off r v).status = s.status := by
  cases r <;> simp [State.writeReg, State.writeEffect]
@[simp] theorem State.writeReg_drv : (s.writeReg blk off r v).drv = s.drv := by
  cases r <;> simp [State.writeReg, State.writeEffect]
@[simp] theorem State.writeReg_op : (s.writeReg blk off r v).op = s.op := by
  cases r <;> simp [State.writeReg, State.writeEffect]
@[simp] theorem State.writeReg_lineOut : (s.writeReg blk off r v).lineOut = s.lineOut := by
  cases r <;> simp [State.writeReg, State.writeEffect]
@[simp] theorem State.writeReg_lineIn : (s.writeReg blk off r v).lineIn = s.lineIn := by
  cases r <;> simp [State.writeReg, State.writeEffect]
@[simp] theorem State.writeReg_sched : (s.writeReg blk off r v).sched = s.sched := by
  cases r <;> simp [State.writeReg, State.writeEffect]
@[simp] theorem State.writeReg_ev : (s.writeReg blk off r v).ev = s.ev ++ [.wr blk off v] := by
  cases r <;> simp [State.writeReg, State.writeEffect]
@[simp] theorem State.writeReg_gpio : (s.writeReg blk off r v).gpio = (s.writeEffect r v).gpio := rfl
@[simp] theorem State.writeReg_aux : (s.writeReg blk off r v).aux = (s.writeEffect r v).aux := rfl
@[simp] theorem State.writeReg_mu : (s.writeReg blk off r v).mu = (s.writeEffect r v).mu := rfl
@[simp] theorem State.writeReg_pl : (s.writeReg blk off r v).pl = (s.writeEffect r v).pl := rfl
@[simp] theorem State.writeReg_draws : (s.writeReg blk off r v).draws = (s.writeEffect r v).draws := rfl
@[simp] theorem State.writeReg_reg (q : RegIdx) : (s.writeReg blk off r v).reg q = s.reg q := by simp [State.reg]
@[simp] theorem State.writeReg_ramByte (a : Nat) : (s.writeReg blk off r v).ramByte a = s.ramByte a := by
  simp [State.ramByte]
end

/-! ### The primitives -/

/-- What a read that passes its check answers. -/
theorem regRead_ok {blk : Block} {off : Nat} {s : State} {r : PReg} (h : checkRead blk off s = .ok r)
    (k : Drawn → State → Res) : regRead blk off s k = k (s.drawnOf r) (s.readReg blk off r) := by
  simp [regRead, h]

/-- What a read that fails its check answers. -/
theorem regRead_error {blk : Block} {off : Nat} {s : State} {c : Cause} (h : checkRead blk off s = .error c)
    (k : Drawn → State → Res) : regRead blk off s k = .next (s.raise c) := by
  simp [regRead, h, raise]

/-- What a write that passes its check answers. -/
theorem regWrite_ok {blk : Block} {off : Nat} {v : Word} {s : State} {r : PReg} (h : checkWrite blk off v s = .ok r)
    (k : State → Res) : regWrite blk off v s k = k (s.writeReg blk off r v) := by
  simp [regWrite, h]

/-- What a write that fails its check answers. -/
theorem regWrite_error {blk : Block} {off : Nat} {v : Word} {s : State} {c : Cause}
    (h : checkWrite blk off v s = .error c) (k : State → Res) : regWrite blk off v s k = .next (s.raise c) := by
  simp [regWrite, h, raise]

/-- A read's check passes exactly on a register of the map that is not blocked. -/
theorem checkRead_ok_iff {blk : Block} {off : Nat} {s : State} {r : PReg} :
    checkRead blk off s = .ok r ↔ regAt blk off = some r ∧ auxBlocked r s = false := by
  unfold checkRead
  cases hr : regAt blk off with
  | none => simp
  | some q =>
    cases hb : auxBlocked q s
    · simp only [hb, Bool.false_eq_true, if_false, Except.ok.injEq, Option.some.injEq]
      exact ⟨fun h => ⟨h, h ▸ hb⟩, fun h => h.1⟩
    · simp only [hb, if_true, reduceCtorEq, Option.some.injEq, false_iff, not_and]
      rintro rfl; simp [hb]

/-- A write's check passes exactly on a register of the map that is not refused, not blocked and raises no fault of its
own. -/
theorem checkWrite_ok_iff {blk : Block} {off : Nat} {v : Word} {s : State} {r : PReg} :
    checkWrite blk off v s = .ok r ↔
      regAt blk off = some r ∧ writeRefused r v s = false ∧ auxBlocked r s = false ∧ writeFault r off v s = none := by
  unfold checkWrite
  cases hr : regAt blk off with
  | none => simp
  | some q =>
    simp only [Option.some.injEq]
    constructor
    · intro h
      split_ifs at h with hw hb
      split at h
      · cases h
      · cases h
        exact ⟨rfl, by simpa using hw, by simpa using hb, by assumption⟩
    · rintro ⟨rfl, hw, hb, hf⟩
      simp [hw, hb, hf]

/-! ### Claims about every answer -/

/-- `Q` holds of the next state an answer gives. -/
def Res.all (Q : State → Prop) : Res → Prop
  | .next t => Q t
  | .fault _ => False
  | .refused _ => False

/-- An answer of which `Q` holds is a next state with `Q`. -/
theorem Res.all_iff {Q : State → Prop} {o : Res} : o.all Q ↔ ∃ t, o = .next t ∧ Q t := by
  cases o <;> simp [Res.all]

theorem raise_all {Q : State → Prop} {c : Cause} {s : State} (h : Q (s.raise c)) : (raise c s).all Q := h

/-- A read's answer, from its two cases. -/
theorem regRead_all {Q : State → Prop} {blk : Block} {off : Nat} {s : State} {k : Drawn → State → Res}
    (bad : ∀ c, checkRead blk off s = .error c → Q (s.raise c))
    (good : ∀ r, checkRead blk off s = .ok r → (k (s.drawnOf r) (s.readReg blk off r)).all Q) :
    (regRead blk off s k).all Q := by
  unfold regRead
  cases h : checkRead blk off s with
  | error c => exact bad c h
  | ok r => exact good r h

/-- A write's answer, from its two cases. -/
theorem regWrite_all {Q : State → Prop} {blk : Block} {off : Nat} {v : Word} {s : State} {k : State → Res}
    (bad : ∀ c, checkWrite blk off v s = .error c → Q (s.raise c))
    (good : ∀ r, checkWrite blk off v s = .ok r → (k (s.writeReg blk off r v)).all Q) :
    (regWrite blk off v s k).all Q := by
  unfold regWrite
  cases h : checkWrite blk off v s with
  | error c => exact bad c h
  | ok r => exact good r h

/-! ### Operand checks -/

/-- What a register operand answers. -/
theorem withReg_some {r : RegIdx} {s : State} {v : Word} (h : s.reg r = some v) (k : Word → Res) :
    withReg r s k = k v := by simp [withReg, h]

theorem withReg_none {r : RegIdx} {s : State} (h : s.reg r = none) (k : Word → Res) :
    withReg r s k = .next (s.raise (.unwritten r)) := by simp [withReg, h, raise]

theorem withReg_all {Q : State → Prop} {r : RegIdx} {s : State} {k : Word → Res}
    (bad : s.reg r = none → Q (s.raise (.unwritten r))) (good : ∀ v, s.reg r = some v → (k v).all Q) :
    (withReg r s k).all Q := by
  unfold withReg
  cases h : s.reg r with
  | none => exact bad h
  | some v => exact good v h

theorem withReady_ready {op : BitVec 8} {s : State} (h : s.drv = .ready) (k : Res) : withReady op s k = k := by
  simp [withReady, h]

theorem withReady_uninit {op : BitVec 8} {s : State} (h : s.drv = .uninit) (k : Res) :
    withReady op s k = .next (s.raise (.uninit op)) := by simp [withReady, h, raise]

theorem withReady_all {Q : State → Prop} {op : BitVec 8} {s : State} {k : Res}
    (bad : s.drv = .uninit → Q (s.raise (.uninit op))) (good : s.drv = .ready → k.all Q) :
    (withReady op s k).all Q := by
  unfold withReady
  cases h : s.drv with
  | ready => exact good h
  | uninit => exact bad h

theorem withRam_in {a n : Nat} {s : State} (h : a + n ≤ s.cfg.ramSize) (k : Res) : withRam a n s k = k := by
  simp [withRam, State.inRam, h]

theorem withRam_out {a n : Nat} {s : State} (h : s.cfg.ramSize < a + n) (k : Res) :
    withRam a n s k = .next (s.raise (.ramRange a n)) := by simp [withRam, State.inRam, raise, Nat.not_le.2 h]

theorem withRam_all {Q : State → Prop} {a n : Nat} {s : State} {k : Res}
    (bad : s.cfg.ramSize < a + n → Q (s.raise (.ramRange a n))) (good : a + n ≤ s.cfg.ramSize → k.all Q) :
    (withRam a n s k).all Q := by
  by_cases h : a + n ≤ s.cfg.ramSize
  · rw [withRam_in h]; exact good h
  · rw [withRam_out (Nat.not_le.1 h)]; exact bad (Nat.not_le.1 h)

theorem withBlock_ok {i : Instr} {rc : BitVec 4} {s : State} {b : Block} (h : decodeBlock rc = some b)
    (k : Block → Res) : withBlock i rc s k = k b := by simp [withBlock, h]

theorem withBlock_all {Q : State → Prop} {i : Instr} {rc : BitVec 4} {s : State} {k : Block → Res}
    (bad : decodeBlock rc = none → Q (s.raise (.illegal (encode i))))
    (good : ∀ b, decodeBlock rc = some b → (k b).all Q) : (withBlock i rc s k).all Q := by
  unfold withBlock
  cases h : decodeBlock rc with
  | none => exact bad h
  | some b => exact good b h

theorem withBitIndex_in {n : Imm12} {s : State} (h : n.toNat < 32) (k : Nat → Res) :
    withBitIndex n s k = k n.toNat := by
  simp [withBitIndex, uimm12, show ¬31 < n.toNat by omega]

theorem withBitIndex_out {n : Imm12} {s : State} (h : 32 ≤ n.toNat) (k : Nat → Res) :
    withBitIndex n s k = .next (s.raise (.shiftRange n.toNat)) := by
  simp [withBitIndex, uimm12, raise, show 31 < n.toNat by omega]

theorem withBitIndex_all {Q : State → Prop} {n : Imm12} {s : State} {k : Nat → Res}
    (bad : 32 ≤ n.toNat → Q (s.raise (.shiftRange n.toNat))) (good : n.toNat < 32 → (k n.toNat).all Q) :
    (withBitIndex n s k).all Q := by
  by_cases h : n.toNat < 32
  · rw [withBitIndex_in h]; exact good h
  · rw [withBitIndex_out (Nat.not_lt.1 h)]; exact bad (Nat.not_lt.1 h)

end Sys2Proof.Machine
end

