-- ==== Sys2Proof/Laws/Bits.lean ====
section
/-! SUPPORT. Single bits and fields of 32-bit values: the one-bit mask, the value of `read_bit`, the address of a RAM access,
and the pin fields of a function-select word. -/

namespace Sys2Proof.Machine

/-- The one-bit mask, bit by bit. -/
theorem one_shift_bit {n k : Nat} (hk : k < 32) : ((1 : Word) <<< n).getLsbD k = decide (k = n) := by
  simp only [BitVec.getLsbD_shiftLeft, BitVec.ofNat_eq_ofNat, BitVec.getLsbD_one]
  by_cases h : k = n <;> simp [h] <;> omega

/-- A word with at most one bit set, bit by bit. -/
theorem bitIf_bit (i : Nat) (b : Bool) {k : Nat} (hk : k < 32) : (bitIf i b).getLsbD k = (decide (k = i) && b) := by
  unfold bitIf
  split_ifs with h
  · rw [one_shift_bit hk]; simp [h]
  · simp [h]

/-- The same, by index. -/
theorem bitIf_get (i : Nat) (b : Bool) {k : Nat} (hk : k < 32) : (bitIf i b)[k] = (decide (k = i) && b) := by
  rw [← BitVec.getLsbD_eq_getElem hk, bitIf_bit i b hk]

/-- `read_bit` as a bit of the value. -/
theorem readBit_eq (v : Word) (n : Nat) : readBit v n = if v.getLsbD n then 1 else 0 := by
  unfold readBit
  apply BitVec.eq_of_getLsbD_eq
  intro k hk
  by_cases hk0 : k = 0
  · subst hk0; by_cases hb : v.getLsbD n <;> simp [hb]
  · by_cases hb : v.getLsbD n <;> simp [hb, BitVec.getLsbD_one, hk0]

/-- `is_bit_set` as a bit of the value. -/
theorem isBitSet_eq (v : Word) {n : Nat} (hn : n < 32) : isBitSet v n = if v.getLsbD n then 1 else 0 := by
  unfold isBitSet
  congr 1
  rw [eq_iff_iff]
  constructor
  · intro hne
    by_contra hc
    apply hne
    apply BitVec.eq_of_getLsbD_eq
    intro k hk
    rw [BitVec.getLsbD_and, one_shift_bit hk]
    by_cases hkn : k = n
    · subst hkn; simp [hc]
    · simp [hkn]
  · intro ht h0
    have := congrArg (·.getLsbD n) h0
    simp only [BitVec.getLsbD_and, ht, one_shift_bit hn] at this
    simp at this

/-- A RAM address is base plus signed offset modulo 2^32. -/
theorem ramAddr_eq (base : Word) (imm : Imm16) : (ramAddr base imm : Int) = (base.toNat + imm.toInt) % 2 ^ 32 := by
  have h : base + sext16 imm = BitVec.ofInt 32 (base.toNat + imm.toInt) := by
    rw [BitVec.ofInt_add, sext16, BitVec.ofInt_natCast, BitVec.ofNat_toNat, BitVec.setWidth_eq]
    congr 1
  rw [ramAddr, h, BitVec.toNat_ofInt]
  omega

/-- The field of pin `10k + j` in the function-select word. -/
theorem Gpio.selWord_field (g : Gpio) (k : Nat) {j : Nat} (hj : j < 10) :
    (g.selWord k).extractLsb' (3 * j) 3 = g.fselAt (10 * k + j) := by
  apply BitVec.eq_of_getLsbD_eq
  intro i hi
  have h1 : 3 * j + i < 32 := by omega
  have h2 : (3 * j + i) / 3 = j := by omega
  have h3 : (3 * j + i) % 3 = i := by omega
  have h4 : 3 * j + i < 30 := by omega
  simp [Gpio.selWord, hi, h1, h2, h3, h4]

/-- A pin's function after a write of a function-select register. -/
theorem Gpio.fselAt_writeSel (g : Gpio) (k : Nat) (v : Word) {p : Nat} (hp : p < 54) :
    (g.writeSel k v).fselAt p = if p / 10 = k then v.extractLsb' (3 * (p % 10)) 3 else g.fselAt p := by
  simp [Gpio.fselAt, Gpio.writeSel, hp]

/-- A pin the registers do not have keeps reading 0. -/
theorem Gpio.fselAt_none (g : Gpio) {p : Nat} (hp : 54 ≤ p) : g.fselAt p = 0 := by
  simp [Gpio.fselAt, show ¬p < 54 by omega]

end Sys2Proof.Machine
end

