-- ==== Sys2Proof/Laws/Decode.lean ====
section
/-! SUPPORT. The fields of a command word built from its fields (R174), and a word rebuilt from its fields. -/

namespace Sys2Proof

section
variable (opc : BitVec 8) (ra rb rc : RegIdx) (imm : Imm12) (imm16 : Imm16)

@[simp] theorem opcField_wordR : opcField (wordR opc ra rb rc imm) = opc := by
  ext i hi
  simp only [opcField, wordR, BitVec.getElem_extractLsb', BitVec.getLsbD_append]
  interval_cases i <;> simp

@[simp] theorem raField_wordR : raField (wordR opc ra rb rc imm) = ra := by
  ext i hi
  simp only [raField, wordR, BitVec.getElem_extractLsb', BitVec.getLsbD_append]
  interval_cases i <;> simp

@[simp] theorem rbField_wordR : rbField (wordR opc ra rb rc imm) = rb := by
  ext i hi
  simp only [rbField, wordR, BitVec.getElem_extractLsb', BitVec.getLsbD_append]
  interval_cases i <;> simp

@[simp] theorem rcField_wordR : rcField (wordR opc ra rb rc imm) = rc := by
  ext i hi
  simp only [rcField, wordR, BitVec.getElem_extractLsb', BitVec.getLsbD_append]
  interval_cases i <;> simp

@[simp] theorem imm12Field_wordR : imm12Field (wordR opc ra rb rc imm) = imm := by
  ext i hi
  simp only [imm12Field, wordR, BitVec.getElem_extractLsb', BitVec.getLsbD_append]
  interval_cases i <;> simp

@[simp] theorem opcField_wordI : opcField (wordI opc ra rb imm16) = opc := by
  ext i hi
  simp only [opcField, wordI, BitVec.getElem_extractLsb', BitVec.getLsbD_append]
  interval_cases i <;> simp

@[simp] theorem raField_wordI : raField (wordI opc ra rb imm16) = ra := by
  ext i hi
  simp only [raField, wordI, BitVec.getElem_extractLsb', BitVec.getLsbD_append]
  interval_cases i <;> simp

@[simp] theorem rbField_wordI : rbField (wordI opc ra rb imm16) = rb := by
  ext i hi
  simp only [rbField, wordI, BitVec.getElem_extractLsb', BitVec.getLsbD_append]
  interval_cases i <;> simp

@[simp] theorem imm16Field_wordI : imm16Field (wordI opc ra rb imm16) = imm16 := by
  ext i hi
  simp only [imm16Field, wordI, BitVec.getElem_extractLsb', BitVec.getLsbD_append]
  interval_cases i <;> simp

end

/-- A word is its format R fields. -/
theorem wordR_fields (w : Word) :
    wordR (opcField w) (raField w) (rbField w) (rcField w) (imm12Field w) = w := by
  apply BitVec.eq_of_getLsbD_eq
  intro i hi
  simp only [opcField, raField, rbField, rcField, imm12Field, wordR, BitVec.getLsbD_append, BitVec.getLsbD_extractLsb']
  interval_cases i <;> simp

/-- A word is its format I fields. -/
theorem wordI_fields (w : Word) : wordI (opcField w) (raField w) (rbField w) (imm16Field w) = w := by
  apply BitVec.eq_of_getLsbD_eq
  intro i hi
  simp only [opcField, raField, rbField, imm16Field, wordI, BitVec.getLsbD_append, BitVec.getLsbD_extractLsb']
  interval_cases i <;> simp

/-- The answer of a must-be-zero check. -/
theorem zeroFields_ok {w : Word} {z : Bool} {i j : Instr} : zeroFields w z i = .ok j ↔ z = true ∧ i = j := by
  cases z <;> simp [zeroFields]

/-- The answer of a register access's check. -/
theorem blockFields_ok {w : Word} {i j : Instr} :
    blockFields w i = .ok j ↔ rbField w = 0 ∧ (rcField w).toNat < 3 ∧ i = j := by
  unfold blockFields
  split_ifs with h h2 <;> simp_all

end Sys2Proof
end

