-- ==== Sys2Proof/Laws/Driver.lean ====
section
/-! SUPPORT. The driver's primitives on the selected UART: what a status read, a data read and a data write answer, once for
both variants, and what the states after them keep. -/

namespace Sys2Proof.Machine

/-! ### The three accesses -/

/-- The state after a read of the selected UART's status register. -/
def State.statusRead (s : State) : State :=
  match s.cfg.variant with
  | .mini => s.readReg .aux 0x54 (.mu .lsr)
  | .full => s.readReg .uart0 0x18 (.uart .fr)

/-- The state after a read of the selected UART's data register. -/
def State.dataRead (s : State) : State :=
  match s.cfg.variant with
  | .mini => s.readReg .aux 0x40 (.mu .io)
  | .full => s.readReg .uart0 0x00 (.uart .dr)

/-- The state after a write of the selected UART's data register. -/
def State.dataWrite (s : State) (b : Byte) : State :=
  match s.cfg.variant with
  | .mini => s.writeReg .aux 0x40 (.mu .io) (b.setWidth 32)
  | .full => s.writeReg .uart0 0x00 (.uart .dr) (b.setWidth 32)

/-- The selected UART's transmit FIFO has room. -/
def State.canPut (s : State) : Bool :=
  match s.cfg.variant with
  | .mini => s.mu.txRoom
  | .full => !s.pl.txff

/-! ### What they answer -/

/-- `TxReady` on a reachable UART. -/
theorem txReady_eq {s : State} (h : s.uartReachable = true) (k : Bool → State → Res) :
    txReady s k = k s.canPut s.statusRead := by
  unfold txReady State.canPut State.statusRead
  cases hv : s.cfg.variant with
  | mini =>
    have he : s.aux.enMu = true := by simpa [State.uartReachable, hv] using h
    have hc : checkRead .aux 0x54 s = .ok (.mu .lsr) := by simp [checkRead, regAt, auxBlocked, he]
    simp only [regRead_ok hc]
    congr 1
    simp [Drawn.bit, State.drawnOf, State.regValue, Mu.value, lsrMask, Mu.lsr, bitIf_get]
  | full =>
    have hc : checkRead .uart0 0x18 s = .ok (.uart .fr) := rfl
    simp only [regRead_ok hc]
    congr 1
    simp [Drawn.bit, State.drawnOf, State.regValue, Pl011.value, frMask, Pl011.fr, bitIf_get]

/-- `RxReady` on a reachable UART. -/
theorem rxReady_eq {s : State} (h : s.uartReachable = true) (k : Bool → State → Res) :
    rxReady s k = k (!s.rxFifo.isEmpty) s.statusRead := by
  unfold rxReady State.rxFifo State.statusRead
  cases hv : s.cfg.variant with
  | mini =>
    have he : s.aux.enMu = true := by simpa [State.uartReachable, hv] using h
    have hc : checkRead .aux 0x54 s = .ok (.mu .lsr) := by simp [checkRead, regAt, auxBlocked, he]
    simp only [regRead_ok hc]
    congr 1
    simp [Drawn.bit, State.drawnOf, State.regValue, Mu.value, lsrMask, Mu.lsr, bitIf_get, Mu.dataReady]
  | full =>
    have hc : checkRead .uart0 0x18 s = .ok (.uart .fr) := rfl
    simp only [regRead_ok hc]
    congr 1
    simp [Drawn.bit, State.drawnOf, State.regValue, Pl011.value, frMask, Pl011.fr, bitIf_get, Pl011.rxfe]

/-- `TxIdle` on a reachable UART. -/
theorem txIdle_eq {s : State} (h : s.uartReachable = true) (k : Bool → State → Res) :
    txIdle s k = k s.txPathIdle s.statusRead := by
  unfold txIdle State.txPathIdle State.statusRead
  cases hv : s.cfg.variant with
  | mini =>
    have he : s.aux.enMu = true := by simpa [State.uartReachable, hv] using h
    have hc : checkRead .aux 0x54 s = .ok (.mu .lsr) := by simp [checkRead, regAt, auxBlocked, he]
    simp only [regRead_ok hc]
    congr 1
    simp [Drawn.bit, State.drawnOf, State.regValue, Mu.value, lsrMask, Mu.lsr, bitIf_get, Mu.txIdle]
  | full =>
    have hc : checkRead .uart0 0x18 s = .ok (.uart .fr) := rfl
    simp only [regRead_ok hc]
    congr 1
    simp [Drawn.bit, State.drawnOf, State.regValue, Pl011.value, frMask, Pl011.fr, bitIf_get, Pl011.frBusy,
      Bool.and_comm]

/-- On an unreachable UART the three status predicates fault. -/
theorem status_unreachable {s : State} (h : s.uartReachable = false) (k : Bool → State → Res) :
    txReady s k = .next (s.raise (.auxDisabled 0x54)) ∧ rxReady s k = .next (s.raise (.auxDisabled 0x54)) ∧
      txIdle s k = .next (s.raise (.auxDisabled 0x54)) := by
  unfold txReady rxReady txIdle
  cases hv : s.cfg.variant with
  | mini =>
    have he : s.aux.enMu = false := by simpa [State.uartReachable, hv] using h
    have hc : checkRead .aux 0x54 s = .error (.auxDisabled 0x54) := by simp [checkRead, regAt, auxBlocked, he]
    simp only [regRead_error hc]
    trivial
  | full => simp [State.uartReachable, hv] at h

/-- `RxGet` of a waiting byte. -/
theorem rxGet_eq {s : State} {b : Byte} {rest : List Byte} (h : s.uartReachable = true) (hb : s.rxFifo = b :: rest)
    (k : Byte → State → Res) : rxGet s k = k b s.dataRead := by
  unfold rxGet State.dataRead
  cases hv : s.cfg.variant with
  | mini =>
    have he : s.aux.enMu = true := by simpa [State.uartReachable, hv] using h
    have hb' : s.mu.rxf = b :: rest := by simpa [State.rxFifo, hv] using hb
    have hc : checkRead .aux 0x40 s = .ok (.mu .io) := by simp [checkRead, regAt, auxBlocked, he]
    simp only [regRead_ok hc]
    congr 1
    simp [Drawn.byte, State.drawnOf, State.regValue, Mu.value, hb', headMask, headWord]
  | full =>
    have hb' : s.pl.rxf = b :: rest := by simpa [State.rxFifo, hv] using hb
    have hc : checkRead .uart0 0x00 s = .ok (.uart .dr) := rfl
    simp only [regRead_ok hc]
    congr 1
    simp [Drawn.byte, State.drawnOf, State.regValue, Pl011.value, hb', headMask, headWord]

/-- `TxPut` with room. -/
theorem txPut_eq {s : State} (h : s.txHasRoom) (b : Byte) (k : State → Res) : txPut b s k = k (s.dataWrite b) := by
  unfold txPut State.dataWrite
  unfold State.txHasRoom at h
  cases hv : s.cfg.variant with
  | mini =>
    simp only [hv] at h
    have hc : checkWrite .aux 0x40 (b.setWidth 32) s = .ok (.mu .io) := by
      have hf : s.mu.txFull = false := by simp [Mu.txFull, Nat.ne_of_lt h.2]
      simp [checkWrite, regAt, writeRefused, auxBlocked, writeFault, h.1, hf]
    simp only [regWrite_ok hc]
  | full =>
    simp only [hv] at h
    have hc : checkWrite .uart0 0x00 (b.setWidth 32) s = .ok (.uart .dr) := by
      have hf : s.pl.txff = false := by simp [Pl011.txff, Nat.ne_of_lt h]
      simp [checkWrite, regAt, writeRefused, auxBlocked, writeFault, hf]
    simp only [regWrite_ok hc]

/-! ### Claims about every answer -/

/-- `TxReady`'s answer, from its two cases. -/
theorem txReady_all {Q : State → Prop} {s : State} {k : Bool → State → Res}
    (bad : s.uartReachable = false → Q (s.raise (.auxDisabled 0x54)))
    (good : s.uartReachable = true → Res.all Q (k s.canPut s.statusRead)) : Res.all Q (txReady s k) := by
  cases h : s.uartReachable with
  | true => rw [txReady_eq h]; exact good h
  | false => rw [(status_unreachable h fun b t => k b t).1]; exact bad h

/-- `RxReady`'s answer, from its two cases. -/
theorem rxReady_all {Q : State → Prop} {s : State} {k : Bool → State → Res}
    (bad : s.uartReachable = false → Q (s.raise (.auxDisabled 0x54)))
    (good : s.uartReachable = true → Res.all Q (k (!s.rxFifo.isEmpty) s.statusRead)) : Res.all Q (rxReady s k) := by
  cases h : s.uartReachable with
  | true => rw [rxReady_eq h]; exact good h
  | false => rw [(status_unreachable h fun b t => k b t).2.1]; exact bad h

/-- `TxIdle`'s answer, from its two cases. -/
theorem txIdle_all {Q : State → Prop} {s : State} {k : Bool → State → Res}
    (bad : s.uartReachable = false → Q (s.raise (.auxDisabled 0x54)))
    (good : s.uartReachable = true → Res.all Q (k s.txPathIdle s.statusRead)) : Res.all Q (txIdle s k) := by
  cases h : s.uartReachable with
  | true => rw [txIdle_eq h]; exact good h
  | false => rw [(status_unreachable h fun b t => k b t).2.2]; exact bad h

/-- `RxGet`'s answer, from its two cases: with no byte waiting its value is a draw. -/
theorem rxGet_all {Q : State → Prop} {s : State} {k : Byte → State → Res}
    (bad : s.uartReachable = false → Q (s.raise (.auxDisabled 0x40)))
    (good : s.uartReachable = true → ∀ b, Res.all Q (k b s.dataRead)) : Res.all Q (rxGet s k) := by
  unfold rxGet
  unfold State.dataRead at good
  cases hv : s.cfg.variant with
  | mini =>
    simp only [hv] at good
    refine regRead_all (fun c hc => ?_) fun r hr => ?_
    · cases he : s.aux.enMu <;> simp [checkRead, regAt, auxBlocked, he] at hc
      rw [← hc]; exact bad (by simp [State.uartReachable, hv, he])
    · obtain ⟨hm, hb⟩ := checkRead_ok_iff.1 hr
      cases hm
      exact good (by simpa [State.uartReachable, hv, auxBlocked] using hb) _
  | full =>
    simp only [hv] at good
    exact good (by simp [State.uartReachable, hv]) _

/-- `TxPut`'s answer, from its three cases. -/
theorem txPut_all {Q : State → Prop} {s : State} {b : Byte} {k : State → Res}
    (bad : s.uartReachable = false → Q (s.raise (.auxDisabled 0x40)))
    (full : s.uartReachable = true → s.txFifo.length = s.txDepth → ∀ u, Q (s.raise (.txOverflow u)))
    (good : s.uartReachable = true → s.txFifo.length ≠ s.txDepth → Res.all Q (k (s.dataWrite b))) :
    Res.all Q (txPut b s k) := by
  unfold txPut
  unfold State.dataWrite at good
  cases hv : s.cfg.variant with
  | mini =>
    simp only [hv] at good
    refine regWrite_all (fun c hc => ?_) fun r hr => ?_
    · cases he : s.aux.enMu
      · simp [checkWrite, regAt, writeRefused, auxBlocked, he] at hc
        rw [← hc]; exact bad (by simp [State.uartReachable, hv, he])
      · cases hf : s.mu.txFull <;> simp [checkWrite, regAt, writeRefused, auxBlocked, writeFault, he, hf] at hc
        rw [← hc]
        refine full (by simp [State.uartReachable, hv, he]) ?_ _
        simpa [State.txFifo, State.txDepth, hv, Mu.txFull] using hf
    · obtain ⟨hm, _, hb, hf⟩ := checkWrite_ok_iff.1 hr
      cases hm
      refine good (by simpa [State.uartReachable, hv, auxBlocked] using hb) ?_
      cases h : s.mu.txFull <;> simp [writeFault, h] at hf
      simpa [State.txFifo, State.txDepth, hv, Mu.txFull] using h
  | full =>
    simp only [hv] at good
    have hr : s.uartReachable = true := by simp [State.uartReachable, hv]
    refine regWrite_all (fun c hc => ?_) fun r hk => ?_
    · cases hf : s.pl.txff <;> simp [checkWrite, regAt, writeRefused, auxBlocked, writeFault, hf] at hc
      rw [← hc]
      refine full hr ?_ _
      simpa [State.txFifo, State.txDepth, hv, Pl011.txff] using hf
    · obtain ⟨hm, _, _, hf⟩ := checkWrite_ok_iff.1 hk
      cases hm
      refine good hr ?_
      cases h : s.pl.txff <;> simp [writeFault, h] at hf
      simpa [State.txFifo, State.txDepth, hv, Pl011.txff] using h

/-! ### What the states after them keep -/

section
variable (s : State) (b : Byte)

@[simp] theorem State.statusRead_keeps :
    s.statusRead.cfg = s.cfg ∧ s.statusRead.prog = s.prog ∧ s.statusRead.x = s.x ∧ s.statusRead.opc = s.opc ∧
      s.statusRead.ram = s.ram ∧ s.statusRead.status = s.status ∧ s.statusRead.drv = s.drv ∧
      s.statusRead.op = s.op ∧ s.statusRead.gpio = s.gpio ∧ s.statusRead.aux = s.aux ∧
      s.statusRead.lineOut = s.lineOut ∧ s.statusRead.lineIn = s.lineIn ∧ s.statusRead.sched = s.sched := by
  unfold State.statusRead; cases s.cfg.variant <;> simp

@[simp] theorem State.dataRead_keeps :
    s.dataRead.cfg = s.cfg ∧ s.dataRead.prog = s.prog ∧ s.dataRead.x = s.x ∧ s.dataRead.opc = s.opc ∧
      s.dataRead.ram = s.ram ∧ s.dataRead.status = s.status ∧ s.dataRead.drv = s.drv ∧ s.dataRead.op = s.op ∧
      s.dataRead.gpio = s.gpio ∧ s.dataRead.aux = s.aux ∧ s.dataRead.lineOut = s.lineOut ∧
      s.dataRead.lineIn = s.lineIn ∧ s.dataRead.sched = s.sched := by
  unfold State.dataRead; cases s.cfg.variant <;> simp

@[simp] theorem State.dataWrite_keeps :
    (s.dataWrite b).cfg = s.cfg ∧ (s.dataWrite b).prog = s.prog ∧ (s.dataWrite b).x = s.x ∧
      (s.dataWrite b).opc = s.opc ∧ (s.dataWrite b).ram = s.ram ∧ (s.dataWrite b).status = s.status ∧
      (s.dataWrite b).drv = s.drv ∧ (s.dataWrite b).op = s.op ∧ (s.dataWrite b).gpio = s.gpio ∧
      (s.dataWrite b).aux = s.aux ∧ (s.dataWrite b).lineOut = s.lineOut ∧ (s.dataWrite b).lineIn = s.lineIn ∧
      (s.dataWrite b).sched = s.sched := by
  unfold State.dataWrite; cases s.cfg.variant <;> simp [State.writeEffect]

/-- A status read clears the Mini UART's overrun flag if that is the selected UART, and changes no other state of a
UART. -/
theorem State.statusRead_uarts :
    (s.statusRead.mu = s.mu ∨ s.statusRead.mu = { s.mu with ovr := false }) ∧ s.statusRead.pl = s.pl := by
  unfold State.statusRead; cases s.cfg.variant <;> simp [State.readEffect]

/-- A data read takes the selected UART's oldest received byte, and changes no other state of a UART. -/
theorem State.dataRead_uarts :
    s.dataRead.mu = (if s.cfg.variant = .mini then { s.mu with rxf := s.mu.rxf.tail } else s.mu) ∧
      s.dataRead.pl = (if s.cfg.variant = .full then { s.pl with rxf := s.pl.rxf.tail } else s.pl) := by
  unfold State.dataRead; cases s.cfg.variant <;> simp [State.readEffect]

/-- A data write queues its byte on the selected UART, and changes no other state of a UART. -/
theorem State.dataWrite_uarts :
    (s.dataWrite b).mu = (if s.cfg.variant = .mini then { s.mu with txf := s.mu.txf ++ [b] } else s.mu) ∧
      (s.dataWrite b).pl = (if s.cfg.variant = .full then { s.pl with txf := s.pl.txf ++ [b] } else s.pl) := by
  unfold State.dataWrite; cases s.cfg.variant <;> simp [State.writeEffect, Mu.write, Pl011.write]

@[simp] theorem State.statusRead_reg (r : RegIdx) : s.statusRead.reg r = s.reg r := by simp [State.reg]
@[simp] theorem State.dataRead_reg (r : RegIdx) : s.dataRead.reg r = s.reg r := by simp [State.reg]
@[simp] theorem State.dataWrite_reg (r : RegIdx) : (s.dataWrite b).reg r = s.reg r := by simp [State.reg]
@[simp] theorem State.statusRead_ramByte (a : Nat) : s.statusRead.ramByte a = s.ramByte a := by simp [State.ramByte]
@[simp] theorem State.dataRead_ramByte (a : Nat) : s.dataRead.ramByte a = s.ramByte a := by simp [State.ramByte]
@[simp] theorem State.dataWrite_ramByte (a : Nat) : (s.dataWrite b).ramByte a = s.ramByte a := by
  simp [State.ramByte]

@[simp] theorem State.statusRead_fifos :
    s.statusRead.txFifo = s.txFifo ∧ s.statusRead.rxFifo = s.rxFifo ∧ s.statusRead.txDepth = s.txDepth ∧
      s.statusRead.uartReachable = s.uartReachable ∧ s.statusRead.txPathIdle = s.txPathIdle := by
  unfold State.txFifo State.rxFifo State.txDepth State.uartReachable State.txPathIdle
  unfold State.statusRead; cases hv : s.cfg.variant <;> simp [hv, State.readEffect]

@[simp] theorem State.dataRead_fifos :
    s.dataRead.txFifo = s.txFifo ∧ s.dataRead.rxFifo = s.rxFifo.tail ∧ s.dataRead.txDepth = s.txDepth ∧
      s.dataRead.uartReachable = s.uartReachable := by
  unfold State.txFifo State.rxFifo State.txDepth State.uartReachable
  unfold State.dataRead; cases hv : s.cfg.variant <;> simp [hv, State.readEffect, Pl011.depth]

@[simp] theorem State.dataWrite_fifos :
    (s.dataWrite b).txFifo = s.txFifo ++ [b] ∧ (s.dataWrite b).rxFifo = s.rxFifo ∧
      (s.dataWrite b).txDepth = s.txDepth ∧ (s.dataWrite b).uartReachable = s.uartReachable := by
  unfold State.txFifo State.rxFifo State.txDepth State.uartReachable
  unfold State.dataWrite
  cases hv : s.cfg.variant <;> simp [hv, State.writeEffect, Mu.write, Pl011.write, Pl011.depth]

/-- Room, by the FIFO's length. -/
theorem State.txHasRoom_iff : s.txHasRoom ↔ s.uartReachable = true ∧ s.txFifo.length < s.txDepth := by
  unfold State.txHasRoom State.uartReachable State.txFifo State.txDepth
  cases s.cfg.variant <;> simp

/-- A waiting byte, by the FIFO. -/
theorem State.rxHasByte_iff : s.rxHasByte ↔ s.uartReachable = true ∧ s.rxFifo ≠ [] := by
  unfold State.rxHasByte State.uartReachable State.rxFifo
  cases s.cfg.variant <;> simp

/-- The status shows room exactly when there is some, the FIFO being within its depth. -/
theorem State.canPut_of_room (h : s.txFifo.length < s.txDepth) : s.canPut = true := by
  unfold State.canPut; unfold State.txFifo State.txDepth at h
  cases hv : s.cfg.variant <;> simp only [hv] at h ⊢
  · simpa [Mu.txRoom] using h
  · simp [Pl011.txff]; omega

theorem State.canPut_of_full (h : s.txFifo.length = s.txDepth) : s.canPut = false := by
  unfold State.canPut; unfold State.txFifo State.txDepth at h
  cases hv : s.cfg.variant <;> simp only [hv] at h ⊢
  · simp [Mu.txRoom, h]
  · simp [Pl011.txff, h]
end

end Sys2Proof.Machine
end

