-- ==== Sys2Proof/Laws/Engine.lean ====
section
/-! SUPPORT. What each agent's step can change: the engines, the host, and the choice of the next agent. -/

namespace Sys2Proof.Machine

variable (s : State)

/-- The choice of the next agent changes the schedule and the draw counter only. -/
theorem State.afterTurn_eq : ∃ l d, s.afterTurn = { s with sched := l, draws := d } := by
  unfold State.afterTurn
  split
  · exact ⟨_, _, rfl⟩
  · exact ⟨_, _, rfl⟩

/-- The agent that takes the next step has an enabled step. -/
theorem State.enabled_of_turn {s : State} {a : Agent} (h : s.turn = some a) : s.enabled a = true := by
  unfold State.turn at h
  split_ifs at h with hc
  · cases h; exact hc
  · exact List.find?_some h

/-- With no agent's turn, no agent has an enabled step but an engine that is not clocked. -/
theorem State.turn_none {s : State} (h : s.turn = none) (a : Agent) (ha : s.enabled a = true) :
    (a = .mu ∨ a = .pl011) ∧ s.cfg.clocked = false := by
  unfold State.turn State.dutiful at h
  split_ifs at h with _ hc <;> rw [List.find?_eq_none] at h
  · exact absurd ha (h a (by cases a <;> simp))
  · refine ⟨?_, by simpa using hc⟩
    cases a
    · exact absurd ha (h .cpu (by simp))
    · exact .inl rfl
    · exact .inr rfl
    · exact absurd ha (h .host (by simp))

/-- An engine that is not clocked takes the next step only when it is chosen. -/
theorem State.chosen_of_turn {s : State} {a : Agent} (hc : s.cfg.clocked = false) (h : s.turn = some a)
    (ha : a = .mu ∨ a = .pl011) : a = s.chosen := by
  unfold State.turn State.dutiful at h
  split_ifs at h
  · exact (Option.some.inj h).symm
  · simp_all
  · have := List.mem_of_find?_eq_some h
    rcases ha with rfl | rfl <;> simp at this

/-- With no agent's turn the machine idles just when some agent has an enabled step. -/
theorem State.idles_iff {s : State} (h : s.turn = none) : s.idles = true ↔ ∃ a, s.enabled a = true := by
  simp only [State.idles, Bool.or_eq_true]
  refine ⟨fun h => h.elim (⟨_, ·⟩) (⟨_, ·⟩), fun ⟨a, ha⟩ => ?_⟩
  rcases (State.turn_none h a ha).1 with rfl | rfl
  · exact .inl ha
  · exact .inr ha

/-- What a step that answers a next state did: it idled, or one agent with an enabled step took it. -/
theorem step_cases {s t : State} (h : step s = .next t) :
    (s.turn = none ∧ s.idles = true ∧ t = s.afterTurn) ∨
    (s.turn = some .cpu ∧ s.status = .running ∧ cpuStep s.afterTurn = .next t) ∨
    (s.turn = some .mu ∧ t = s.afterTurn.muStep) ∨ (s.turn = some .pl011 ∧ t = s.afterTurn.plStep) ∨
    (s.turn = some .host ∧ t = s.afterTurn.hostStep) := by
  unfold step at h
  split at h <;> rename_i ht
  · split_ifs at h with hi
    cases h
    exact .inl ⟨ht, hi, rfl⟩
  · have := State.enabled_of_turn ht
    exact .inr (.inl ⟨ht, by simpa [State.enabled] using this, h⟩)
  · cases h; exact .inr (.inr (.inl ⟨ht, rfl⟩))
  · cases h; exact .inr (.inr (.inr (.inl ⟨ht, rfl⟩)))
  · cases h; exact .inr (.inr (.inr (.inr ⟨ht, rfl⟩)))

/-- The Mini UART engine's step changes the Mini UART, and appends to the history and to `LINE_OUT`. -/
theorem State.muStep_eq : ∃ m e l, s.muStep = { s with mu := m, ev := s.ev ++ e, lineOut := s.lineOut ++ l } := by
  unfold State.muStep State.muStart State.muFinish
  split_ifs
  · split
    · exact ⟨s.mu, [], [], by simp⟩
    · exact ⟨_, [.txs .mu _], [], by rw [List.append_nil]; rfl⟩
  · split
    · exact ⟨s.mu, [], [], by simp⟩
    · exact ⟨_, _, _, rfl⟩
  · exact ⟨s.mu, [], [], by simp⟩

/-- The PL011 engine's step changes the PL011, and appends to the history and to `LINE_OUT`. -/
theorem State.plStep_eq : ∃ u e l, s.plStep = { s with pl := u, ev := s.ev ++ e, lineOut := s.lineOut ++ l } := by
  unfold State.plStep State.plStart State.plFinish
  split_ifs
  · split
    · exact ⟨s.pl, [], [], by simp⟩
    · exact ⟨_, [.txs .pl011 _], [], by rw [List.append_nil]; rfl⟩
  · split
    · exact ⟨s.pl, [], [], by simp⟩
    · exact ⟨_, _, _, rfl⟩
  · exact ⟨s.pl, [], [], by simp⟩

/-- The host's step changes the UARTs' receive sides, `LINE_IN` and the draw counter, and appends to the history. -/
theorem State.hostStep_eq : ∃ m u i e d,
    s.hostStep = { s with mu := m, pl := u, ev := s.ev ++ e, lineIn := i, draws := d } := by
  unfold State.hostStep
  split
  · exact ⟨s.mu, s.pl, s.lineIn, [], s.draws, by simp⟩
  · split
    · exact ⟨_, _, _, _, _, rfl⟩
    · unfold State.muReceive; dsimp only
      split_ifs <;> exact ⟨_, _, _, _, _, rfl⟩
    · unfold State.plReceive; dsimp only
      split_ifs <;> exact ⟨_, _, _, _, _, rfl⟩

/-- The Mini UART's part in its engine's step: it stays, its oldest byte moves to the idle shifter, or the shifter
empties. -/
theorem State.muStep_mu : s.muStep.mu = s.mu ∨
    (∃ b rest f, s.mu.txf = b :: rest ∧ s.mu.busy = none ∧ s.muStep.mu = { s.mu with txf := rest, busy := some f }) ∨
    (∃ f, s.mu.busy = some f ∧ s.muStep.mu = { s.mu with busy := none }) := by
  unfold State.muStep State.muStart State.muFinish
  split_ifs with h1 h2
  · split
    · exact .inl rfl
    · rename_i b rest hb
      refine .inr (.inl ⟨b, rest, _, hb, ?_, rfl⟩)
      simp only [State.muCanStart, Bool.and_eq_true, Option.isNone_iff_eq_none] at h1
      exact h1.1.2
  · split
    · exact .inl rfl
    · rename_i f hf
      exact .inr (.inr ⟨f, hf, rfl⟩)
  · exact .inl rfl

/-- The PL011's part in its engine's step. -/
theorem State.plStep_pl : s.plStep.pl = s.pl ∨
    (∃ b rest f, s.pl.txf = b :: rest ∧ s.pl.busy = none ∧ s.plStep.pl = { s.pl with txf := rest, busy := some f }) ∨
    (∃ f, s.pl.busy = some f ∧ s.plStep.pl = { s.pl with busy := none }) := by
  unfold State.plStep State.plStart State.plFinish
  split_ifs with h1 h2
  · split
    · exact .inl rfl
    · rename_i b rest hb
      refine .inr (.inl ⟨b, rest, _, hb, ?_, rfl⟩)
      simp only [State.plCanStart, Bool.and_eq_true, Option.isNone_iff_eq_none] at h1
      exact h1.1.2
  · split
    · exact .inl rfl
    · rename_i f hf
      exact .inr (.inr ⟨f, hf, rfl⟩)
  · exact .inl rfl

/-- The UARTs' part in the host's step: they stay, or one receive FIFO below its depth grows by a byte, or one overrun flag
is set. -/
theorem State.hostStep_uarts :
    (s.hostStep.mu = s.mu ∨ (∃ b, s.mu.rxf.length ≠ muDepth ∧ s.hostStep.mu = { s.mu with rxf := s.mu.rxf ++ [b] }) ∨
      s.hostStep.mu = { s.mu with ovr := true }) ∧
    (s.hostStep.pl = s.pl ∨
      (∃ b, s.pl.rxf.length ≠ s.pl.depth ∧ s.hostStep.pl = { s.pl with rxf := s.pl.rxf ++ [b] }) ∨
      s.hostStep.pl = { s.pl with oe := true }) := by
  unfold State.hostStep
  split
  · exact ⟨.inl rfl, .inl rfl⟩
  · split
    · exact ⟨.inl rfl, .inl rfl⟩
    · unfold State.muReceive; dsimp only
      split_ifs with h1 h2
      · exact ⟨.inl rfl, .inl rfl⟩
      · exact ⟨.inr (.inr rfl), .inl rfl⟩
      · exact ⟨.inr (.inl ⟨_, by simpa [Mu.rxFull] using h2, rfl⟩), .inl rfl⟩
    · unfold State.plReceive; dsimp only
      split_ifs with h1 h2
      · exact ⟨.inl rfl, .inl rfl⟩
      · exact ⟨.inl rfl, .inr (.inr rfl)⟩
      · exact ⟨.inl rfl, .inr (.inl ⟨_, by simpa [Pl011.rxff] using h2, rfl⟩)⟩

end Sys2Proof.Machine
end

