-- ==== Sys2Proof/Laws/PerInstr.lean ====
section
/-! SUPPORT. Claims for all instructions, made one constructor at a time. Family `TableRow`: an instruction's word has the
fixed bits of the opcode table's row of its mnemonic (R177, R178). -/

namespace Sys2Proof

/-- A format R word has a row's fixed bits when the row's bits are those of its opcode and of its zero fields. -/
theorem fits_of_fields {r : OpcodeRow} {w : Word} (h : w &&& r.mask = r.pattern) : r.fits w = true := by
  simp [OpcodeRow.fits, h]

namespace Laws.TableRow

/-- Some row of the opcode table has the instruction's mnemonic, and its word has that row's fixed bits. -/
def Statement (i : Instr) : Prop := ∃ r ∈ opcodeTable, r.mnemonic = i.mnemonic ∧ r.fits (encode i) = true

/-- A row proves the statement by the bits of the encoded word. -/
theorem of_row {i : Instr} (r : OpcodeRow) (hr : r ∈ opcodeTable) (hm : r.mnemonic = i.mnemonic)
    (h : ∀ k < 32, ((encode i).getLsbD k && r.mask.getLsbD k) = r.pattern.getLsbD k) : Statement i := by
  refine ⟨r, hr, hm, fits_of_fields (BitVec.eq_of_getLsbD_eq fun k hk => ?_)⟩
  rw [BitVec.getLsbD_and, h k hk]

theorem regRd (xd : RegIdx) (blk : BitVec 4) (off : Imm12) : Statement (.regRd xd blk off) := by
  refine of_row ⟨"REG_RD", 0x01000000, 0xFF0F0000⟩ (by decide) rfl fun k hk => ?_
  simp only [encode, wordR, BitVec.getLsbD_append]
  interval_cases k <;> simp

theorem regWr (xs : RegIdx) (blk : BitVec 4) (off : Imm12) : Statement (.regWr xs blk off) := by
  refine of_row ⟨"REG_WR", 0x02000000, 0xFF0F0000⟩ (by decide) rfl fun k hk => ?_
  simp only [encode, wordR, BitVec.getLsbD_append]
  interval_cases k <;> simp

theorem setBit (xd : RegIdx) (xs : RegIdx) (n : Imm12) : Statement (.setBit xd xs n) := by
  refine of_row ⟨"SET_BIT", 0x10000000, 0xFF00F000⟩ (by decide) rfl fun k hk => ?_
  simp only [encode, wordR, BitVec.getLsbD_append]
  interval_cases k <;> simp

theorem clearBit (xd : RegIdx) (xs : RegIdx) (n : Imm12) : Statement (.clearBit xd xs n) := by
  refine of_row ⟨"CLEAR_BIT", 0x11000000, 0xFF00F000⟩ (by decide) rfl fun k hk => ?_
  simp only [encode, wordR, BitVec.getLsbD_append]
  interval_cases k <;> simp

theorem toggleBit (xd : RegIdx) (xs : RegIdx) (n : Imm12) : Statement (.toggleBit xd xs n) := by
  refine of_row ⟨"TOGGLE_BIT", 0x12000000, 0xFF00F000⟩ (by decide) rfl fun k hk => ?_
  simp only [encode, wordR, BitVec.getLsbD_append]
  interval_cases k <;> simp

theorem isBitSet (xd : RegIdx) (xs : RegIdx) (n : Imm12) : Statement (.isBitSet xd xs n) := by
  refine of_row ⟨"IS_BIT_SET", 0x13000000, 0xFF00F000⟩ (by decide) rfl fun k hk => ?_
  simp only [encode, wordR, BitVec.getLsbD_append]
  interval_cases k <;> simp

theorem readBit (xd : RegIdx) (xs : RegIdx) (n : Imm12) : Statement (.readBit xd xs n) := by
  refine of_row ⟨"READ_BIT", 0x14000000, 0xFF00F000⟩ (by decide) rfl fun k hk => ?_
  simp only [encode, wordR, BitVec.getLsbD_append]
  interval_cases k <;> simp

theorem uartInit : Statement (.uartInit) := by
  refine of_row ⟨"UART_INIT", 0x20000000, 0xFFFFFFFF⟩ (by decide) rfl fun k hk => ?_
  simp only [encode, wordR, BitVec.getLsbD_append]
  interval_cases k <;> simp

theorem uartWriteByte (xs : RegIdx) : Statement (.uartWriteByte xs) := by
  refine of_row ⟨"UART_WRITE_BYTE", 0x21000000, 0xFFF0FFFF⟩ (by decide) rfl fun k hk => ?_
  simp only [encode, wordR, BitVec.getLsbD_append]
  interval_cases k <;> simp

theorem uartWriteString (xa : RegIdx) (xn : RegIdx) : Statement (.uartWriteString xa xn) := by
  refine of_row ⟨"UART_WRITE_STRING", 0x22000000, 0xFFF00FFF⟩ (by decide) rfl fun k hk => ?_
  simp only [encode, wordR, BitVec.getLsbD_append]
  interval_cases k <;> simp

theorem uartReadByte (xv : RegIdx) (xt : RegIdx) : Statement (.uartReadByte xv xt) := by
  refine of_row ⟨"UART_READ_BYTE", 0x23000000, 0xFF00FFFF⟩ (by decide) rfl fun k hk => ?_
  simp only [encode, wordR, BitVec.getLsbD_append]
  interval_cases k <;> simp

theorem uartFlush : Statement (.uartFlush) := by
  refine of_row ⟨"UART_FLUSH", 0x24000000, 0xFFFFFFFF⟩ (by decide) rfl fun k hk => ?_
  simp only [encode, wordR, BitVec.getLsbD_append]
  interval_cases k <;> simp

theorem uartReadLine (xd : RegIdx) (xa : RegIdx) (xc : RegIdx) : Statement (.uartReadLine xd xa xc) := by
  refine of_row ⟨"UART_READ_LINE", 0x25000000, 0xFF000FFF⟩ (by decide) rfl fun k hk => ?_
  simp only [encode, wordR, BitVec.getLsbD_append]
  interval_cases k <;> simp

theorem uartIsDataReady (xd : RegIdx) : Statement (.uartIsDataReady xd) := by
  refine of_row ⟨"UART_IS_DATA_READY", 0x26000000, 0xFF0FFFFF⟩ (by decide) rfl fun k hk => ?_
  simp only [encode, wordR, BitVec.getLsbD_append]
  interval_cases k <;> simp

theorem gpioSetOutput (pin : Imm12) : Statement (.gpioSetOutput pin) := by
  refine of_row ⟨"GPIO_SET_OUTPUT", 0x30000000, 0xFFFFF000⟩ (by decide) rfl fun k hk => ?_
  simp only [encode, wordR, BitVec.getLsbD_append]
  interval_cases k <;> simp

theorem gpioSetHigh (pin : Imm12) : Statement (.gpioSetHigh pin) := by
  refine of_row ⟨"GPIO_SET_HIGH", 0x31000000, 0xFFFFF000⟩ (by decide) rfl fun k hk => ?_
  simp only [encode, wordR, BitVec.getLsbD_append]
  interval_cases k <;> simp

theorem gpioSetLow (pin : Imm12) : Statement (.gpioSetLow pin) := by
  refine of_row ⟨"GPIO_SET_LOW", 0x32000000, 0xFFFFF000⟩ (by decide) rfl fun k hk => ?_
  simp only [encode, wordR, BitVec.getLsbD_append]
  interval_cases k <;> simp

theorem li (xd : RegIdx) (imm : Imm16) : Statement (.li xd imm) := by
  refine of_row ⟨"LI", 0x40000000, 0xFF0F0000⟩ (by decide) rfl fun k hk => ?_
  simp only [encode, wordI, BitVec.getLsbD_append]
  interval_cases k <;> simp

theorem lih (xd : RegIdx) (imm : Imm16) : Statement (.lih xd imm) := by
  refine of_row ⟨"LIH", 0x41000000, 0xFF0F0000⟩ (by decide) rfl fun k hk => ?_
  simp only [encode, wordI, BitVec.getLsbD_append]
  interval_cases k <;> simp

theorem addi (xd : RegIdx) (xs : RegIdx) (imm : Imm16) : Statement (.addi xd xs imm) := by
  refine of_row ⟨"ADDI", 0x42000000, 0xFF000000⟩ (by decide) rfl fun k hk => ?_
  simp only [encode, wordI, BitVec.getLsbD_append]
  interval_cases k <;> simp

theorem ldb (xd : RegIdx) (xb : RegIdx) (imm : Imm16) : Statement (.ldb xd xb imm) := by
  refine of_row ⟨"LDB", 0x44000000, 0xFF000000⟩ (by decide) rfl fun k hk => ?_
  simp only [encode, wordI, BitVec.getLsbD_append]
  interval_cases k <;> simp

theorem stb (xs : RegIdx) (xb : RegIdx) (imm : Imm16) : Statement (.stb xs xb imm) := by
  refine of_row ⟨"STB", 0x45000000, 0xFF000000⟩ (by decide) rfl fun k hk => ?_
  simp only [encode, wordI, BitVec.getLsbD_append]
  interval_cases k <;> simp

theorem bz (xs : RegIdx) (off : Imm16) : Statement (.bz xs off) := by
  refine of_row ⟨"BZ", 0x48000000, 0xFF0F0000⟩ (by decide) rfl fun k hk => ?_
  simp only [encode, wordI, BitVec.getLsbD_append]
  interval_cases k <;> simp

theorem bnz (xs : RegIdx) (off : Imm16) : Statement (.bnz xs off) := by
  refine of_row ⟨"BNZ", 0x49000000, 0xFF0F0000⟩ (by decide) rfl fun k hk => ?_
  simp only [encode, wordI, BitVec.getLsbD_append]
  interval_cases k <;> simp

theorem j (off : Imm16) : Statement (.j off) := by
  refine of_row ⟨"J", 0x4A000000, 0xFFFF0000⟩ (by decide) rfl fun k hk => ?_
  simp only [encode, wordI, BitVec.getLsbD_append]
  interval_cases k <;> simp

theorem halt : Statement (.halt) := by
  refine of_row ⟨"HALT", 0x4F000000, 0xFFFFFFFF⟩ (by decide) rfl fun k hk => ?_
  simp only [encode, wordR, BitVec.getLsbD_append]
  interval_cases k <;> simp

end Laws.TableRow

end Sys2Proof
end

