-- ==== Sys2Proof/Laws/RegAccess.lean ====
section
/-! SUPPORT. The two register access words: what each answers once its check is known, for any register and for each block's
number. -/

namespace Sys2Proof.Machine

variable {s : State} {x : RegIdx} {blk : BitVec 4} {off : Imm12} {b : Block} {r : PReg} {v : Word} {c : Cause}

/-- `REG_RD` past its checks. -/
theorem exec_regRd_ok (hb : decodeBlock blk = some b) (hc : checkRead b off.toNat s = .ok r) :
    exec (.regRd x blk off) s = .next ((s.readReg b off.toNat r).setReg x (s.drawnOf r).word).finish := by
  simp only [exec, execRegRd, withBlock_ok hb, uimm12, regRead_ok hc]

/-- `REG_RD` that fails its check. -/
theorem exec_regRd_error (hb : decodeBlock blk = some b) (hc : checkRead b off.toNat s = .error c) :
    exec (.regRd x blk off) s = .next (s.raise c) := by
  simp only [exec, execRegRd, withBlock_ok hb, uimm12, regRead_error hc]

/-- `REG_WR` past its checks. -/
theorem exec_regWr_ok (hb : decodeBlock blk = some b) (hx : s.reg x = some v)
    (hc : checkWrite b off.toNat v s = .ok r) :
    exec (.regWr x blk off) s = .next (s.writeReg b off.toNat r v).finish := by
  simp only [exec, execRegWr, withBlock_ok hb, withReg_some hx, uimm12, regWrite_ok hc]

/-- `REG_WR` that fails its check. -/
theorem exec_regWr_error (hb : decodeBlock blk = some b) (hx : s.reg x = some v)
    (hc : checkWrite b off.toNat v s = .error c) : exec (.regWr x blk off) s = .next (s.raise c) := by
  simp only [exec, execRegWr, withBlock_ok hb, withReg_some hx, uimm12, regWrite_error hc]

/-- A read of a register of the map that is not blocked passes its check. -/
theorem checkRead_ok (hr : regAt b off.toNat = some r) (hb : auxBlocked r s = false) :
    checkRead b off.toNat s = .ok r := checkRead_ok_iff.2 ⟨hr, hb⟩

/-- A defined field of a drawn value, low bits first. -/
theorem Drawn.word_low (d : Drawn) {n : Nat} (h : ∀ k < n, d.mask.getLsbD k = true) :
    d.word.extractLsb' 0 n = d.known.extractLsb' 0 n := by
  apply BitVec.eq_of_getLsbD_eq
  intro k hk
  simp only [BitVec.getLsbD_extractLsb', hk, decide_true, Bool.true_and, Nat.zero_add]
  exact d.word_defined (h k hk)

end Sys2Proof.Machine
end

