-- ==== Sys2Proof/Laws/Select.lean ====
section
/-! SUPPORT. `SelectFunction` (R401): the words it reads and writes, the states it leaves, and its run in each of its three
shapes. -/

namespace Sys2Proof.Machine

/-! ### Repeated micro-steps -/

/-- Micro-steps after micro-steps. -/
theorem execTimes_add (m n : Nat) (i : Instr) (s t : State) (h : execTimes m i s = .next t) :
    execTimes (m + n) i s = execTimes n i t := by
  induction m generalizing s with
  | zero => cases h; rw [Nat.zero_add]
  | succ m ih =>
    rw [Nat.add_right_comm]
    simp only [execTimes] at h ⊢
    cases he : exec i s with
    | next u => rw [he] at h; exact ih u h
    | fault r => rw [he] at h; cases h
    | refused r => rw [he] at h; cases h

/-- One micro-step. -/
theorem execTimes_one {i : Instr} {s t : State} (h : exec i s = .next t) : execTimes 1 i s = .next t := by
  simp [execTimes, h]

/-- A micro-step and then more. -/
theorem execTimes_succ {n : Nat} {i : Instr} {s t : State} (h : exec i s = .next t) :
    execTimes (n + 1) i s = execTimes n i t := by simp [execTimes, h]

/-! ### The words -/

/-- A word whose pin fields are those of a select register, but for the pin of `code`. -/
def selImage (g : Gpio) (pin : Nat) (code : BitVec 3) (v : Word) : Prop :=
  ∀ j, j < 10 → 10 * (pin / 10) + j < 54 →
    v.extractLsb' (3 * j) 3 = if j = pin % 10 then code else g.fselAt (10 * (pin / 10) + j)

/-- The bits of a pin's mask. -/
theorem selFieldMask_bit (pin : Nat) {k : Nat} (hk : k < 32) :
    (selFieldMask pin).getLsbD k = decide (3 * (pin % 10) ≤ k ∧ k < 3 * (pin % 10) + 3) := by
  have h7 : ∀ i, i < 32 → (0b111 : Word).getLsbD i = decide (i < 3) := by decide
  have hs : selShift pin = 3 * (pin % 10) := rfl
  simp only [selFieldMask, BitVec.getLsbD_shiftLeft, hk, decide_true, Bool.true_and, hs]
  rw [h7 _ (by omega), Bool.eq_iff_iff]
  simp only [Bool.and_eq_true, Bool.not_eq_true', decide_eq_false_iff_not, decide_eq_true_eq]
  omega

/-- The bits of a pin's code. -/
theorem selCode_bit (pin : Nat) (code : BitVec 3) {k : Nat} (hk : k < 32) :
    (selCode pin code).getLsbD k = (decide (3 * (pin % 10) ≤ k) && code.getLsbD (k - 3 * (pin % 10))) := by
  have hs : selShift pin = 3 * (pin % 10) := rfl
  simp only [selCode, BitVec.getLsbD_shiftLeft, hk, decide_true, Bool.true_and, hs, BitVec.getLsbD_setWidth]
  by_cases h1 : k < 3 * (pin % 10)
  · simp [h1]
  · simp [h1, show k - 3 * (pin % 10) < 32 by omega, show 3 * (pin % 10) ≤ k by omega]

/-- A select word with its defined fields read, and one field cleared. -/
theorem selImage_cleared {g : Gpio} {pin : Nat} {v : Word} (hr : ∀ k, (selMask (pin / 10)).getLsbD k = true →
    v.getLsbD k = (g.selWord (pin / 10)).getLsbD k) :
    selImage g pin 0 (v &&& ~~~selFieldMask pin) := by
  intro j hj hj54
  apply BitVec.eq_of_getLsbD_eq
  intro i hi
  have h32 : 3 * j + i < 32 := by omega
  simp only [BitVec.getLsbD_extractLsb', hi, decide_true, Bool.true_and, BitVec.getLsbD_and, BitVec.getLsbD_not, h32,
    selFieldMask_bit pin h32]
  by_cases hjp : j = pin % 10
  · simp [hjp, show 3 * (pin % 10) + i < 3 * (pin % 10) + 3 by omega]
  · have hm : (selMask (pin / 10)).getLsbD (3 * j + i) = true := by
      unfold selMask
      split_ifs with h5
      · have : j < 4 := by omega
        interval_cases j <;> interval_cases i <;> rfl
      · interval_cases j <;> interval_cases i <;> rfl
    rw [hr _ hm, if_neg hjp, ← Gpio.selWord_field g (pin / 10) hj]
    simp only [BitVec.getLsbD_extractLsb', hi, decide_true, Bool.true_and]
    have : ¬(3 * (pin % 10) ≤ 3 * j + i ∧ 3 * j + i < 3 * (pin % 10) + 3) := by omega
    simp [this]

/-- A cleared select word with the code put in. -/
theorem selImage_set {g : Gpio} {pin : Nat} {v : Word} (code : BitVec 3) (h : selImage g pin 0 v) :
    selImage g pin code (v ||| selCode pin code) := by
  intro j hj hj54
  have hv := h j hj hj54
  apply BitVec.eq_of_getLsbD_eq
  intro i hi
  have h32 : 3 * j + i < 32 := by omega
  have hvi := congrArg (·.getLsbD i) hv
  simp only [BitVec.getLsbD_extractLsb', hi, decide_true, Bool.true_and] at hvi
  simp only [BitVec.getLsbD_extractLsb', hi, decide_true, Bool.true_and, BitVec.getLsbD_or, selCode_bit pin code h32, hvi]
  by_cases hjp : j = pin % 10
  · subst hjp; simp [show 3 * (pin % 10) + i - 3 * (pin % 10) = i by omega]
  · by_cases hlt : j < pin % 10
    · simp [hjp, show ¬3 * (pin % 10) ≤ 3 * j + i by omega]
    · have : code.getLsbD (3 * j + i - 3 * (pin % 10)) = false := BitVec.getLsbD_of_ge _ _ (by omega)
      simp [hjp, this]

/-- Writing a select image sets the pin's function and no other. -/
theorem Gpio.writeSel_image {g h : Gpio} {pin : Nat} {code : BitVec 3} {v : Word} (hv : selImage g pin code v)
    (hsame : ∀ p, p ≠ pin → h.fselAt p = g.fselAt p) :
    (∀ p, p ≠ pin → (h.writeSel (pin / 10) v).fselAt p = g.fselAt p) ∧
      (pin < 54 → (h.writeSel (pin / 10) v).fselAt pin = code) := by
  constructor
  · intro p hp
    by_cases h54 : p < 54
    · rw [Gpio.fselAt_writeSel _ _ _ h54]
      split_ifs with hk
      · have he : 10 * (pin / 10) + p % 10 = p := by omega
        rw [hv (p % 10) (by omega) (by omega), if_neg (by omega), he]
      · exact hsame p hp
    · rw [Gpio.fselAt_none _ (by omega), Gpio.fselAt_none _ (by omega)]
  · intro h54
    rw [Gpio.fselAt_writeSel _ _ _ h54, if_pos rfl, hv (pin % 10) (by omega) (by omega), if_pos rfl]

/-! ### What `SelectFunction` leaves -/

/-- The state `t` is `s` with the functions and latches of `g`, the history, the context and the draw counter free, and
the frames in the shifters perhaps no longer intact. -/
def State.selected (s t : State) : Prop :=
  t.cfg = s.cfg ∧ t.prog = s.prog ∧ t.x = s.x ∧ t.opc = s.opc ∧ t.ram = s.ram ∧ t.status = s.status ∧ t.drv = s.drv ∧
    t.aux = s.aux ∧ t.lineOut = s.lineOut ∧ t.lineIn = s.lineIn ∧ t.sched = s.sched ∧ t.gpio.out = s.gpio.out ∧
    (t.mu = s.mu ∨ t.mu = s.mu.corrupt) ∧ (t.pl = s.pl ∨ t.pl = s.pl.corrupt)

theorem State.selected_refl (s : State) : s.selected s := by simp [State.selected]

theorem State.selected_pause {s t : State} (h : s.selected t) (i : Instr) (m : Micro) : s.selected (t.pause i m) := h

theorem Mu.corrupt_corrupt (m : Mu) : m.corrupt.corrupt = m.corrupt := by
  cases h : m.busy <;> simp [Mu.corrupt, TxFrame.corrupt, h]

theorem Pl011.corrupt_corrupt (u : Pl011) : u.corrupt.corrupt = u.corrupt := by
  cases h : u.busy <;> simp [Pl011.corrupt, TxFrame.corrupt, h]

theorem State.selected_trans {s t u : State} (h : s.selected t) (h2 : t.selected u) : s.selected u := by
  obtain ⟨a1, a2, a3, a4, a5, a6, a7, a8, a9, a10, a11, a12, am, ap⟩ := h
  obtain ⟨b1, b2, b3, b4, b5, b6, b7, b8, b9, b10, b11, b12, bm, bp⟩ := h2
  refine ⟨b1.trans a1, b2.trans a2, b3.trans a3, b4.trans a4, b5.trans a5, b6.trans a6, b7.trans a7, b8.trans a8,
    b9.trans a9, b10.trans a10, b11.trans a11, b12.trans a12, ?_, ?_⟩
  · rcases am with am | am <;> rcases bm with bm | bm <;> rw [bm, am] <;> simp [Mu.corrupt_corrupt]
  · rcases ap with ap | ap <;> rcases bp with bp | bp <;> rw [bp, ap] <;> simp [Pl011.corrupt_corrupt]

/-- The register a pin's function stands in. -/
theorem regAt_sel {pin : Nat} (hp : pin < 60) :
    regAt .gpio (selOffset pin) = some (.gpfsel ⟨pin / 10, by omega⟩) := by
  have key : ∀ k (hk : k < 6), regAt .gpio (4 * k) = some (.gpfsel ⟨k, hk⟩) := by
    intro k hk
    interval_cases k <;> rfl
  exact key (pin / 10) (by omega)

theorem checkRead_sel {pin : Nat} (hp : pin < 60) (s : State) :
    checkRead .gpio (selOffset pin) s = .ok (.gpfsel ⟨pin / 10, by omega⟩) :=
  checkRead_ok_iff.2 ⟨regAt_sel hp, rfl⟩

theorem checkWrite_sel {pin : Nat} (hp : pin < 60) (v : Word) (s : State) :
    checkWrite .gpio (selOffset pin) v s = .ok (.gpfsel ⟨pin / 10, by omega⟩) :=
  checkWrite_ok_iff.2 ⟨regAt_sel hp, rfl, rfl, rfl⟩

theorem State.writeSel_gpio (s : State) (k : Nat) (v : Word) : (s.writeSel k v).gpio = s.gpio.writeSel k v := by
  unfold State.writeSel; dsimp only; split_ifs <;> rfl

/-- The read of a select register. -/
theorem State.selected_read (s : State) (off : Nat) (k : Fin 6) :
    s.selected (s.readReg .gpio off (.gpfsel k)) ∧ (s.readReg .gpio off (.gpfsel k)).gpio = s.gpio := by
  simp [State.selected, State.readEffect]

theorem State.selected_emit {s t : State} (h : s.selected t) (e : Event) : s.selected (t.emit e) := h

/-- A select register written. -/
theorem State.selected_writeSel (s : State) (k : Nat) (v : Word) : s.selected (s.writeSel k v) := by
  have ho : (s.gpio.writeSel k v).out = s.gpio.out := by unfold Gpio.writeSel; dsimp only
  unfold State.writeSel State.selected
  generalize s.gpio.writeSel k v = g at ho
  dsimp only
  split_ifs
  · exact ⟨rfl, rfl, rfl, rfl, rfl, rfl, rfl, rfl, rfl, rfl, rfl, ho, .inl rfl, .inl rfl⟩
  · exact ⟨rfl, rfl, rfl, rfl, rfl, rfl, rfl, rfl, rfl, rfl, rfl, ho, .inr rfl, .inr rfl⟩

/-- The write of a select register. -/
theorem State.selected_write (s : State) (off : Nat) (k : Fin 6) (v : Word) :
    s.selected (s.writeReg .gpio off (.gpfsel k) v) ∧
      (s.writeReg .gpio off (.gpfsel k) v).gpio = s.gpio.writeSel k.val v := by
  have h := s.selected_writeSel k.val v
  have hg := s.writeSel_gpio k.val v
  unfold State.writeReg State.writeEffect
  dsimp only
  generalize s.writeSel k.val v = t at *
  exact ⟨h, hg⟩

/-! ### The accesses of `SelectFunction`, one lemma each -/

section
variable {i : Instr} {pin : Nat} {code : BitVec 3} {k : State → State} {s : State} {g : Gpio} {v : Word}

/-- The first read: the field is seen cleared. -/
theorem select_read (hp : pin < 60)
    (hs : exec i s = selectFunction i pin code .read s fun t => .next (k t)) :
    ∃ u d, exec i s = .next u ∧ s.selected u ∧ u.gpio = s.gpio ∧ selImage s.gpio pin 0 d ∧
      u.op = some ⟨i, .select pin (if s.cfg.fselShape = .oneWrite then .set d else .clear d)⟩ := by
  have h1 := s.selected_read (selOffset pin) ⟨pin / 10, by omega⟩
  have himg := selImage_cleared (g := s.gpio) (pin := pin) (v := (s.drawnOf (.gpfsel ⟨pin / 10, by omega⟩)).word)
    fun k hk => Drawn.word_defined _ hk
  rw [hs]
  simp only [selectFunction, regRead_ok (checkRead_sel hp s)]
  cases s.cfg.fselShape
  · exact ⟨_, _, rfl, State.selected_pause h1.1 _ _, h1.2, himg, rfl⟩
  · exact ⟨_, _, rfl, State.selected_pause h1.1 _ _, h1.2, himg, rfl⟩
  · exact ⟨_, _, rfl, State.selected_pause h1.1 _ _, h1.2, himg, rfl⟩

/-- The write of the cleared field. -/
theorem select_clear (hp : pin < 60) (hsh : s.cfg.fselShape ≠ .oneWrite)
    (hs : exec i s = selectFunction i pin code (.clear v) s fun t => .next (k t)) (hv : selImage g pin 0 v)
    (hg : ∀ p, p ≠ pin → s.gpio.fselAt p = g.fselAt p) :
    ∃ u, exec i s = .next u ∧ s.selected u ∧ (∀ p, p ≠ pin → u.gpio.fselAt p = g.fselAt p) ∧
      (pin < 54 → u.gpio.fselAt pin = 0) ∧
      u.op = some ⟨i, .select pin (if s.cfg.fselShape = .twoRmw then .reread else .set v)⟩ := by
  have h1 := s.selected_write (selOffset pin) ⟨pin / 10, by omega⟩ v
  have h2 := Gpio.writeSel_image hv hg
  rw [hs]
  simp only [selectFunction, regWrite_ok (checkWrite_sel hp v s)]
  obtain ⟨h1, hgw⟩ := h1
  rw [← hgw] at h2
  generalize s.writeReg .gpio (selOffset pin) (.gpfsel ⟨pin / 10, _⟩) v = w at *
  cases h : s.cfg.fselShape
  · exact absurd h hsh
  · exact ⟨_, rfl, State.selected_pause h1 _ _, h2.1, h2.2, rfl⟩
  · exact ⟨_, rfl, State.selected_pause h1 _ _, h2.1, h2.2, rfl⟩

/-- The second read of `TWO_RMW`: the field reads cleared. -/
theorem select_reread (hp : pin < 60)
    (hs : exec i s = selectFunction i pin code .reread s fun t => .next (k t))
    (hg : ∀ p, p ≠ pin → s.gpio.fselAt p = g.fselAt p) (h0 : pin < 54 → s.gpio.fselAt pin = 0) :
    ∃ u d, exec i s = .next u ∧ s.selected u ∧ u.gpio = s.gpio ∧ selImage g pin 0 d ∧
      u.op = some ⟨i, .select pin (.set d)⟩ := by
  have h1 := s.selected_read (selOffset pin) ⟨pin / 10, by omega⟩
  have himg : selImage g pin 0 (s.drawnOf (.gpfsel ⟨pin / 10, by omega⟩)).word := by
    intro j hj hj54
    have hf := Gpio.selWord_field s.gpio (pin / 10) hj
    have hd : (s.drawnOf (.gpfsel ⟨pin / 10, by omega⟩)).word.extractLsb' (3 * j) 3 =
        (s.gpio.selWord (pin / 10)).extractLsb' (3 * j) 3 := by
      apply BitVec.eq_of_getLsbD_eq
      intro a ha
      simp only [BitVec.getLsbD_extractLsb', ha, decide_true, Bool.true_and]
      refine Drawn.word_defined _ ?_
      show (selMask (pin / 10)).getLsbD (3 * j + a) = true
      unfold selMask
      split_ifs with h5
      · have : j < 4 := by omega
        interval_cases j <;> interval_cases a <;> rfl
      · interval_cases j <;> interval_cases a <;> rfl
    rw [hd, hf]
    split_ifs with hjp
    · have hpin : 10 * (pin / 10) + j = pin := by omega
      rw [hpin]; exact h0 (by omega)
    · exact hg _ (by omega)
  rw [hs]
  simp only [selectFunction, regRead_ok (checkRead_sel hp s)]
  exact ⟨_, _, rfl, State.selected_pause h1.1 _ _, h1.2, himg, rfl⟩

/-- The last write: the code is put in. -/
theorem select_set (hp : pin < 60)
    (hs : exec i s = selectFunction i pin code (.set v) s fun t => .next (k t)) (hv : selImage g pin 0 v)
    (hg : ∀ p, p ≠ pin → s.gpio.fselAt p = g.fselAt p) :
    ∃ t, exec i s = .next (k t) ∧ s.selected t ∧ (∀ p, p ≠ pin → t.gpio.fselAt p = g.fselAt p) ∧
      (pin < 54 → t.gpio.fselAt pin = code) := by
  have h1 := s.selected_write (selOffset pin) ⟨pin / 10, by omega⟩ (v ||| selCode pin code)
  have h2 := Gpio.writeSel_image (selImage_set code hv) hg
  rw [hs]
  simp only [selectFunction, regWrite_ok (checkWrite_sel hp _ s)]
  obtain ⟨h1, hgw⟩ := h1
  rw [← hgw] at h2
  exact ⟨_, rfl, h1, h2.1, h2.2⟩

/-- Whatever access of `SelectFunction` comes next, the state after it is `s` but for the GPIO functions: it is left at a
further access, or handed to `k` after the last. -/
theorem selectFunction_all {Q : State → Prop} {ph : SelPhase} (hp : pin < 60)
    (pause : ∀ t m, s.selected t → Q (t.pause i (.select pin m))) (last : ∀ t, s.selected t → Q (k t)) :
    Res.all Q (selectFunction i pin code ph s fun t => .next (k t)) := by
  unfold selectFunction
  cases ph with
  | read =>
    simp only [regRead_ok (checkRead_sel hp s)]
    have h1 := s.selected_read (selOffset pin) ⟨pin / 10, by omega⟩
    cases s.cfg.fselShape <;> exact pause _ _ h1.1
  | clear v =>
    simp only [regWrite_ok (checkWrite_sel hp _ s)]
    have h1 := s.selected_write (selOffset pin) ⟨pin / 10, by omega⟩ v
    cases s.cfg.fselShape <;> exact pause _ _ h1.1
  | reread =>
    simp only [regRead_ok (checkRead_sel hp s)]
    have h1 := s.selected_read (selOffset pin) ⟨pin / 10, by omega⟩
    exact pause _ _ h1.1
  | set v =>
    simp only [regWrite_ok (checkWrite_sel hp _ s)]
    have h1 := s.selected_write (selOffset pin) ⟨pin / 10, by omega⟩ (v ||| selCode pin code)
    exact last _ h1.1

/-- How many accesses `SelectFunction` makes (R401). -/
def selCount : FselShape → Nat
  | .oneWrite => 2
  | .clearThenSet => 3
  | .twoRmw => 4

/-- `SelectFunction` of a pin the registers have a field for, run to its end by the instruction it is part of: the pin's
function is `code`, nothing else of the GPIO block changes. -/
theorem select_run (hp : pin < 60)
    (hi : ∀ (u : State) (ph : SelPhase), u.op = some ⟨i, .select pin ph⟩ → u.cfg = s.cfg →
      exec i u = selectFunction i pin code ph u fun t => .next (k t))
    (hs : exec i s = selectFunction i pin code .read s fun t => .next (k t)) :
    ∃ t, execTimes (selCount s.cfg.fselShape) i s = .next (k t) ∧ s.selected t ∧
      (∀ p, p ≠ pin → t.gpio.fselAt p = s.gpio.fselAt p) ∧ (pin < 54 → t.gpio.fselAt pin = code) := by
  obtain ⟨u, d, he, hsel, hg, hd, hop⟩ := select_read hp hs
  have hgu : ∀ p, p ≠ pin → u.gpio.fselAt p = s.gpio.fselAt p := fun p _ => by rw [hg]
  cases hsh : s.cfg.fselShape
  · rw [hsh, if_pos rfl] at hop
    obtain ⟨t, ht, hsel2, h1, h2⟩ := select_set hp (hi u _ hop hsel.1) hd hgu
    exact ⟨t, (execTimes_succ he).trans (execTimes_one ht), State.selected_trans hsel hsel2, h1, h2⟩
  · rw [hsh, if_neg (by decide)] at hop
    have hc : u.cfg.fselShape = .clearThenSet := by rw [hsel.1, hsh]
    obtain ⟨w, hw, hselw, hgw, _, hopw⟩ := select_clear hp (by rw [hc]; decide) (hi u _ hop hsel.1) hd hgu
    rw [hc, if_neg (by decide)] at hopw
    have hselsw := State.selected_trans hsel hselw
    obtain ⟨t, ht, hsel2, h1, h2⟩ := select_set hp (hi w _ hopw hselsw.1) hd hgw
    exact ⟨t, (execTimes_succ he).trans ((execTimes_succ hw).trans (execTimes_one ht)),
      State.selected_trans hselsw hsel2, h1, h2⟩
  · rw [hsh, if_neg (by decide)] at hop
    have hc : u.cfg.fselShape = .twoRmw := by rw [hsel.1, hsh]
    obtain ⟨w, hw, hselw, hgw, h0, hopw⟩ := select_clear hp (by rw [hc]; decide) (hi u _ hop hsel.1) hd hgu
    rw [hc, if_pos rfl] at hopw
    have hselsw := State.selected_trans hsel hselw
    obtain ⟨y, e, hy, hsely, hgy, hde, hopy⟩ := select_reread hp (hi w _ hopw hselsw.1) hgw h0
    have hselsy := State.selected_trans hselsw hsely
    obtain ⟨t, ht, hsel2, h1, h2⟩ :=
      select_set hp (hi y _ hopy hselsy.1) hde (fun p hpp => by rw [hgy]; exact hgw p hpp)
    exact ⟨t, (execTimes_succ he).trans ((execTimes_succ hw).trans ((execTimes_succ hy).trans (execTimes_one ht))),
      State.selected_trans hselsy hsel2, h1, h2⟩
end

end Sys2Proof.Machine
end

