-- ==== Sys2Proof/Tests/Slice0.lean ====
section
/-! SUPPORT. The model's own tests: the well-formedness check, decoding by words written out from the spec, one step of each
instruction by the spec's vectors (95_test_vectors.md), and a state meeting the hypotheses of every statement. -/

namespace Sys2Proof.Tests

open Sys2Proof.Machine

/-! ## Helpers -/

/-- A state with harness registers written. -/
def regs (vs : List (RegIdx × Word)) (s : State) : State := vs.foldl (fun t v => t.setReg v.1 v.2) s

/-- What a next state shows; nothing of a fault or a refusal. -/
def after {α : Type} (o : Res) (f : State → α) : Option α :=
  match o with
  | .next t => some (f t)
  | .fault _ => none
  | .refused _ => none

/-- The machine with its parameters for the full UART. -/
def fullCfg : Config := { Config.named with variant := .full }

/-- Pins 14 and 15 with one function, the others inputs. -/
def pins (code : BitVec 3) : Gpio := { Gpio.reset with fsel := ((Vector.replicate 54 0).set 14 code).set 15 code }

/-- The Mini UART initialised, with these transmit and receive FIFOs. -/
def mini (txf rxf : List Byte) : State :=
  { State.reset with
    drv := .ready, gpio := pins 0b010, aux := { State.reset.aux with enMu := true },
    mu := { Mu.reset with lcr := 3, cntl := 3, baud := 270, txf := txf, rxf := rxf } }

/-- The full UART initialised, with these transmit and receive FIFOs. -/
def full (txf rxf : List Byte) : State :=
  { State.reset with
    cfg := fullCfg, drv := .ready, gpio := pins 0b100,
    pl := { Pl011.reset with
      ibrd := 26, fbrd := 3, lcrh := 0x70, cr := 0x301, actIbrd := 26, actFbrd := 3, actLcrh := 0x70,
      txf := txf, rxf := rxf } }

/-- Eight bytes: a full Mini UART FIFO. -/
def eight : List Byte := [1, 2, 3, 4, 5, 6, 7, 8]

/-- A state with a program, the CPU agent next. -/
def running (ws : List Word) (k : Int) : State := { State.reset with prog := ws, opc := k, sched := [.cpu] }

/-- A state with an operation in progress. -/
def busyWith (i : Instr) (m : Micro) (s : State) : State := { s with op := some { instr := i, micro := m } }

/-! ## Well-formedness: the check refuses an ill-formed term and takes the last good one (R175) -/

theorem test_wellFormed_refuses_block_3 :
    ¬WellFormed (.regRd 0 3 0) ∧ ¬WellFormed (.regWr 0 3 0) ∧ ¬WellFormed (.regRd 0 15 0) ∧ ¬WellFormed (.regWr 0 15 0) := by
  decide

theorem test_wellFormed_takes_block_2 : WellFormed (.regRd 15 2 0xFFF) ∧ WellFormed (.regWr 15 2 0xFFF) := by decide

/-! ## Decoding: words written out from R174 and R177, bit by bit; the words of R181 and of VD10 to VD13 -/

theorem test_decode_access :
    decode 0b00000001_0011_0000_0001_000001010100 = .ok (.regRd 3 1 0x54) ∧
    decode 0b00000010_0001_0000_0001_000001001100 = .ok (.regWr 1 1 0x4C) ∧
    decode 0x01302014 = .ok (.regRd 3 2 0x14) ∧ decode 0x02F00004 = .ok (.regWr 15 0 4) := by decide

theorem test_decode_bits :
    decode 0b00010000_0010_0001_0000_000000011111 = .ok (.setBit 2 1 31) ∧
    decode 0b00010001_0010_0001_0000_000000000100 = .ok (.clearBit 2 1 4) ∧
    decode 0b00010010_0010_0001_0000_000000000100 = .ok (.toggleBit 2 1 4) ∧
    decode 0b00010011_0010_0001_0000_000000011110 = .ok (.isBitSet 2 1 30) ∧
    decode 0b00010100_0100_0011_0000_000000010101 = .ok (.readBit 4 3 21) := by decide

theorem test_decode_uart :
    decode 0b00100000_0000_0000_0000_000000000000 = .ok .uartInit ∧
    decode 0b00100001_0000_0100_0000_000000000000 = .ok (.uartWriteByte 4) ∧
    decode 0b00100010_0000_0001_0010_000000000000 = .ok (.uartWriteString 1 2) ∧
    decode 0b00100011_0001_0010_0000_000000000000 = .ok (.uartReadByte 1 2) ∧
    decode 0b00100100_0000_0000_0000_000000000000 = .ok .uartFlush ∧
    decode 0b00100101_0011_0001_0010_000000000000 = .ok (.uartReadLine 3 1 2) ∧
    decode 0b00100110_0111_0000_0000_000000000000 = .ok (.uartIsDataReady 7) := by decide

theorem test_decode_gpio :
    decode 0b00110000_0000_0000_0000_000000010101 = .ok (.gpioSetOutput 21) ∧
    decode 0b00110001_0000_0000_0000_000000110101 = .ok (.gpioSetHigh 53) ∧
    decode 0b00110010_0000_0000_0000_111111111111 = .ok (.gpioSetLow 4095) := by decide

theorem test_decode_harness :
    decode 0b01000000_0001_0000_1000000000000000 = .ok (.li 1 0x8000) ∧
    decode 0b01000001_0001_0000_0001001000110100 = .ok (.lih 1 0x1234) ∧
    decode 0b01000010_0011_0001_1111111110001111 = .ok (.addi 3 1 (-0x71)) ∧
    decode 0b01000100_0101_0011_0000000000000000 = .ok (.ldb 5 3 0) ∧
    decode 0b01000101_0001_0011_0000000000000010 = .ok (.stb 1 3 2) := by decide

theorem test_decode_branches :
    decode 0b01001000_0010_0000_1111111111111110 = .ok (.bz 2 (-2)) ∧
    decode 0b01001001_0001_0000_1111111111111100 = .ok (.bnz 1 (-4)) ∧
    decode 0b01001010_0000_0000_0000000000000101 = .ok (.j 5) ∧
    decode 0b01001111_0000_0000_0000_000000000000 = .ok .halt ∧ decode 0x4A000000 = .ok nop := by decide

/-- VD1 to VD8. -/
theorem test_decode_rejects :
    decode 0x00000000 = .error (.unknownOpcode 0) ∧ decode 0x43000000 = .error (.unknownOpcode 0x43) ∧
    decode 0x20000001 = .error (.nonzeroField 0x20) ∧ decode 0x01003000 = .error (.badBlock 3) ∧
    decode 0x01010004 = .error (.nonzeroField 0x01) ∧ decode 0x40110000 = .error (.nonzeroField 0x40) ∧
    decode 0x10111000 = .error (.nonzeroField 0x10) ∧ decode 0x4F000001 = .error (.nonzeroField 0x4F) := by decide

/-- The words of programs P1 and P4, encoded. -/
theorem test_encode_programs :
    [Instr.gpioSetOutput 21, .li 1 3, .gpioSetHigh 21, .gpioSetLow 21, .addi 1 1 (-1), .bnz 1 (branchImm 2 5), .halt].map
        encode = [0x30000015, 0x40100003, 0x31000015, 0x32000015, 0x4211FFFF, 0x4910FFFC, 0x4F000000] ∧
    [Instr.uartReadByte 1 2, .bz 2 (branchImm 1 2), .uartWriteByte 1, .bnz 3 (branchImm 1 5), .uartFlush].map
        encode = [0x23120000, 0x4820FFFE, 0x21010000, 0x4930FFFB, 0x24000000] := by decide

/-- Two lines of 95_test_vectors.md in R180's syntax, VR1 and VH7. -/
theorem test_text :
    (Instr.regRd 3 0 4).text "" = some "reg_rd x3, GPIO, 4" ∧ (Instr.stb 1 3 2).text "" = some "stb x1, 2(x3)" := by decide

/-! ## Reset (R61, R601, R602) -/

theorem test_reset :
    (∀ r, State.reset.reg r = none) ∧ State.reset.opc = 0 ∧ State.reset.status = .running ∧ State.reset.ev = [] ∧
      State.reset.drv = .uninit ∧ State.reset.op = none ∧ State.reset.lineOut = [] ∧ Memory.wf State.reset.ram = true ∧
      State.reset.mu.cntl = 3 ∧ State.reset.pl.cr = 0x300 ∧ State.reset.pl.ifls = 0x12 := by decide

/-- The divisors of R172: 250 MHz and 48 MHz at 115200 bit/s give 270, 26 and 3; 3 MHz gives 1 and 40. -/
theorem test_divisors :
    muBaudDiv Config.named = 270 ∧ pl011Ibrd fullCfg = 26 ∧ pl011Fbrd fullCfg = 3 ∧
      pl011Ibrd { fullCfg with uartClk := 3000000 } = 1 ∧ pl011Fbrd { fullCfg with uartClk := 3000000 } = 40 := by decide

/-! ## The RAM -/

/-- Writing the value an unlisted address reads as removes the entry; the rest stays in order. -/
theorem test_memory_canonical :
    Memory.write (Memory.write (Memory.write [] 5 0x41) 2 0x42) 5 0 = [(2, 0x42)] ∧
      Memory.write (Memory.write [] 5 0x41) 2 0x42 = [(2, 0x42), (5, 0x41)] := by decide

/-! ## Harness words: VH1 to VH14 -/

/-- VH1. -/
theorem test_li : after (exec (.li 1 0x8000) State.reset) (·.reg 1) = some (some 0x00008000) := by decide

/-- VH2, VH3. -/
theorem test_lih :
    after (exec (.lih 1 0x1234) (regs [(1, 0x5678)] State.reset)) (·.reg 1) = some (some 0x12345678) ∧
      after (exec (.lih 1 0x1234) State.reset) (·.status) = some (.faulted (.unwritten 1) 0) := by decide

/-- VH4. -/
theorem test_addi_wraps :
    after (exec (.addi 2 2 (-1)) (regs [(2, 0)] State.reset)) (·.reg 2) = some (some 0xFFFFFFFF) := by decide

/-- VH5. -/
theorem test_ldb :
    after (exec (.ldb 5 3 0) { regs [(3, 4)] State.reset with ram := [(4, 0x41)] }) (·.reg 5) = some (some 0x41) := by decide

/-- VH6. -/
theorem test_ldb_range :
    after (exec (.ldb 5 3 0) (regs [(3, 0xFFFFFFFF)] State.reset)) (fun t => (t.status, t.reg 5, t.ev)) =
      some (.faulted (.ramRange 0xFFFFFFFF 1) 0, none, [.fault 4]) := by decide

/-- VH7. -/
theorem test_stb :
    after (exec (.stb 1 3 2) (regs [(1, 0x148), (3, 0)] State.reset)) (·.ram) = some [(2, 0x48)] := by decide

/-- VH8, VH9. -/
theorem test_bz :
    after (exec (.bz 1 (-4)) { regs [(1, 0)] State.reset with opc := 5 }) (·.opc) = some 2 ∧
      after (exec (.bz 1 (-4)) { regs [(1, 7)] State.reset with opc := 5 }) (·.opc) = some 6 := by decide

/-- VH13. -/
theorem test_bz_below_zero : after (exec (.bz 1 (-2)) (regs [(1, 0)] State.reset)) (·.opc) = some (-1) := by decide

/-- VH10. -/
theorem test_bnz : after (exec (.bnz 2 (-8)) { regs [(2, 3)] State.reset with opc := 9 }) (·.opc) = some 2 := by decide

/-- VH11, VH12. -/
theorem test_j :
    after (exec (.j (-7)) { State.reset with opc := 7 }) (·.opc) = some 1 ∧
      after (exec (.j 5) { State.reset with opc := 3 }) (·.opc) = some 9 := by decide

/-- VH14. -/
theorem test_halt :
    after (exec .halt { State.reset with opc := 3 }) (fun t => (t.status, t.opc, t.ev)) = some (.halted, 3, []) := by decide

/-! ## Bit utilities: VB1 to VB10 -/

/-- VB1, VB2. -/
theorem test_setBit :
    after (exec (.setBit 2 1 1) (regs [(1, 5)] State.reset)) (·.reg 2) = some (some 7) ∧
      after (exec (.setBit 2 1 31) (regs [(1, 0)] State.reset)) (·.reg 2) = some (some 0x80000000) := by decide

/-- VB7, VB9. -/
theorem test_setBit_faults :
    after (exec (.setBit 1 1 32) (regs [(1, 0)] State.reset)) (fun t => (t.status, t.reg 1)) =
        some (.faulted (.shiftRange 32) 0, some 0) ∧
      after (exec (.setBit 1 9 40) State.reset) (·.status) = some (.faulted (.unwritten 9) 0) := by decide

/-- VB3. -/
theorem test_clearBit :
    after (exec (.clearBit 2 1 31) (regs [(1, 0xFFFFFFFF)] State.reset)) (·.reg 2) = some (some 0x7FFFFFFF) := by decide

/-- VB4, VB10. -/
theorem test_toggleBit :
    after (exec (.toggleBit 2 1 4) (regs [(1, 0x10)] State.reset)) (·.reg 2) = some (some 0) ∧
      after (exec (.toggleBit 1 1 0) (regs [(1, 0xFFFFFFFF)] State.reset)) (·.reg 1) = some (some 0xFFFFFFFE) := by decide

/-- VB5. -/
theorem test_isBitSet :
    after (exec (.isBitSet 2 1 30) (regs [(1, 0x80000000)] State.reset)) (·.reg 2) = some (some 0) := by decide

/-- VB6, VB8. -/
theorem test_readBit :
    after (exec (.readBit 2 1 5) (regs [(1, 0x60)] State.reset)) (·.reg 2) = some (some 1) ∧
      after (exec (.readBit 1 1 4095) (regs [(1, 0)] State.reset)) (·.status) = some (.faulted (.shiftRange 4095) 0) := by
  decide

/-! ## Register access: vectors VR1 to VR24. Undefined bits of a value read are draws, so tests look at defined bits -/

/-- VR1: GPFSEL1 with pins 14 and 15 in ALT5 reads 0x00012000: bits 13 and 16. -/
theorem test_regRd_fsel :
    ((pins 0b010).selWord 1).getLsbD 13 = true ∧ ((pins 0b010).selWord 1).getLsbD 16 = true ∧
      ((pins 0b010).selWord 1).getLsbD 12 = false ∧ ((pins 0b010).selWord 1).getLsbD 14 = false ∧
      selMask 1 = 0x3FFFFFFF := by decide +kernel

/-- VR13: the status read shows data, overrun, room and idle, then clears the overrun flag. -/
theorem test_regRd_lsr :
    (mini [] [0x41]).mu.lsr = 0x61 ∧ { (mini [] [0x41]).mu with ovr := true }.lsr = 0x63 ∧
      after (exec (.regRd 1 1 0x54) { mini [] [0x41] with mu := { (mini [] [0x41]).mu with ovr := true } })
        (fun t => (t.mu.ovr, t.mu.rxf)) = some (false, [0x41]) := by decide

/-- VR6, VR7, VR8. -/
theorem test_regRd_faults :
    after (exec (.regRd 1 0 0x02) State.reset) (·.status) = some (.faulted (.regRefused .gpio 0x02 none) 0) ∧
      after (exec (.regRd 1 0 0x94) State.reset) (·.status) = some (.faulted (.regRefused .gpio 0x94 none) 0) ∧
      after (exec (.regRd 1 1 0x54) State.reset) (·.status) = some (.faulted (.auxDisabled 0x54) 0) := by decide

/-- VR21: UART_FR with one byte received and nothing to send. -/
theorem test_regRd_fr : (full [] [0x0D]).pl.fr = 0x80 := by decide

/-- VR2, VR14, VR19. -/
theorem test_regWr :
    after (exec (.regWr 1 0 0x1C) (regs [(1, 0x4000)] State.reset)) (·.gpio.out) = some (0x4000 : BitVec 54) ∧
      after (exec (.regWr 1 1 0x48) (regs [(1, 2)] (mini [3] [1, 2]))) (fun t => (t.mu.rxf, t.mu.txf)) = some ([], [3]) ∧
      after (exec (.regWr 1 2 0x24) (regs [(1, 27)] State.reset)) (fun t => (t.pl.ibrd, t.pl.actIbrd)) =
        some (27, 0) := by decide

/-- R140: a write of UART_CR ignores its reserved bits 6:3, and a read defines none of them; the same of IER bits 7:2. -/
theorem test_reserved_bits :
    after (exec (.regWr 1 2 0x30) (regs [(1, 0x379)] State.reset)) (·.pl.cr) = some 0x301 ∧
      after (exec (.regWr 1 1 0x44) (regs [(1, 0xFF)] (mini [] []))) (·.mu.ier) = some 3 ∧
      ((full [] []).regValue (.uart .cr)).2.extractLsb' 3 4 = 0 ∧ ((mini [] []).regValue (.mu .ier)).2 = 3 := by decide

/-- VR5, VR10, VR11, VR16, VR17, VR18, VR20, VR22. -/
theorem test_regWr_faults :
    after (exec (.regWr 1 0 0x34) (regs [(1, 9)] State.reset)) (fun t => (t.status, t.ev)) =
        some (.faulted (.regRefused .gpio 0x34 (some 9)) 0, [.fault 8]) ∧
      after (exec (.regWr 1 1 0x4C) (regs [(1, 0x83)] (mini [] []))) (·.status) =
        some (.faulted (.regRefused .aux 0x4C (some 0x83)) 0) ∧
      after (exec (.regWr 1 1 0x40) (regs [(1, 0x41)] (mini eight []))) (fun t => (t.status, t.mu.txf)) =
        some (.faulted (.txOverflow .mu) 0, eight) ∧
      after (exec (.regWr 1 1 0x60) (regs [(1, 4)] (mini [] []))) (·.status) =
        some (.faulted (.regRefused .aux 0x60 (some 4)) 0) ∧
      after (exec (.regWr 1 2 0x24) (regs [(1, 5)] (full [] []))) (·.status) =
        some (.faulted (.pl011Reprogram 0x24 5) 0) ∧
      after (exec (.regWr 1 2 0x2C) (regs [(1, 0x60)] (full [] []))) (·.status) =
        some (.faulted (.regRefused .uart0 0x2C (some 0x60)) 0) ∧
      after (exec (.regWr 1 2 0x30) (regs [(1, 0x381)] State.reset)) (·.status) =
        some (.faulted (.regRefused .uart0 0x30 (some 0x381)) 0) ∧
      after (exec (.regWr 1 2 0x48) (regs [(1, 1)] State.reset)) (·.status) =
        some (.faulted (.regRefused .uart0 0x48 (some 1)) 0) := by decide

/-! ## GPIO: vectors VG1 to VG10 -/

/-- VG2, and VG1's last write: GPFSEL2 written with bit 3 of the cleared field set makes pin 21 an output. -/
theorem test_gpioSetOutput :
    after (exec (.gpioSetOutput 4095) State.reset) (fun t => (t.ev, t.opc)) = some ([], 1) ∧
      after (exec (.gpioSetOutput 21) (busyWith (.gpioSetOutput 21) (.select 21 (.set 0)) State.reset))
        (fun t => (t.ev, t.gpio.fselAt 21, t.gpio.fselAt 22)) = some ([.wr .gpio 0x08 0x08], 1, 0) := by decide

/-- VG4, VG6, VG8. -/
theorem test_gpioSetHigh :
    after (exec (.gpioSetHigh 31) State.reset) (·.ev) = some [.wr .gpio 0x1C 0x80000000] ∧
      after (exec (.gpioSetHigh 53) State.reset) (fun t => (t.ev, t.gpio.out)) =
        some ([.wr .gpio 0x20 0x00200000], (0x20000000000000 : BitVec 54)) ∧
      after (exec (.gpioSetHigh 64) State.reset) (·.status) = some (.faulted (.shiftRange 64) 0) := by decide

/-- VG9. -/
theorem test_gpioSetLow :
    after (exec (.gpioSetLow 47) { State.reset with gpio := { Gpio.reset with out := BitVec.allOnes 54 } })
      (fun t => (t.ev, t.gpio.out.getLsbD 47, t.gpio.out.getLsbD 46)) =
        some ([.wr .gpio 0x2C 0x00008000], false, true) := by decide

/-! ## UART operations: vectors VU1 to VU22 -/

/-- The first write of VU21's PL011 sequence, and the last one: the driver is ready. -/
theorem test_uartInit :
    after (exec .uartInit (busyWith .uartInit (.writes (initWritesFull fullCfg)) { State.reset with cfg := fullCfg }))
        (fun t => (t.ev, t.pl.cr, t.drv)) = some ([.wr .uart0 0x30 0], 0, .uninit) ∧
      after (exec .uartInit (busyWith .uartInit (.writes [(.uart0, 0x30, 0x301)]) { State.reset with cfg := fullCfg }))
        (fun t => (t.pl.cr, t.drv, t.opc)) = some (0x301, .ready, 1) := by decide

/-- VU1, VU2. -/
theorem test_uartWriteByte_faults :
    after (exec (.uartWriteByte 4) (regs [(4, 0x41)] State.reset)) (fun t => (t.status, t.ev)) =
        some (.faulted (.uninit 0x21) 0, [.fault 6]) ∧
      after (exec (.uartWriteByte 4) State.reset) (·.status) = some (.faulted (.unwritten 4) 0) := by decide

/-- VU5: no room, then the write once there is some. -/
theorem test_uartWriteByte :
    after (exec (.uartWriteByte 1) (regs [(1, 0x41)] (mini eight []))) (·.op) =
        some (some { instr := .uartWriteByte 1, micro := .txPoll 0x41 }) ∧
      after (exec (.uartWriteByte 1) (busyWith (.uartWriteByte 1) (.txPut 0x41) (mini [] [])))
        (fun t => (t.ev, t.mu.txf, t.opc)) = some ([.wr .aux 0x40 0x41], [0x41], 1) := by decide

/-- VU6, VU7. -/
theorem test_uartWriteString :
    after (exec (.uartWriteString 1 2) (regs [(1, 0), (2, 0)] (mini [] []))) (fun t => (t.ev, t.opc)) = some ([], 1) ∧
      after (exec (.uartWriteString 1 2) (regs [(1, 65535), (2, 2)] (mini [] []))) (fun t => (t.status, t.ev)) =
        some (.faulted (.ramRange 65535 2) 0, [.fault 4]) := by decide

/-- VU8, VU10's second access. -/
theorem test_uartReadByte :
    after (exec (.uartReadByte 1 2) (mini [] [])) (fun t => (t.reg 1, t.reg 2, t.opc)) = some (some 0, some 0, 1) ∧
      after (exec (.uartReadByte 1 1) (busyWith (.uartReadByte 1 1) .rxGet (mini [] [0x41])))
        (fun t => (t.reg 1, t.mu.rxf)) = some (some 1, []) := by decide

/-- VU11, VU12. -/
theorem test_uartFlush :
    after (exec .uartFlush (full [0x41] [])) (fun t => (t.op, t.opc)) =
        some (some { instr := .uartFlush, micro := .idlePoll }, 0) ∧
      after (exec .uartFlush (mini [] [])) (fun t => (t.op, t.opc, t.ev.length)) = some (none, 1, 1) := by decide

/-- VU13, VU4. -/
theorem test_uartReadLine_starts :
    after (exec (.uartReadLine 3 1 2) (regs [(1, 0x20), (2, 1)] { mini [] [] with ram := [(0x20, 7)] }))
        (fun t => (t.ram, t.reg 3, t.ev)) = some ([], some 0, []) ∧
      after (exec (.uartReadLine 3 1 2) (regs [(1, 65541), (2, 0)] (mini [] []))) (·.status) =
        some (.faulted (.bufCapacity 0) 0) := by decide

/-- E2, step 3: the backspace steps the cursor back and its echo is queued; VU14: CR ends the line at length 0. -/
theorem test_uartReadLine_takes :
    after (exec (.uartReadLine 3 1 2) (busyWith (.uartReadLine 3 1 2) (.line 0x10 8 2 .rxGet) (full [] [0x08]))) (·.op) =
        some (some { instr := .uartReadLine 3 1 2, micro := .line 0x10 8 1 (.echo [0x08, 0x20, 0x08]) }) ∧
      after (exec (.uartReadLine 3 1 2) (busyWith (.uartReadLine 3 1 2) (.line 0x10 8 0 .rxGet) (mini [] [0x0D, 0x0A])))
        (fun t => (t.reg 3, t.mu.rxf, t.opc)) = some (some 0, [0x0A], 1) := by decide

/-- VU19, VU20. -/
theorem test_uartIsDataReady :
    after (exec (.uartIsDataReady 7) (mini [] [])) (·.reg 7) = some (some 0) ∧
      after (exec (.uartIsDataReady 7) (full [] [0x41])) (fun t => (t.reg 7, t.pl.rxf)) = some (some 1, [0x41]) := by
  decide

/-! ## Engines and the host: vectors VL1 to VL6 -/

/-- VL1, VL2. -/
theorem test_muEngine :
    (mini [0x48] []).muStep.mu.busy = some { byte := 0x48, cfg := { size := 3, baud := 270 }, intact := true } ∧
      (mini [0x48] []).muStep.mu.txf = [] ∧ (mini [0x48] []).muStep.ev = [.txs .mu 0x48] ∧
      (mini [0x48] []).muStep.muStep.lineOut =
        [.mu { byte := 0x48, cfg := { size := 3, baud := 270 }, intact := true } true] ∧
      hostReceives Config.named (mini [0x48] []).muStep.muStep.lineOut [0x48] := by
  refine ⟨by decide, by decide, by decide, by decide, [], by decide, rfl⟩

/-- VL4: the engine disabled with a frame in its shifter still ends the frame, and starts none. -/
theorem test_plEngine :
    let s : State := { (full [0x48, 0x49] []).plStep with pl := { (full [0x48, 0x49] []).plStep.pl with cr := 0 } }
    s.plStep.lineOut.map (·.byte) = [0x48] ∧ s.plStep.enabled .pl011 = false := by decide

/-- VL5, VL6. -/
theorem test_hostStep :
    { State.reset with lineIn := { listed := [0x41], endless := false, sent := 0 } }.hostStep.ev =
        [.rxl none 0x41 .unrouted] ∧
      { mini [] eight with lineIn := { listed := [0x41], endless := false, sent := 0 } }.hostStep.ev =
        [.rxl (some .mu) 0x41 .overrun] ∧
      { mini [] eight with lineIn := { listed := [0x41], endless := false, sent := 0 } }.hostStep.mu.ovr = true := by decide

/-! ## The step -/

/-- From reset with nothing placed the only agent that can step is the CPU agent, and its first step raises
`F_PC_RANGE` (R506). -/
theorem test_first_step_of_reset :
    after (step { State.reset with sched := [.cpu] }) (·.status) = some (.faulted (.pcRange 0) 0) := by decide

/-- A placed word is the first instruction after reset. -/
theorem test_withFetchWord :
    after (step (State.reset.withFetchWord 32 0x40108000)) (fun t => (t.reg 1, t.opc)) = some (some 0x8000, 1) := by decide

/-! ## Witnesses: for each statement with hypotheses, states and operands that meet them, at the ends of their ranges -/

/-- A state in which every harness register holds 0 but these. -/
def filled (vs : List (RegIdx × Word)) (s : State) : State := regs vs { s with x := Vector.replicate 16 (some 0) }

/-- A state with the host about to send these bytes. -/
def sending (bs : List Byte) (s : State) : State := { s with lineIn := { listed := bs, endless := false, sent := 0 } }

theorem witness_decodeAndEncodeAgree :
    WellFormed (.regWr 15 2 0xFFF) ∧ decode 0x02F02FFF = .ok (.regWr 15 2 0xFFF) := by decide

theorem witness_decodeFollowsTable :
    (∃ r ∈ opcodeTable, r.fits 0x01002000 = true ∧ r.mnemonic = "REG_RD" ∧ (rcField 0x01002000).toNat < 3) ∧
    ((running [0x43000000] 0).fetch = some 0x43000000 ∧ ∀ r ∈ opcodeTable, r.fits 0x43000000 = false) ∧
    ((running [0x02003000] 0).fetch = some 0x02003000 ∧
      ∃ r ∈ opcodeTable, r.fits 0x02003000 = true ∧ r.mnemonic = "REG_WR" ∧ 3 ≤ (rcField 0x02003000).toNat) := by decide

theorem witness_stepRunsDecodedInstruction :
    (let s := running [0x4F000000] 0
     s.turn = some .cpu ∧ s.op = none ∧ s.fetch = some 0x4F000000 ∧ decode 0x4F000000 = .ok .halt ∧ WellFormed .halt) ∧
    (let s := busyWith .uartFlush .idlePoll (running [] 0)
     s.turn = some .cpu ∧ s.op = some { instr := .uartFlush, micro := .idlePoll }) := by decide

theorem witness_badFetchFaults :
    (let s := running [0x4F000000] (-1)
     s.turn = some .cpu ∧ s.op = none ∧ s.opc < 0) ∧
    (let s := running [0x4F000000] 1
     s.turn = some .cpu ∧ s.op = none ∧ (s.prog.length : Int) ≤ s.opc) ∧
    (let s := running [0x43000000] 0
     s.turn = some .cpu ∧ s.op = none ∧ s.opc = (0 : Nat) ∧ s.prog[0]? = some 0x43000000 ∧
       decode 0x43000000 = .error (.unknownOpcode 0x43)) := by decide

theorem witness_enabledAgentsStep :
    { mini [0x48] [] with sched := [.mu] }.turn = some .mu ∧ { full [0x48] [] with sched := [.pl011] }.turn = some .pl011 ∧
    (sending [0x41] { State.reset with sched := [.host] }).turn = some .host ∧
    { mini [0x48] [] with sched := [.mu] }.enabled .mu = true := by decide

/-- An engine that is not clocked, with a byte to send and the CPU agent stopped: no agent's turn unless it is chosen. -/
theorem witness_enabledAgentsStep_unclocked :
    let s : State := { mini [0x48] [] with cfg := { Config.named with clocked := false }, status := .halted, sched := [.host] }
    s.turn = none ∧ s.enabled .mu = true ∧ s.cfg.clocked = false ∧ ({ s with sched := [.mu] } : State).turn = some .mu ∧
      ∃ t, step s = .next t := ⟨by decide, by decide, by decide, by decide, _, rfl⟩

theorem witness_stoppedCpuStaysStopped :
    let s := { mini [0x48] [] with status := .halted, sched := [.cpu] }
    s.status ≠ .running ∧ ∃ t, step s = .next t := ⟨by decide, _, rfl⟩

/-- A sound state: the transmit FIFO one below full, the operation about to write its byte, the schedule the CPU's. -/
def soundPut : State := busyWith (.uartWriteByte 1) (.txPut 0x41) { mini [1, 2, 3, 4, 5, 6, 7] eight with sched := [.cpu] }

theorem soundPut_sound : soundPut.sound :=
  ⟨⟨by decide, by decide⟩, ⟨by decide, by decide, by decide, by decide⟩, fun _ h => by
    cases h; exact ⟨by decide, by decide⟩⟩

theorem witness_soundnessIsKept : soundPut.sound ∧ ∃ t, step soundPut = .next t := ⟨soundPut_sound, _, rfl⟩

/-- A launch state with full FIFOs and a frame in each shifter. -/
def launched : State :=
  { State.reset with
    mu := { Mu.reset with txf := eight, busy := some { byte := 1, cfg := { size := 3, baud := 270 }, intact := false } },
    pl := { Pl011.reset with
      rxf := [7], busy := some { byte := 2, cfg := { lcrh := 0, ibrd := 0, fbrd := 0 }, intact := false } } }

theorem witness_launchIsSound : launched.isLaunch :=
  ⟨by decide, rfl, rfl, rfl, rfl, rfl, rfl, ⟨by decide, by decide⟩, ⟨by decide, by decide, by decide, by decide⟩,
    fun _ h => by cases h; rfl, fun _ h => by cases h; rfl⟩

theorem witness_recordIsKept :
    (∃ t, step soundPut = .next t) ∧ soundPut.drv = .ready ∧
      (∃ t, step { mini [0x48] [] with status := .halted, sched := [.mu] } = .next t) := ⟨⟨_, rfl⟩, rfl, _, rfl⟩

theorem witness_harnessOperands :
    State.reset.reg 15 = none ∧ (regs [(15, 0xFFFFFFFF)] State.reset).reg 15 = some 0xFFFFFFFF ∧
      (regs [(1, 0)] State.reset).reg 1 = some 0 := by decide

/-- The last byte of the RAM, the first address past it, and an address wrapped below 0. -/
theorem witness_loadAndStoreByte :
    (let s := regs [(1, 0xFF), (3, 65535)] State.reset
     s.reg 1 = some 0xFF ∧ s.reg 3 = some 65535 ∧
       (65535 : Int) = (65535 + (0 : Imm16).toInt) % 2 ^ 32 ∧ 65535 < s.cfg.ramSize ∧
       (65536 : Int) = (65535 + (1 : Imm16).toInt) % 2 ^ 32 ∧ s.cfg.ramSize ≤ 65536 ∧ Memory.wf s.ram = true) ∧
    (4294967295 : Int) = (0 + (-1 : Imm16).toInt) % 2 ^ 32 := by decide

theorem witness_unwrittenOperandFaults :
    State.reset.reg 0 = none ∧ State.reset.op = none ∧ WellFormed (.regWr 0 2 0xFFF) ∧
      (regs [(1, 0)] State.reset).reg 1 = some 0 ∧ (regs [(1, 0)] State.reset).reg 2 = none ∧
      (regs [(1, 0)] State.reset).op = none := by decide

theorem witness_registerWordsFrame :
    (∃ t, exec (.ldb 5 3 0) (filled [] State.reset) = .next t) ∧ (∃ t, exec (.setBit 1 1 32) State.reset = .next t) ∧
      (∃ t, exec (.bnz 1 (-1)) (filled [] State.reset) = .next t) ∧ ∃ t, exec .halt State.reset = .next t :=
  ⟨⟨_, rfl⟩, ⟨_, rfl⟩, ⟨_, rfl⟩, _, rfl⟩

theorem witness_bitUtilities :
    (regs [(1, 0xFFFFFFFF)] State.reset).reg 1 = some 0xFFFFFFFF ∧ (31 : Imm12).toNat ≤ 31 ∧ 32 ≤ (32 : Imm12).toNat ∧
      32 ≤ (4095 : Imm12).toNat ∧ (∃ t, exec (.readBit 1 1 32) (regs [(1, 0)] State.reset) = .next t) ∧ (30 : Nat) < 32 :=
  ⟨by decide, by decide, by decide, by decide, ⟨_, rfl⟩, by decide⟩

theorem witness_registerReadCompletes :
    (decodeBlock 0 = some .gpio ∧ regAt .gpio (0x38 : Imm12).toNat = some (.gplev true)) ∧
    (decodeBlock 1 = some .aux ∧ regAt .aux (0x68 : Imm12).toNat = some (.mu .baud) ∧ (mini [] []).aux.enMu = true) ∧
    decodeBlock 2 = some .uart0 ∧ regAt .uart0 (0x48 : Imm12).toNat = some (.uart .dmacr) := by decide

theorem witness_registerWriteCompletes :
    (let s := filled [(1, 0x70)] (mini [1, 2, 3, 4, 5, 6, 7] [])
     s.reg 1 = some 0x70 ∧ decodeBlock 1 = some .aux ∧ regAt .aux (0x40 : Imm12).toNat = some (.mu .io) ∧
       writeRefused (.mu .io) 0x70 s = false ∧ s.aux.enMu = true ∧ s.mu.txf.length ≠ 8) ∧
    (let s := filled [(1, 0x70)] State.reset
     decodeBlock 2 = some .uart0 ∧ regAt .uart0 (0x2C : Imm12).toNat = some (.uart .lcrh) ∧
       writeRefused (.uart .lcrh) 0x70 s = false ∧ s.pl.cr.getLsbD 0 = false ∧
       regAt .uart0 (0x00 : Imm12).toNat = some (.uart .dr) ∧ s.pl.txf.length ≠ s.pl.depth) := by decide

theorem witness_refusedAccesses :
    decodeBlock 0 = some .gpio ∧ (2 : Imm12).toNat % 4 ≠ 0 ∧ regAt .gpio (0x94 : Imm12).toNat = none ∧
    decodeBlock 1 = some .aux ∧ (0x80 : Word).getLsbD 7 = true ∧ (0x40 : Word).getLsbD 6 = true ∧
    (0x04 : Word).extractLsb' 2 6 ≠ 0 ∧ decodeBlock 2 = some .uart0 ∧
    ((full [] []).pl.lcrh.getLsbD 4 = true ∧ (0x60 : Word).getLsbD 4 = false) ∧ (0x01 : Word).getLsbD 0 = true ∧
    (0x80 : Word).getLsbD 7 = true ∧ (0x8000 : Word).getLsbD 15 = true ∧ (0x04 : Word).extractLsb' 0 3 ≠ 0 ∧
    (regs [(1, 0x80)] State.reset).reg 1 = some 0x80 := by decide

theorem witness_blockedAccesses :
    (State.reset.aux.enMu = false ∧ 0x40 ≤ (0x68 : Imm12).toNat ∧ (0x68 : Imm12).toNat ≤ 0x68 ∧
      (0x68 : Imm12).toNat % 4 = 0 ∧ (0x40 : Imm12).toNat % 4 = 0 ∧ regAt .aux (0x68 : Imm12).toNat = some (.mu .baud) ∧
      writeRefused (.mu .baud) 270 State.reset = false ∧ (regs [(1, 270)] State.reset).reg 1 = some 270) ∧
    (let s := regs [(1, 0x70)] (full [] [])
     s.pl.cr.getLsbD 0 = true ∧ s.reg 1 = some 0x70 ∧ (0x70 : Word).getLsbD 0 = false ∧ s.pl.lcrh.getLsbD 4 = true ∧
       (0x70 : Word).getLsbD 4 = true) := by decide

/-- The driver ready and the Mini UART disabled: a capacity of 0, a range one past the RAM, and ranges that end with it. -/
theorem witness_blockedAccesses_driver :
    let s : State := filled [(1, 65534), (2, 2), (3, 3)] { State.reset with drv := .ready }
    s.cfg.variant = .mini ∧ s.aux.enMu = false ∧ s.drv = .ready ∧ s.op = none ∧ s.reg 1 = some 65534 ∧ s.reg 0 = some 0 ∧
      s.reg 2 = some 2 ∧ s.reg 3 = some 3 ∧ s.cfg.ramSize < (65534 : Word).toNat + (3 : Word).toNat ∧ (3 : Word) ≠ 0 ∧
      (65534 : Word).toNat + (2 : Word).toNat ≤ s.cfg.ramSize ∧ (2 : Word) ≠ 0 ∧ 2 ≤ (2 : Word).toNat := by decide

/-- GPFSEL5's last pin, and writes of GPFSEL1 that change and that keep the transmit pin's function. -/
theorem witness_functionSelectAccess :
    5 < 6 ∧ 10 * 5 + 3 < 54 ∧ 53 / 10 ≠ 1 ∧ (regs [(1, 0x2000)] (mini [] [])).reg 1 = some 0x2000 ∧
      ((mini [] []).gpio.writeSel 1 0x2000).fselAt 14 = (mini [] []).gpio.fselAt 14 ∧
      ((mini [] []).gpio.writeSel 1 0x4000).fselAt 14 ≠ (mini [] []).gpio.fselAt 14 := by decide

theorem witness_latchAccess :
    (regs [(1, 0x00200000)] State.reset).reg 1 = some 0x00200000 ∧
      ((Gpio.reset.writeSel 5 0x200).fselAt 53 = 0b001 ∧ 32 ≤ 53 ∧ 53 < 54) ∧
      (Gpio.reset.writeSel 3 0x8).fselAt 31 = 0b001 ∧ 31 < 32 := by decide

theorem witness_auxEnablesAccess :
    (regs [(1, 6)] (mini [] [])).reg 1 = some 6 ∧ (mini [] []).aux.enMu = true ∧ (6 : Word).getLsbD 0 = false ∧
      ¬(State.reset.aux.enMu = true ∧ (6 : Word).getLsbD 0 = false) := by decide

theorem witness_miniUartAccess :
    (mini eight []).aux.enMu = true ∧ (mini eight []).mu.txf.length = 8 ∧ (mini [] eight).mu.txf.length ≠ 8 ∧
      (mini [] eight).mu.rxf.length ≤ 8 ∧ (mini eight []).mu.txf.length ≤ 8 ∧ (mini [] eight).mu.rxf = 1 :: eight.tail ∧
      (mini eight []).mu.rxf = [] ∧ (regs [(1, 0x03)] (mini [] [])).reg 1 = some 0x03 ∧ (0x03 : Word).getLsbD 6 = false ∧
      (0x03 : Word).getLsbD 7 = false ∧ (0x03 : Word).extractLsb' 2 6 = 0 ∧
      ((0x44 : Imm12), (mini [] []).mu.ier) ∈ [((0x44 : Imm12), (mini [] []).mu.ier)] := by decide

/-- The PL011 one byte deep with its FIFO full, and with one byte received. -/
theorem witness_pl011Access :
    (let u : Pl011 := { Pl011.reset with txf := [1] }
     u.txf.length = u.depth) ∧ (full [] [0x0D]).pl.txf.length ≠ (full [] [0x0D]).pl.depth ∧
      (full [] [0x0D]).pl.rxf = [0x0D] ∧ State.reset.pl.rxf = [] ∧ State.reset.pl.cr.getLsbD 0 = false ∧
      (0x70 : Word).getLsbD 0 = false ∧ (0x70 : Word).getLsbD 4 = true ∧
      ((0x301 : Word).getLsbD 1 = false ∧ (0x301 : Word).getLsbD 2 = false ∧ (0x301 : Word).getLsbD 7 = false ∧
        (0x301 : Word).getLsbD 14 = false ∧ (0x301 : Word).getLsbD 15 = false) ∧ (0xF8 : Word).extractLsb' 0 3 = 0 ∧
      (regs [(1, 0x301)] State.reset).reg 1 = some 0x301 := by decide

/-- The registers that read as free values, at each offset, and a disabled Mini UART's that needs its enable. -/
theorem witness_storedRegistersRead :
    (mini [] []).aux.enMu = true ∧
      ((2 : BitVec 4), (0x44 : Imm12)) ∈ [((0 : BitVec 4), (0x1C : Imm12)), (0, 0x20), (0, 0x28), (0, 0x2C), (1, 0x00),
        (2, 0x3C), (2, 0x40), (2, 0x44)] ∧
      ((1 : BitVec 4), (0x58 : Imm12)) ∈ [((1 : BitVec 4), (0x48 : Imm12)), (1, 0x58)] ∧
      ((0x50 : Imm12), (mini [] []).mu.mcr, (0x02 : BitVec 8)) ∈ [((0x44 : Imm12), (mini [] []).mu.ier, (0x03 : BitVec 8)),
        (0x4C, (mini [] []).mu.lcr, 0xC3), (0x50, (mini [] []).mu.mcr, 0x02), (0x5C, (mini [] []).mu.scratch, 0xFF),
        (0x60, (mini [] []).mu.cntl, 0xFF)] := by decide

theorem witness_registerAccessFrame :
    (∃ t, exec (.regRd 1 1 0x40) (mini [] [7]) = .next t) ∧ (∃ t, exec (.regRd 1 3 0) State.reset = .next t) ∧
      (∃ t, exec (.regWr 1 0 4) (filled [] (mini [] [])) = .next t) ∧ (0 : BitVec 4) ≠ 1 ∧ (0 : BitVec 4) ≠ 2 :=
  ⟨⟨_, rfl⟩, ⟨_, rfl⟩, ⟨_, rfl⟩, by decide, by decide⟩

theorem witness_gpioOperations :
    State.reset.op = none ∧ (59 : Imm12).toNat < 60 ∧ (53 : Imm12).toNat < 54 ∧ 60 ≤ (60 : Imm12).toNat ∧
      (63 : Imm12).toNat < 64 ∧ 64 ≤ (64 : Imm12).toNat ∧ (∃ t, exec (.gpioSetOutput 53) State.reset = .next t) ∧
      (∃ t, exec (.gpioSetHigh 63) State.reset = .next t) ∧ ∃ t, exec (.gpioSetLow 64) State.reset = .next t :=
  ⟨by decide, by decide, by decide, by decide, by decide, by decide, ⟨_, rfl⟩, ⟨_, rfl⟩, _, rfl⟩

/-- The launch state, no register written, and two registers written. -/
theorem witness_uninitialisedDriverFaults :
    (State.reset.drv = .uninit ∧ State.reset.op = none ∧ ∀ r, State.reset.reg r = none) ∧
    (let s := filled [(2, 4)] State.reset
     s.drv = .uninit ∧ s.op = none ∧ s.reg 1 = some 0 ∧ s.reg 2 = some 4) := by decide

theorem witness_initCompletes :
    (State.reset.op = none ∧ State.reset.cfg.variant = .mini) ∧ ((full [] []).op = none ∧ (full [] []).cfg.variant = .full) ∧
      (busyWith .uartInit .enables State.reset).op = some { instr := .uartInit, micro := .enables } ∧
      (busyWith .uartInit (.writes (initWritesFull fullCfg)) { State.reset with cfg := fullCfg }).op =
        some { instr := .uartInit, micro := .writes (initWritesFull fullCfg) } := by decide

theorem witness_lastAccessCompletes :
    ((busyWith (.gpioSetOutput 53) (.select 53 (.set 0)) State.reset).op =
        some { instr := .gpioSetOutput 53, micro := .select (53 : Imm12).toNat (.set 0) } ∧ (53 : Imm12).toNat < 60 ∧
      (53 : Imm12).toNat < 54 ∧ (0 : Word).extractLsb' (3 * ((53 : Imm12).toNat % 10)) 3 = 0) ∧
    ((busyWith .uartInit (.writes [(.aux, 0x48, 0x06)]) (mini [] [])).op =
        some { instr := .uartInit, micro := .writes [(.aux, 0x48, 0x06)] } ∧ (mini [] []).aux.enMu = true) ∧
    (busyWith .uartInit (.writes [(.uart0, 0x30, 0x301)]) (full [] [])).op =
        some { instr := .uartInit, micro := .writes [(.uart0, 0x30, 0x301)] } := by decide

theorem witness_lastAccessCompletes_string :
    let s := busyWith (.uartWriteString 1 2) (.strPut 0 2 1 0x69) (mini [1, 2, 3, 4, 5, 6, 7] [])
    s.op = some { instr := .uartWriteString 1 2, micro := .strPut 0 2 1 0x69 } ∧ 1 + 1 = 2 ∧ s.txHasRoom :=
  ⟨rfl, rfl, by decide, by decide⟩

/-- The transmit FIFO one below full, and full, of both variants. -/
theorem witness_writeByteResults :
    (let s := filled [] (mini [1, 2, 3, 4, 5, 6, 7] [])
     s.op = none ∧ s.drv = .ready ∧ s.uartReachable = true ∧ s.reg 1 = some 0 ∧ s.txFifo.length < s.txDepth) ∧
    (let s := filled [] (mini eight [])
     s.op = none ∧ s.drv = .ready ∧ s.uartReachable = true ∧ s.reg 1 = some 0 ∧ s.txFifo.length = s.txDepth) ∧
    (let s := filled [] (full (eight ++ eight) [])
     s.op = none ∧ s.drv = .ready ∧ s.uartReachable = true ∧ s.reg 1 = some 0 ∧ s.txFifo.length = s.txDepth) ∧
    (let s := busyWith (.uartWriteByte 1) (.txPoll 0x41) (mini [1, 2, 3, 4, 5, 6, 7] [])
     s.op = some { instr := .uartWriteByte 1, micro := .txPoll 0x41 } ∧ s.uartReachable = true ∧
       s.txFifo.length < s.txDepth) ∧
    (soundPut.op = some { instr := .uartWriteByte 1, micro := .txPut 0x41 } ∧ soundPut.uartReachable = true ∧
      soundPut.txFifo.length < soundPut.txDepth) := by decide

/-- A string ending at the end of the RAM that just fits the FIFO, one that ends past the RAM, and one of length 0. -/
theorem witness_writeStringResults :
    (let s := filled [(1, 65528), (2, 8)] (mini [] [])
     s.op = none ∧ s.drv = .ready ∧ s.uartReachable = true ∧ s.reg 1 = some 65528 ∧ s.reg 2 = some 8 ∧
       (65528 : Word).toNat + (8 : Word).toNat ≤ s.cfg.ramSize ∧ (8 : Word) ≠ 0 ∧
       s.txFifo.length + (8 : Word).toNat ≤ s.txDepth ∧
       s.cfg.ramSize < (65528 : Word).toNat + (9 : Word).toNat) ∧
    (65536 : Word).toNat + (0 : Word).toNat ≤ State.reset.cfg.ramSize := by decide

/-- A string's byte and its spin without and with room, the byte the last one and not. -/
theorem witness_writeStringResults_spins :
    (let s := busyWith (.uartWriteString 1 2) (.strByte 0 2 1) (full [] [])
     s.op = some { instr := .uartWriteString 1 2, micro := .strByte 0 2 1 } ∧ s.uartReachable = true ∧
       s.txFifo.length < s.txDepth) ∧
    (let s := busyWith (.uartWriteString 1 2) (.strPut 0 2 0 0x48) (mini [1, 2, 3, 4, 5, 6, 7] [])
     s.op = some { instr := .uartWriteString 1 2, micro := .strPut 0 2 0 0x48 } ∧ s.uartReachable = true ∧
       s.txFifo.length < s.txDepth ∧ 0 + 1 < 2 ∧ 2 ≤ 1 + 1) ∧
    (let s := busyWith (.uartWriteString 1 2) (.strByte 0 2 0) (mini eight [])
     s.op = some { instr := .uartWriteString 1 2, micro := .strByte 0 2 0 } ∧ s.uartReachable = true ∧
       s.txFifo.length = s.txDepth) ∧
    (let s := busyWith (.uartWriteString 1 2) (.strPoll 0 2 1 0x69) (full (eight ++ eight) [])
     s.op = some { instr := .uartWriteString 1 2, micro := .strPoll 0 2 1 0x69 } ∧ s.uartReachable = true ∧
       s.txFifo.length = s.txDepth ∧ 2 ≤ 1 + 1) ∧
    (let s := busyWith (.uartWriteString 1 2) (.strPoll 0 2 0 0x48) (mini [1, 2, 3, 4, 5, 6, 7] [])
     s.op = some { instr := .uartWriteString 1 2, micro := .strPoll 0 2 0 0x48 } ∧ s.uartReachable = true ∧
       s.txFifo.length < s.txDepth ∧ 0 + 1 < 2) := by decide

theorem witness_readByteAndDataReady :
    (let s := mini [] [0x41]
     s.op = none ∧ s.drv = .ready ∧ s.uartReachable = true ∧ s.rxFifo = [0x41]) ∧
    (let s := full [] []
     s.op = none ∧ s.drv = .ready ∧ s.uartReachable = true ∧ s.rxFifo = []) ∧
    (let s := busyWith (.uartReadByte 1 2) .rxGet (mini [] [0x41])
     s.op = some { instr := .uartReadByte 1 2, micro := .rxGet } ∧ s.uartReachable = true ∧ s.rxFifo = [0x41]) ∧
    (1 : RegIdx) ≠ 2 := by decide

theorem witness_flushResults :
    (let s := mini [] []
     s.op = none ∧ s.drv = .ready ∧ s.uartReachable = true ∧ s.txPathIdle = true) ∧
    (let s := full [0x41] []
     s.op = none ∧ s.drv = .ready ∧ s.uartReachable = true ∧ s.txPathIdle = false) ∧
    (let s := busyWith .uartFlush .idlePoll (mini [] [])
     s.op = some { instr := .uartFlush, micro := .idlePoll } ∧ s.uartReachable = true ∧ s.txPathIdle = true) ∧
    (busyWith .uartFlush .idlePoll (full [0x41] [])).txPathIdle = false := by decide

/-- Capacities 0, 1 and 2, and a buffer that ends with the RAM or one past it. -/
theorem witness_readLineStarts :
    let s := filled [(1, 65534), (2, 2)] (mini [] [])
    s.op = none ∧ s.drv = .ready ∧ s.uartReachable = true ∧ s.reg 1 = some 65534 ∧ s.reg 2 = some 2 ∧ s.reg 3 = some 0 ∧
      (65534 : Word).toNat + (2 : Word).toNat ≤ s.cfg.ramSize ∧ 2 ≤ (2 : Word).toNat ∧
      s.cfg.ramSize < (65534 : Word).toNat + (3 : Word).toNat ∧ (3 : Word) ≠ 0 ∧ (65535 : Word).toNat + 1 ≤ s.cfg.ramSize ∧
      Memory.wf s.ram = true := by decide

/-- The cursor at the last data place and before it; a byte of each kind. -/
theorem witness_readLineTakesBytes :
    (let s := busyWith (.uartReadLine 3 1 2) (.line 0x10 8 6 .rxGet) (mini [1, 2, 3, 4, 5, 6, 7] [0x61])
     s.op = some { instr := .uartReadLine 3 1 2, micro := .line 0x10 8 6 .rxGet } ∧ s.uartReachable = true ∧
       s.rxFifo = [0x61] ∧ 6 + 2 = 8 ∧ 5 + 2 < 8 ∧ 8 < 2 ^ 32 ∧ Memory.wf s.ram = true ∧ s.txFifo.length < s.txDepth ∧
       (0x61 : Byte) ≠ 0x0D ∧ (0x61 : Byte) ≠ 0x0A ∧ (0x61 : Byte) ≠ 0x08 ∧ (0x61 : Byte) ≠ 0x7F) ∧
    (busyWith (.uartReadLine 3 1 2) (.line 0x10 8 0 .rxGet) (full [] [0x7F])).rxFifo = [0x7F] ∧
    (busyWith (.uartReadLine 3 1 2) (.line 0x10 8 6 .rxGet) (full [] [0x0A])).rxFifo = [0x0A] := by decide

/-- A line's accesses: awaiting a byte, none there and one there; a data byte taken with the transmit FIFO full; a byte
stored without and with room for its echo; an echo without and with room; the erase echo with just the room it needs, the
cursor at the last place before the end. -/
theorem witness_readLineTakesBytes_spins :
    (let s := busyWith (.uartReadLine 3 1 2) (.line 0x10 8 0 .rxPoll) (mini [] [])
     s.op = some { instr := .uartReadLine 3 1 2, micro := .line 0x10 8 0 .rxPoll } ∧ s.uartReachable = true ∧
       s.rxFifo = []) ∧
    (busyWith (.uartReadLine 3 1 2) (.line 0x10 8 0 .rxPoll) (full [] [0x61])).rxFifo ≠ [] ∧
    (let s := busyWith (.uartReadLine 3 1 2) (.line 0x10 8 6 (.store 0x61)) (mini eight [])
     s.op = some { instr := .uartReadLine 3 1 2, micro := .line 0x10 8 6 (.store 0x61) } ∧ s.uartReachable = true ∧
       s.txFifo.length = s.txDepth ∧ Memory.wf s.ram = true) ∧
    (let s := busyWith (.uartReadLine 3 1 2) (.line 0x10 8 7 (.echo [0x61])) (mini eight [])
     s.op = some { instr := .uartReadLine 3 1 2, micro := .line 0x10 8 7 (.echo [0x61]) } ∧ s.uartReachable = true ∧
       s.txFifo.length = s.txDepth) ∧
    (let s := busyWith (.uartReadLine 3 1 2) (.line 0x10 8 6 (.echo [0x08, 0x20, 0x08])) (mini [1, 2, 3, 4, 5] [])
     s.op = some { instr := .uartReadLine 3 1 2, micro := .line 0x10 8 6 (.echo [0x08, 0x20, 0x08]) } ∧
       s.uartReachable = true ∧ s.txFifo.length < s.txDepth ∧ 6 + 2 ≤ 8 ∧ s.txFifo.length + 3 ≤ s.txDepth) ∧
    (let s := busyWith (.uartReadLine 3 1 2) (.line 0x10 8 6 .rxGet) (mini eight [0x61])
     s.op = some { instr := .uartReadLine 3 1 2, micro := .line 0x10 8 6 .rxGet } ∧ s.uartReachable = true ∧
       s.rxFifo = [0x61] ∧ s.txFifo.length = s.txDepth) ∧
    (let s := busyWith (.uartReadLine 3 1 2) (.line 0x10 8 6 (.store 0x61)) (full [] [])
     s.op = some { instr := .uartReadLine 3 1 2, micro := .line 0x10 8 6 (.store 0x61) } ∧ s.uartReachable = true ∧
       s.txFifo.length < s.txDepth) := by decide

/-- A line's echo written: with a byte of it left, the last one with the buffer not full, and with it full. -/
theorem witness_readLineTakesBytes_put :
    (let s := busyWith (.uartReadLine 3 1 2) (.line 0x10 8 2 (.put [0x08, 0x20])) (mini [1, 2, 3, 4, 5, 6, 7] [])
     s.op = some { instr := .uartReadLine 3 1 2, micro := .line 0x10 8 2 (.put [0x08, 0x20]) } ∧ s.uartReachable = true ∧
       s.txFifo.length < s.txDepth ∧ Memory.wf s.ram = true ∧ [(0x20 : Byte)] ≠ []) ∧
    ((busyWith (.uartReadLine 3 1 2) (.line 0x10 8 6 (.put [0x61])) (full [] [])).op =
        some { instr := .uartReadLine 3 1 2, micro := .line 0x10 8 6 (.put [0x61]) } ∧ 6 + 1 ≠ 8) ∧
    ((busyWith (.uartReadLine 3 1 2) (.line 0x10 8 7 (.put [0x61])) (full [] [])).op =
        some { instr := .uartReadLine 3 1 2, micro := .line 0x10 8 7 (.put [0x61]) } ∧ 7 + 1 = 8) := by decide

/-- A sound state with a line in progress at the end of the RAM, its last data byte about to be stored. -/
def soundLine : State :=
  busyWith (.uartReadLine 3 1 2) (.line 65528 8 6 (.store 0x61)) (filled [] (mini [] []))

theorem witness_lineStaysInItsBuffer :
    soundLine.sound ∧ soundLine.op = some { instr := .uartReadLine 3 1 2, micro := .line 65528 8 6 (.store 0x61) } ∧
      ∃ t, exec (.uartReadLine 3 1 2) soundLine = .next t :=
  ⟨⟨⟨by decide, by decide⟩, ⟨by decide, by decide, by decide, by decide⟩, fun _ h => by
    cases h; exact ⟨by decide, show 6 + 2 ≤ 8 by decide⟩⟩, rfl, _, rfl⟩

theorem witness_driverNeverOverflows :
    let s := filled [] (mini eight [])
    s.sound ∧ (∀ q, s.op = some q → q.instr = .regWr 1 1 0x40) ∧ s.status = .running ∧
      ∃ t, exec (.regWr 1 1 0x40) s = .next t ∧ t.status = .faulted (.txOverflow .mu) 0 :=
  ⟨⟨⟨by decide, by decide⟩, ⟨by decide, by decide, by decide, by decide⟩, fun _ h => by cases h⟩,
    (fun _ h => by cases h), rfl, _, rfl, rfl⟩

theorem witness_uartFrames :
    (∃ t, exec .uartFlush (mini [] []) = .next t) ∧ (∃ t, exec (.uartReadLine 3 1 2) soundLine = .next t) ∧
      (mini [] []).cfg.variant = .mini ∧ (∃ t, exec (.uartWriteByte 1) (filled [] (full [] [])) = .next t) ∧
      (full [] []).cfg.variant = .full ∧ (∃ t, exec .uartInit (mini [] []) = .next t) ∧ (mini [] []).drv = .ready ∧
      ∀ ws, (mini [] []).op ≠ some ⟨.uartInit, .writes ws⟩ :=
  ⟨⟨_, rfl⟩, ⟨_, rfl⟩, rfl, ⟨_, rfl⟩, rfl, ⟨_, rfl⟩, rfl, fun _ h => by cases h⟩

/-- A line that starts with its operands written, and with one unwritten. -/
theorem witness_uartOperationsFrame_line :
    (let s := filled [(1, 65534), (2, 2)] (mini [] [])
     s.op = none ∧ s.reg 1 = some 65534 ∧ s.reg 2 = some 2 ∧ ∃ t, exec (.uartReadLine 3 1 2) s = .next t) ∧
    (State.reset.op = none ∧ State.reset.reg 1 = none ∧ ∃ t, exec (.uartReadLine 3 1 2) State.reset = .next t) :=
  ⟨⟨rfl, by decide, by decide, _, rfl⟩, rfl, by decide, _, rfl⟩

/-- Sound states with an initialisation in progress, of each UART, writing and selecting. -/
theorem witness_initFrame_sound :
    (∃ t, exec .uartInit (busyWith .uartInit (.writes [(.aux, 0x48, 6)]) (mini [] [])) = .next t) ∧
    (busyWith .uartInit (.writes [(.aux, 0x48, 6)]) (mini [] [])).sound ∧
    (∃ t, exec .uartInit (busyWith .uartInit (.writes [(.uart0, 0x30, 0x301)]) (full [] [])) = .next t) ∧
    (busyWith .uartInit (.writes [(.uart0, 0x30, 0x301)]) (full [] [])).sound ∧ (full [] []).sound :=
  ⟨⟨_, rfl⟩,
    ⟨⟨by decide, by decide⟩, ⟨by decide, by decide, by decide, by decide⟩, fun _ h => by
      cases h; show ∀ w ∈ _, _; decide⟩,
    ⟨_, rfl⟩,
    ⟨⟨by decide, by decide⟩, ⟨by decide, by decide, by decide, by decide⟩, fun _ h => by
      cases h; show ∀ w ∈ _, _; decide⟩,
    ⟨⟨by decide, by decide⟩, ⟨by decide, by decide, by decide, by decide⟩, fun _ h => by cases h⟩⟩

theorem witness_engines :
    (let s := mini [0x48] []
     s.aux.enMu = true ∧ s.mu.cntl.getLsbD 1 = true ∧ s.mu.busy = none ∧ s.mu.txf = [0x48] ∧ s.enabled .mu = true) ∧
    (mini [0x48] []).muStep.mu.busy = some { byte := 0x48, cfg := { size := 3, baud := 270 }, intact := true } ∧
    (let s := full [0x48] []
     s.pl.cr.getLsbD 0 = true ∧ s.pl.cr.getLsbD 8 = true ∧ s.pl.busy = none ∧ s.pl.txf = [0x48] ∧
       s.enabled .pl011 = true) ∧
    (full [0x48] []).plStep.pl.busy =
      some { byte := 0x48, cfg := { lcrh := 0x70, ibrd := 26, fbrd := 3 }, intact := true } := by decide

/-- Each case of the host's send step: unrouted; routed to each UART disabled, full, and with room. -/
theorem witness_hostSends :
    (sending [0x41, 0x42] State.reset).lineIn.head = some 0x41 ∧
    (sending [0x41, 0x42] State.reset).lineIn.listed = [0x41, 0x42] ∧
    (State.reset.gpio.fselAt 15 ≠ 0b010 ∧ State.reset.gpio.fselAt 15 ≠ 0b100) ∧
    ({ State.reset with gpio := pins 0b010 }.gpio.fselAt 15 = 0b010 ∧ State.reset.aux.enMu = false) ∧
    ({ State.reset with gpio := pins 0b100 }.gpio.fselAt 15 = 0b100 ∧ State.reset.pl.cr.getLsbD 0 = false) ∧
    ((mini [] eight).gpio.fselAt 15 = 0b010 ∧ (mini [] eight).mu.cntl.getLsbD 0 = true ∧
      (mini [] eight).mu.rxf.length = 8 ∧ (mini [] []).mu.rxf.length ≠ 8 ∧ (mini [] []).mu.lcr.extractLsb' 0 2 = 0b11 ∧
      (mini [] []).mu.baud = muBaudDiv Config.named) ∧
    ((full [] (eight ++ eight)).gpio.fselAt 15 = 0b100 ∧ (full [] (eight ++ eight)).pl.cr.getLsbD 9 = true ∧
      (full [] (eight ++ eight)).pl.rxf.length = (full [] (eight ++ eight)).pl.depth ∧
      ((full [] []).pl.actLcrh.extractLsb' 5 2 = 0b11 ∧ (full [] []).pl.actLcrh.getLsbD 1 = false ∧
        (full [] []).pl.actLcrh.getLsbD 3 = false ∧ (full [] []).pl.actLcrh.getLsbD 0 = false ∧
        (full [] []).pl.actIbrd = pl011Ibrd fullCfg ∧ (full [] []).pl.actFbrd = pl011Fbrd fullCfg) ∧
      (full [] []).pl.rxf.length ≠ (full [] []).pl.depth) := by decide

/-- A good entry of each UART, and entries that are not: not intact, not routed, and each field of the configuration off. -/
theorem witness_hostReceivesExactFrames :
    let c := Config.named
    let m (size : BitVec 2) (baud : BitVec 16) (intact routed : Bool) : LineEntry := .mu ⟨0x48, ⟨size, baud⟩, intact⟩ routed
    let p (lcrh : Byte) (ibrd : BitVec 16) (fbrd : BitVec 6) : LineEntry := .pl011 ⟨0x48, ⟨lcrh, ibrd, fbrd⟩, true⟩ true
    (BitVec.ofNat 16 (c.coreClk / (8 * c.baud) - 1) = 270 ∧ pl011Ibrd c = 26 ∧ pl011Fbrd c = 3) ∧
    ((m 3 270 true true).exact c = true ∧ (p 0x70 26 3).exact c = true) ∧
    ((m 3 270 false true).exact c = false ∧ (m 3 270 true false).exact c = false ∧ (m 0 270 true true).exact c = false ∧
      (m 3 271 true true).exact c = false) ∧
    ((p 0x50 26 3).exact c = false ∧ (p 0x72 26 3).exact c = false ∧ (p 0x78 26 3).exact c = false ∧
      (p 0x71 26 3).exact c = false ∧ (p 0x70 27 3).exact c = false ∧ (p 0x70 26 4).exact c = false) ∧
    hostReceives c [m 3 270 true true] [0x48] ∧ hostReceives c [p 0x70 26 3] [0x48] :=
  ⟨by decide, by decide, by decide, by decide, ⟨[], rfl, rfl⟩, [], rfl, rfl⟩

/-! ### A fair run that flushes: the CPU agent polls, the engine sends the byte, the flush ends, the program loops -/

/-- The start: one byte to send, `UART_FLUSH` in its spin, then `J -1` for ever. -/
def flushStart : State :=
  busyWith .uartFlush .idlePoll { mini [0x48] [] with prog := [0x24000000, 0x4A00FFFF], sched := [.cpu, .mu, .mu, .cpu] }

/-- The next state of a step, or the same one. -/
def follow (s : State) : State := (after (step s) id).getD s

/-- The run from `flushStart`. -/
def flushRun : Nat → State
  | 0 => flushStart
  | n + 1 => follow (flushRun n)

/-- From its fifth state on the run is in its loop: only the CPU agent can step. -/
def Looping (s : State) : Prop :=
  s.status = .running ∧ s.op = none ∧ s.opc = 1 ∧ s.prog = [0x24000000, 0x4A00FFFF] ∧
    s.enabled .mu = false ∧ s.enabled .pl011 = false ∧ s.enabled .host = false

theorem Looping.turn {s : State} (h : Looping s) : s.turn = some .cpu := by
  obtain ⟨h1, -, -, -, h5, h6, h7⟩ := h
  have hc : s.enabled .cpu = true := by simp [State.enabled, h1]
  unfold State.turn State.dutiful
  split_ifs with hh
  · cases hch : s.chosen <;> simp_all
  all_goals simp [hc]

theorem Looping.step {s : State} (h : Looping s) :
    Machine.step s = .next (follow s) ∧ Looping (follow s) := by
  have ht := h.turn
  obtain ⟨h1, h2, h3, h4, h5, h6, h7⟩ := h
  have hd : decode 0x4A00FFFF = .ok (.j 0xFFFF) := by decide
  have hs : ∃ l d, Machine.step s = .next { s with sched := l, draws := d } := by
    have ha : ∃ l d, s.afterTurn = { s with sched := l, draws := d } := by
      unfold State.afterTurn; split <;> exact ⟨_, _, rfl⟩
    obtain ⟨l, d, ha⟩ := ha
    refine ⟨l, d, ?_⟩
    have hf : s.fetch = some 0x4A00FFFF := by simp [State.fetch, h3, h4]
    have hfa : s.afterTurn.fetch = some 0x4A00FFFF := by rw [ha]; exact hf
    have hoa : s.afterTurn.op = none := by rw [ha]; exact h2
    have e : Machine.step s = exec (.j 0xFFFF) s.afterTurn := by
      simp only [Machine.step, ht, cpuStep, hoa, fetchStep, hfa, hd]
    have hb : s.opc + 1 + (0xFFFF : Imm16).toInt = s.opc := by rw [h3]; decide
    rw [e, ha]
    show Host.Outcome.next ({ s with sched := l, draws := d, opc := s.opc + 1 + (0xFFFF : Imm16).toInt, op := none } : State) = _
    rw [hb, ← h2]
  obtain ⟨l, d, hs⟩ := hs
  have hfl : follow s = { s with sched := l, draws := d } := by simp [follow, hs, after]
  exact ⟨by rw [hfl]; exact hs, by rw [hfl]; exact ⟨h1, h2, h3, h4, h5, h6, h7⟩⟩

theorem flushRun_loops : ∀ k, Looping (flushRun (4 + k))
  | 0 => ⟨by decide, by decide, by decide, by decide, by decide, by decide, by decide⟩
  | k + 1 => (flushRun_loops k).step.2

theorem flushRun_isRun : IsRun flushRun := by
  intro n
  rcases Nat.lt_or_ge n 4 with h | h
  · left; interval_cases n <;> rfl
  · obtain ⟨k, rfl⟩ := Nat.exists_eq_add_of_le h
    exact .inl (flushRun_loops k).step.1

theorem flushRun_fair : IsFair flushRun := by
  have idle : ∀ a, a ≠ Agent.cpu → WeaklyFair a flushRun := fun a ha n h => by
    have hl := flushRun_loops n
    have := h (4 + n) (by omega)
    obtain ⟨-, -, -, -, h5, h6, h7⟩ := hl
    cases a <;> simp_all
  exact ⟨fun n _ => ⟨4 + n, by omega, (flushRun_loops n).turn⟩, fun _ => ⟨idle _ (by decide), idle _ (by decide)⟩,
    idle _ (by decide)⟩

theorem witness_flushTerminatesUnderFairness :
    IsRun flushRun ∧ IsFair flushRun ∧ (flushRun 0).cfg.clocked = true ∧ (flushRun 0).status = .running ∧
      (flushRun 0).op = some ⟨.uartFlush, .idlePoll⟩ ∧ ((flushRun 0).cfg.variant = .mini → (flushRun 0).muTxEnabled = true) ∧
      ((flushRun 0).cfg.variant = .full → (flushRun 0).pl.txEnabled = true) :=
  ⟨flushRun_isRun, flushRun_fair, by decide, by decide, by decide, by decide, by decide⟩

end Sys2Proof.Tests
end

section
/-! The CPU agent's micro-step, said once: which updates of the state it is made of. An invariant of `exec`, `cpuStep` and
`step` is then a fact about each of these updates. -/

namespace Sys2Proof.Machine

/-! ### The selected UART as a status read shows it -/

/-- A status read that shows room leaves room, the FIFOs being within their depths. -/
theorem State.txHasRoom_statusRead {s : State} (hb : s.fifosBounded) (hr : s.uartReachable = true)
    (hc : s.canPut = true) : s.statusRead.txHasRoom := by
  have hle : s.txFifo.length ≤ s.txDepth := by
    obtain ⟨hmu, -, hpl, -⟩ := hb
    unfold State.txFifo State.txDepth
    cases s.cfg.variant
    · exact hmu
    · exact hpl
  have hne : s.txFifo.length ≠ s.txDepth := fun he => by simp [s.canPut_of_full he] at hc
  simpa [State.txHasRoom_iff, hr] using Nat.lt_of_le_of_ne hle hne

/-- A status read that shows a byte leaves it there. -/
theorem State.rxHasByte_statusRead {s : State} (hr : s.uartReachable = true) (hc : (!s.rxFifo.isEmpty) = true) :
    s.statusRead.rxHasByte := by
  simpa [State.rxHasByte_iff, hr] using hc

/-! ### What an operation relies on -/

/-- The operation in progress of a sound state can rely on what it has seen. -/
theorem State.microSound_microOf {s : State} (i : Instr) (hs : s.sound) : s.microSound (s.microOf i) := by
  obtain ⟨-, -, hop⟩ := hs
  unfold State.microOf
  cases ho : s.op with
  | none => trivial
  | some o =>
    dsimp only
    split_ifs
    · exact hop o ho
    · trivial

theorem State.uartBlock_congr {s t : State} (hc : t.cfg = s.cfg) : t.uartBlock = s.uartBlock := by
  unfold State.uartBlock; rw [hc]

/-- `EngineInit_MINI` writes the Auxiliary block, and no data register (R305). -/
theorem State.microSound_initWritesMini {s : State} (hv : s.cfg.variant = .mini) (c : Config) (e : Word) :
    s.microSound (.writes (initWritesMini c e)) := by
  simp [State.microSound, initWritesMini, State.uartBlock, hv, regAt]

/-- `EngineInit_FULL` writes the PL011's block, and no data register (R355). -/
theorem State.microSound_initWritesFull {s : State} (hv : s.cfg.variant = .full) (c : Config) :
    s.microSound (.writes (initWritesFull c)) := by
  simp [State.microSound, initWritesFull, State.uartBlock, hv, regAt]

/-! ### The updates a micro-step is made of -/

/-- `P` holds all through a micro-step of the CPU agent from `s`, and `Q` after it: `P` is kept by each update a micro-step
makes on its way, and each way it can end leads from `P` to `Q`. A store lies inside the RAM, and a pause leaves what the
operation relies on, provided `s` is sound. -/
structure MicroStepKeeps (s : State) (P Q : State → Prop) : Prop where
  start : P s
  setReg : ∀ {t r v}, P t → P (t.setReg r v)
  setRam : ∀ {t a b}, P t → (s.sound → a < t.cfg.ramSize) → P (t.setRam a b)
  read : ∀ {t blk off r}, P t → P (t.readReg blk off r)
  write : ∀ {t blk off r v}, P t → checkWrite blk off v t = .ok r → P (t.writeReg blk off r v)
  raise : ∀ {t c}, P t → Q (t.raise c)
  goto : ∀ {t n}, P t → Q (t.goto n)
  pause : ∀ {t i m}, P t → (s.sound → t.microSound m) → Q (t.pause i m)
  initDone : ∀ {t : State}, P t → Q t.initDone
  halt : ∀ {t : State}, P t → Q { t.goto t.opc with status := .halted }

namespace MicroStepKeeps

section
variable {s t : State} {P Q : State → Prop} (h : MicroStepKeeps s P Q)
include h

/-! ### Accesses -/

theorem regRead {blk : Block} {off : Nat} {k : Drawn → State → Res} (ht : P t)
    (hk : ∀ d u, P u → u.cfg = t.cfg → (k d u).all Q) : (regRead blk off t k).all Q :=
  regRead_all (fun _ _ => h.raise ht) fun _ _ => hk _ _ (h.read ht) (by simp)

theorem regWrite {blk : Block} {off : Nat} {v : Word} {k : State → Res} (ht : P t)
    (hk : ∀ u, P u → u.cfg = t.cfg → (k u).all Q) : (regWrite blk off v t k).all Q :=
  regWrite_all (fun _ _ => h.raise ht) fun _ hc => hk _ (h.write ht hc) (by simp)

theorem statusRead (ht : P t) : P t.statusRead := by
  unfold State.statusRead
  cases t.cfg.variant
  · exact h.read ht
  · exact h.read ht

theorem txReady {k : Bool → State → Res} (ht : P t) (hb : s.sound → t.fifosBounded)
    (hk : ∀ room u, P u → u.cfg = t.cfg → (s.sound → room = true → u.txHasRoom) → (k room u).all Q) :
    (txReady t k).all Q :=
  txReady_all (fun _ => h.raise ht) fun hr =>
    hk _ _ (h.statusRead ht) (by simp) fun hs => State.txHasRoom_statusRead (hb hs) hr

theorem rxReady {k : Bool → State → Res} (ht : P t)
    (hk : ∀ ready u, P u → u.cfg = t.cfg → (ready = true → u.rxHasByte) → (k ready u).all Q) :
    (rxReady t k).all Q :=
  rxReady_all (fun _ => h.raise ht) fun hr =>
    hk _ _ (h.statusRead ht) (by simp) (State.rxHasByte_statusRead hr)

theorem txIdle {k : Bool → State → Res} (ht : P t) (hk : ∀ idle u, P u → (k idle u).all Q) : (txIdle t k).all Q :=
  txIdle_all (fun _ => h.raise ht) fun _ => hk _ _ (h.statusRead ht)

theorem rxGet {k : Byte → State → Res} (ht : P t) (hk : ∀ b u, P u → u.cfg = t.cfg → (k b u).all Q) :
    (rxGet t k).all Q := by
  unfold Machine.rxGet
  cases t.cfg.variant
  · exact h.regRead ht fun d => hk d.byte
  · exact h.regRead ht fun d => hk d.byte

theorem txPut {b : Byte} {k : State → Res} (ht : P t) (hk : ∀ u, P u → u.cfg = t.cfg → (k u).all Q) :
    (txPut b t k).all Q := by
  unfold Machine.txPut
  cases t.cfg.variant
  · exact h.regWrite ht hk
  · exact h.regWrite ht hk

/-! ### Operands, with the state as the instruction found it -/

theorem withReg {r : RegIdx} {k : Word → Res} (hk : ∀ v, (k v).all Q) : (withReg r s k).all Q :=
  withReg_all (fun _ => h.raise h.start) fun v _ => hk v

theorem withReady {op : BitVec 8} {k : Res} (hk : k.all Q) : (withReady op s k).all Q :=
  withReady_all (fun _ => h.raise h.start) fun _ => hk

theorem withRam {a n : Nat} {k : Res} (hk : a + n ≤ s.cfg.ramSize → k.all Q) : (withRam a n s k).all Q :=
  withRam_all (fun _ => h.raise h.start) hk

theorem withBlock {i : Instr} {rc : BitVec 4} {k : Block → Res} (hk : ∀ b, (k b).all Q) : (withBlock i rc s k).all Q :=
  withBlock_all (fun _ => h.raise h.start) fun b _ => hk b

theorem withBitIndex {n : Imm12} {k : Nat → Res} (hk : (k n.toNat).all Q) : (withBitIndex n s k).all Q :=
  withBitIndex_all (fun _ => h.raise h.start) fun _ => hk

/-! ### Register access, bit utilities, harness -/

theorem execRegRd (xd : RegIdx) (blk : BitVec 4) (off : Imm12) : (execRegRd xd blk off s).all Q :=
  h.withBlock fun _ => h.regRead h.start fun _ _ hu _ => h.goto (h.setReg hu)

theorem execRegWr (xs : RegIdx) (blk : BitVec 4) (off : Imm12) : (execRegWr xs blk off s).all Q :=
  h.withBlock fun _ => h.withReg fun _ => h.regWrite h.start fun _ hu _ => h.goto hu

theorem bitOp (f : Word → Nat → Word) (xd xs : RegIdx) (n : Imm12) : (bitOp f xd xs n s).all Q :=
  h.withReg fun _ => h.withBitIndex (h.goto (h.setReg h.start))

theorem execLih (xd : RegIdx) (imm : Imm16) : (execLih xd imm s).all Q :=
  h.withReg fun _ => h.goto (h.setReg h.start)

theorem execAddi (xd xs : RegIdx) (imm : Imm16) : (execAddi xd xs imm s).all Q :=
  h.withReg fun _ => h.goto (h.setReg h.start)

theorem execLdb (xd xb : RegIdx) (imm : Imm16) : (execLdb xd xb imm s).all Q :=
  h.withReg fun _ => h.withRam fun _ => h.goto (h.setReg h.start)

theorem execStb (xs xb : RegIdx) (imm : Imm16) : (execStb xs xb imm s).all Q :=
  h.withReg fun _ => h.withReg fun _ => h.withRam fun hin => h.goto (h.setRam h.start fun _ => hin)

theorem execBz (xs : RegIdx) (off : Imm16) : (execBz xs off s).all Q :=
  h.withReg fun v => by
    show Q (if v = 0 then s.goto (s.branchTarget off) else s.finish)
    split_ifs
    · exact h.goto h.start
    · exact h.goto h.start

theorem execBnz (xs : RegIdx) (off : Imm16) : (execBnz xs off s).all Q :=
  h.withReg fun v => by
    show Q (if v = 0 then s.finish else s.goto (s.branchTarget off))
    split_ifs
    · exact h.goto h.start
    · exact h.goto h.start

/-! ### GPIO operations -/

theorem selectFunction {i : Instr} {pin : Nat} {code : BitVec 3} {ph : SelPhase} {k : State → Res}
    (hk : ∀ u, P u → u.cfg = s.cfg → (k u).all Q) : (selectFunction i pin code ph s k).all Q := by
  unfold Machine.selectFunction
  cases ph with
  | read =>
    refine h.regRead h.start fun d u hu _ => ?_
    cases s.cfg.fselShape <;> exact h.pause hu fun _ => trivial
  | clear v =>
    refine h.regWrite h.start fun u hu _ => ?_
    cases s.cfg.fselShape <;> exact h.pause hu fun _ => trivial
  | reread => exact h.regRead h.start fun d u hu _ => h.pause hu fun _ => trivial
  | set v => exact h.regWrite h.start hk

theorem execGpioSetOutput (pin : Imm12) : (execGpioSetOutput pin s).all Q := by
  unfold Machine.execGpioSetOutput
  dsimp only
  split_ifs
  · exact h.goto h.start
  · split <;> exact h.selectFunction fun u hu _ => h.goto hu

theorem writeBank (lo hi p : Nat) : (writeBank lo hi p s).all Q := by
  unfold Machine.writeBank
  split_ifs
  · exact h.regWrite h.start fun _ hu _ => h.goto hu
  · exact h.regWrite h.start fun _ hu _ => h.goto hu
  · exact h.raise h.start

/-! ### `UART_INIT` -/

theorem initWrite {ws : List (Block × Nat × Word)} (hw : s.sound → s.microSound (.writes ws)) :
    (initWrite ws s).all Q := by
  unfold Machine.initWrite
  split
  · exact h.initDone h.start
  · exact h.regWrite h.start fun u hu _ => h.initDone hu
  · refine h.regWrite h.start fun u hu hc => h.pause hu fun hs x hx => ?_
    rw [State.uartBlock_congr hc]
    exact hw hs x (List.mem_cons_of_mem _ hx)

theorem initAfterPin {pin : Nat} (ht : P t) : Q (initAfterPin pin t) := by
  unfold Machine.initAfterPin
  split_ifs
  · exact h.pause ht fun _ => trivial
  · cases hv : t.cfg.variant
    · exact h.pause ht fun _ => hv
    · exact h.pause ht fun _ => State.microSound_initWritesFull hv _

theorem execUartInit : (execUartInit s).all Q := by
  have hm := State.microSound_microOf (s := s) .uartInit
  have select (pin : Nat) (ph : SelPhase) : (initSelect pin ph s).all Q :=
    h.selectFunction fun u hu _ => h.initAfterPin hu
  unfold Machine.execUartInit
  split <;> rename_i heq
  · split_ifs
    · exact select _ _
    · exact select _ _
  · rw [heq] at hm
    refine h.regRead h.start fun d u hu hc => h.pause hu fun hs => ?_
    exact State.microSound_initWritesMini (by rw [hc]; exact hm hs) _ _
  · rw [heq] at hm
    exact h.initWrite hm
  · exact select _ _

/-! ### `UART_WRITE_BYTE`, `UART_WRITE_STRING` -/

theorem writeBytePoll (i : Instr) (b : Byte) : (writeBytePoll i b s).all Q :=
  h.txReady h.start (fun hs => hs.2.1) fun room u hu _ hroom => h.pause hu fun hs => by
    cases room
    · trivial
    · exact hroom hs rfl

theorem execUartWriteByte (xs : RegIdx) : (execUartWriteByte xs s).all Q := by
  unfold Machine.execUartWriteByte
  dsimp only
  split
  · exact h.writeBytePoll _ _
  · exact h.txPut h.start fun u hu _ => h.goto hu
  · exact h.withReg fun v => h.withReady (h.writeBytePoll _ _)

theorem stringPoll {i : Instr} {a n k : Nat} {b : Byte} (hr : s.sound → k < n ∧ a + n ≤ s.cfg.ramSize) :
    (stringPoll i a n k b s).all Q :=
  h.txReady h.start (fun hs => hs.2.1) fun room u hu hc hroom => h.pause hu fun hs => by
    rw [← hc] at hr
    obtain ⟨hk, hn⟩ := hr hs
    cases room
    · exact ⟨hk, hn⟩
    · exact ⟨hk, hn, hroom hs rfl⟩

theorem stringAfter {i : Instr} {a n k : Nat} (ht : P t) (hr : s.sound → a + n ≤ t.cfg.ramSize) :
    Q (stringAfter i a n k t) := by
  unfold Machine.stringAfter
  split_ifs with hk
  · exact h.pause ht fun hs => ⟨hk, hr hs⟩
  · exact h.goto ht

theorem execUartWriteString (xa xn : RegIdx) : (execUartWriteString xa xn s).all Q := by
  have hm := State.microSound_microOf (s := s) (.uartWriteString xa xn)
  unfold Machine.execUartWriteString
  dsimp only
  split <;> rename_i heq
  · rw [heq] at hm
    exact h.stringPoll hm
  · rw [heq] at hm
    exact h.stringPoll hm
  · rw [heq] at hm
    refine h.txPut h.start fun u hu hc => h.stringAfter hu fun hs => ?_
    obtain ⟨-, hn, -⟩ := hm hs
    rw [hc]; exact hn
  · refine h.withReg fun a => h.withReg fun n => h.withReady (h.withRam fun hin => ?_)
    split_ifs with h0
    · exact h.goto h.start
    · exact h.stringPoll fun _ => ⟨Nat.pos_of_ne_zero h0, hin⟩

/-! ### `UART_READ_BYTE`, `UART_FLUSH`, `UART_IS_DATA_READY` -/

theorem execUartReadByte (xv xt : RegIdx) : (execUartReadByte xv xt s).all Q := by
  unfold Machine.execUartReadByte
  dsimp only
  split
  · exact h.rxGet h.start fun b u hu _ => h.goto (h.setReg (h.setReg hu))
  · refine h.withReady (h.rxReady h.start fun ready u hu _ hbyte => ?_)
    cases ready
    · exact h.goto (h.setReg (h.setReg hu))
    · exact h.pause hu fun _ => hbyte rfl

theorem flushPoll : (flushPoll s).all Q :=
  h.txIdle h.start fun idle u hu => by
    cases idle
    · exact h.pause hu fun _ => trivial
    · exact h.goto hu

theorem execUartFlush : (execUartFlush s).all Q := by
  unfold Machine.execUartFlush
  split
  · exact h.flushPoll
  · exact h.withReady h.flushPoll

theorem execUartIsDataReady (xd : RegIdx) : (execUartIsDataReady xd s).all Q :=
  h.withReady (h.rxReady h.start fun _ _ hu _ _ => h.goto (h.setReg hu))

/-! ### `UART_READ_LINE`: the buffer is the `cap` bytes from `a`, the cursor `pos` below `cap` -/

variable {i : Instr} {xd : RegIdx} {a cap pos : Nat}

theorem lineDone (ht : P t) (hr : s.sound → a + cap ≤ t.cfg.ramSize) (hp : s.sound → pos + 1 ≤ cap) :
    Q (lineDone xd a pos t) :=
  h.goto (h.setReg (h.setRam ht fun hs => by have := hr hs; have := hp hs; omega))

theorem lineTop (ht : P t) (hr : s.sound → a + cap ≤ t.cfg.ramSize) (hp : s.sound → pos + 1 ≤ cap) :
    Q (lineTop i xd a cap pos t) := by
  unfold Machine.lineTop
  split_ifs with hfull
  · exact h.lineDone ht hr hp
  · refine h.pause ht fun hs => ⟨hr hs, ?_⟩
    have := hp hs
    show pos + 2 ≤ cap
    omega

theorem lineRxPoll (hr : s.sound → a + cap ≤ s.cfg.ramSize) (hp : s.sound → pos + 2 ≤ cap) :
    (lineRxPoll i a cap pos s).all Q :=
  h.rxReady h.start fun ready u hu hc hbyte => h.pause hu fun hs => ⟨by rw [hc]; exact hr hs, by
    cases ready
    · exact hp hs
    · exact ⟨hp hs, hbyte rfl⟩⟩

theorem lineTake {c : Byte} (ht : P t) (hr : s.sound → a + cap ≤ t.cfg.ramSize) (hp : s.sound → pos + 2 ≤ cap) :
    Q (lineTake i xd a cap pos c t) := by
  have hp' : s.sound → pos + 1 ≤ cap := fun hs => Nat.le_of_succ_le (hp hs)
  unfold Machine.lineTake
  split_ifs with hend herase h0
  · exact h.lineDone ht hr hp'
  · exact h.lineTop ht hr hp'
  · refine h.pause ht fun hs => ⟨hr hs, ?_⟩
    have := hp' hs
    show pos - 1 + 1 ≤ cap
    omega
  · exact h.pause ht fun hs => ⟨hr hs, hp hs⟩

theorem lineEcho {q : List Byte} (ht : P t) (hb : s.sound → t.fifosBounded) (hr : s.sound → a + cap ≤ t.cfg.ramSize)
    (hp : s.sound → pos + 1 ≤ cap) : (lineEcho i a cap pos q t).all Q :=
  h.txReady ht hb fun room u hu hc hroom => h.pause hu fun hs => ⟨by rw [hc]; exact hr hs, by
    cases room
    · exact hp hs
    · exact ⟨hp hs, hroom hs rfl⟩⟩

theorem linePut {q : List Byte} (hr : s.sound → a + cap ≤ s.cfg.ramSize) (hp : s.sound → pos + 1 ≤ cap) :
    (linePut i xd a cap pos q s).all Q := by
  match q with
  | [] => exact h.lineTop h.start hr hp
  | [b] => exact h.txPut h.start fun u hu hc => h.lineTop hu (by rw [hc]; exact hr) hp
  | b :: c :: rest =>
    exact h.txPut h.start fun u hu hc => h.pause hu fun hs => ⟨by rw [hc]; exact hr hs, hp hs⟩

theorem lineStep {ph : LinePhase} (hm : s.sound → s.microSound (.line a cap pos ph)) :
    (lineStep i xd a cap pos ph s).all Q := by
  have hr : s.sound → a + cap ≤ s.cfg.ramSize := fun hs => (hm hs).1
  have hl : s.sound → s.lineSound cap pos ph := fun hs => (hm hs).2
  unfold Machine.lineStep
  cases ph with
  | rxPoll => exact h.lineRxPoll hr hl
  | rxGet => exact h.rxGet h.start fun c u hu hc => h.lineTake hu (by rw [hc]; exact hr) fun hs => (hl hs).1
  | store c =>
    have hstore : P (s.setRam (a + pos) c) := h.setRam h.start fun hs => by
      have := hr hs
      have : pos + 2 ≤ cap := hl hs
      omega
    exact h.lineEcho hstore (fun hs => hs.2.1) hr hl
  | echo q => exact h.lineEcho h.start (fun hs => hs.2.1) hr hl
  | put q => exact h.linePut hr fun hs => (hl hs).1

theorem execUartReadLine (xd xa xc : RegIdx) : (execUartReadLine xd xa xc s).all Q := by
  have hm := State.microSound_microOf (s := s) (.uartReadLine xd xa xc)
  unfold Machine.execUartReadLine
  dsimp only
  split <;> rename_i heq
  · rw [heq] at hm
    exact h.lineStep hm
  · refine h.withReg fun a => h.withReg fun cap => h.withReady ?_
    split_ifs with h0 h1
    · exact h.raise h.start
    · exact h.withRam fun hin => h.lineDone h.start (fun _ => hin) fun _ => by omega
    · have hpos : cap.toNat ≠ 0 := fun he => h0 (BitVec.eq_of_toNat_eq he)
      exact h.withRam fun hin => h.lineRxPoll (fun _ => hin) fun _ => by omega

/-! ### The CPU agent -/

/-- Every instruction's micro-step answers a next state, of which `Q` holds. -/
theorem exec (i : Instr) : Res.all Q (exec i s) := by
  cases i with
  | regRd xd blk off => exact h.execRegRd xd blk off
  | regWr xs blk off => exact h.execRegWr xs blk off
  | setBit xd xs n => exact h.bitOp _ xd xs n
  | clearBit xd xs n => exact h.bitOp _ xd xs n
  | toggleBit xd xs n => exact h.bitOp _ xd xs n
  | isBitSet xd xs n => exact h.bitOp _ xd xs n
  | readBit xd xs n => exact h.bitOp _ xd xs n
  | uartInit => exact h.execUartInit
  | uartWriteByte xs => exact h.execUartWriteByte xs
  | uartWriteString xa xn => exact h.execUartWriteString xa xn
  | uartReadByte xv xt => exact h.execUartReadByte xv xt
  | uartFlush => exact h.execUartFlush
  | uartReadLine xd xa xc => exact h.execUartReadLine xd xa xc
  | uartIsDataReady xd => exact h.execUartIsDataReady xd
  | gpioSetOutput pin => exact h.execGpioSetOutput pin
  | gpioSetHigh pin => exact h.writeBank _ _ _
  | gpioSetLow pin => exact h.writeBank _ _ _
  | li xd imm => exact h.goto (h.setReg h.start)
  | lih xd imm => exact h.execLih xd imm
  | addi xd xs imm => exact h.execAddi xd xs imm
  | ldb xd xb imm => exact h.execLdb xd xb imm
  | stb xs xb imm => exact h.execStb xs xb imm
  | bz xs off => exact h.execBz xs off
  | bnz xs off => exact h.execBnz xs off
  | j off => exact h.goto h.start
  | halt => exact h.halt h.start

theorem fetchStep : Res.all Q (fetchStep s) := by
  unfold Machine.fetchStep
  split
  · exact h.raise h.start
  · split
    · exact h.raise h.start
    · exact h.exec _

theorem cpuStep : Res.all Q (cpuStep s) := by
  unfold Machine.cpuStep
  split
  · exact h.exec _
  · exact h.fetchStep

/-- `Q` holds of the state the CPU agent's step gives. -/
theorem of_cpuStep (hc : Machine.cpuStep s = .next t) : Q t := by
  have hall := h.cpuStep
  rw [hc] at hall
  exact hall

end

end MicroStepKeeps

end Sys2Proof.Machine
end

section
/-! Soundness (10_state.md R36, R46, R52; R274 to R278) is kept: by the accesses, by the CPU agent's micro-steps, and by the
engines and the host, which take nothing away that an operation has seen. -/

namespace Sys2Proof.Machine

/-! ### FIFO depths under reads and writes -/

/-- The Mini UART's FIFOs are within their depth (R46). -/
def Mu.bounded (m : Mu) : Prop := m.txf.length ≤ muDepth ∧ m.rxf.length ≤ muDepth

/-- The PL011's FIFOs are within their depth (R52). -/
def Pl011.bounded (u : Pl011) : Prop := u.txf.length ≤ u.depth ∧ u.rxf.length ≤ u.depth

theorem State.fifosBounded_iff {s : State} : s.fifosBounded ↔ s.mu.bounded ∧ s.pl.bounded := and_assoc.symm

theorem Mu.bounded_free (n : Nat) : (Mu.free n).bounded := by
  simp [Mu.bounded, Mu.free]

/-- A write the check lets through keeps the Mini UART's FIFOs within their depth: only IO queues a byte. -/
theorem Mu.bounded_write {m : Mu} (h : m.bounded) {r : MuReg} (v : Word) (hio : r = .io → m.txFull = false) :
    (m.write r v).bounded := by
  obtain ⟨ht, hr⟩ := h
  cases r with
  | io =>
    have hne : m.txf.length ≠ muDepth := by simpa [Mu.txFull] using hio rfl
    refine ⟨?_, hr⟩
    simp only [Mu.write, List.length_append, List.length_singleton]
    omega
  | iir =>
    unfold Mu.write Mu.bounded
    dsimp only
    constructor <;> split_ifs <;> simp [ht, hr]
  | cntl =>
    unfold Mu.write
    dsimp only
    split_ifs
    · exact ⟨ht, hr⟩
    · exact ⟨ht, hr⟩
  | ier | lcr | mcr | lsr | msr | scratch | stat | baud => exact ⟨ht, hr⟩

/-- The PL011's depth grows or stays when the FIFOs are enabled or stay enabled. -/
theorem Pl011.depth_mono {u w : Pl011} (h : u.lcrh.getLsbD 4 = true → w.lcrh.getLsbD 4 = true) :
    u.depth ≤ w.depth := by
  unfold Pl011.depth
  split_ifs with hu hw
  · rfl
  · exact absurd (h hu) hw
  · decide
  · rfl

/-- A write the check lets through keeps the PL011's FIFOs within their depth: only DR queues a byte, and no write of LCRH
takes away the FIFOs (R235). -/
theorem Pl011.bounded_write {u : Pl011} (h : u.bounded) {r : UartReg} (v : Word) (hdr : r = .dr → u.txff = false)
    (hfen : r = .lcrh → u.lcrh.getLsbD 4 = true → v.getLsbD 4 = true) : (u.write r v).bounded := by
  obtain ⟨ht, hr⟩ := h
  cases r with
  | dr =>
    have hne : u.txf.length ≠ u.depth := by simpa [Pl011.txff] using hdr rfl
    refine ⟨?_, hr⟩
    show (u.txf ++ [v.setWidth 8]).length ≤ u.depth
    simp only [List.length_append, List.length_singleton]
    omega
  | lcrh =>
    have hd : u.depth ≤ (u.write .lcrh v).depth :=
      Pl011.depth_mono fun h4 => by simpa [Pl011.write] using hfen rfl h4
    exact ⟨ht.trans hd, hr.trans hd⟩
  | rsrecr | fr | ibrd | fbrd | cr | ifls | imsc | ris | mis | icr | dmacr => exact ⟨ht, hr⟩

/-- A read keeps the FIFOs within their depths: it takes at most a byte. -/
theorem State.fifosBounded_readReg {s : State} (h : s.fifosBounded) (blk : Block) (off : Nat) (r : PReg) :
    (s.readReg blk off r).fifosBounded := by
  have tail {l : List Byte} {d : Nat} (hl : l.length ≤ d) : l.tail.length ≤ d := by
    rw [List.length_tail]; omega
  obtain ⟨hmt, hmr, hpt, hpr⟩ := h
  cases r with
  | mu q =>
    cases q with
    | io => exact ⟨hmt, tail hmr, hpt, hpr⟩
    | _ => exact ⟨hmt, hmr, hpt, hpr⟩
  | uart q =>
    cases q with
    | dr => exact ⟨hmt, hmr, hpt, tail hpr⟩
    | _ => exact ⟨hmt, hmr, hpt, hpr⟩
  | _ => exact ⟨hmt, hmr, hpt, hpr⟩

/-- A write the check lets through keeps the FIFOs within their depths. -/
theorem State.fifosBounded_writeReg {s : State} (h : s.fifosBounded) {blk : Block} {off : Nat} {r : PReg} {v : Word}
    (hc : checkWrite blk off v s = .ok r) : (s.writeReg blk off r v).fifosBounded := by
  obtain ⟨-, hw, -, hf⟩ := checkWrite_ok_iff.1 hc
  rw [State.fifosBounded_iff] at h ⊢
  obtain ⟨hm, hp⟩ := h
  cases r with
  | gpfsel k =>
    obtain ⟨-, -, -, -, -, -, -, -, -, -, -, -, hmu, hpl⟩ := s.selected_writeSel k.val v
    rw [State.writeReg_mu, State.writeReg_pl, State.writeEffect]
    constructor
    · rcases hmu with h | h <;> rw [h] <;> exact hm
    · rcases hpl with h | h <;> rw [h] <;> exact hp
  | auxEnables =>
    rw [State.writeReg_mu, State.writeReg_pl, State.writeEffect, State.writeEnables]
    split_ifs
    · exact ⟨Mu.bounded_free _, hp⟩
    · exact ⟨hm, hp⟩
  | mu q =>
    refine ⟨Mu.bounded_write hm v ?_, hp⟩
    rintro rfl
    simpa [writeFault] using hf
  | uart q =>
    refine ⟨hm, Pl011.bounded_write hp v ?_ ?_⟩
    · rintro rfl
      simpa [writeFault] using hf
    · rintro rfl h4
      simp [writeRefused, h4] at hw
      exact hw.2
  | gpset | gpclr | gplev | auxIrq => exact ⟨hm, hp⟩

/-! ### The CPU agent -/

/-- The part of soundness that holds inside a micro-step too: the RAM and the FIFOs. -/
def State.storesSound (s : State) : Prop := s.ramSound ∧ s.fifosBounded

/-- With no operation in progress, a state is sound when its RAM and FIFOs are. -/
theorem State.sound_of_idle {s : State} (h : s.storesSound) (hop : s.op = none) : s.sound :=
  ⟨h.1, h.2, fun o ho => by rw [hop] at ho; cases ho⟩

/-- An operation may pause where it can rely on what it has seen. -/
theorem State.sound_pause {s : State} (h : s.storesSound) {i : Instr} {m : Micro} (hm : s.microSound m) :
    (s.pause i m).sound :=
  ⟨h.1, h.2, fun o ho => by cases ho; cases m <;> exact hm⟩

/-- A micro-step from a sound state keeps the RAM and the FIFOs sound, and leaves a sound state. -/
theorem State.sound_microStep {s : State} (hs : s.sound) : MicroStepKeeps s State.storesSound State.sound where
  start := ⟨hs.1, hs.2.1⟩
  setReg h := h
  setRam h ha := ⟨State.ramSound_setRam _ h.1 (ha hs), h.2⟩
  read h := ⟨by simpa [State.ramSound] using h.1, State.fifosBounded_readReg h.2 _ _ _⟩
  write h hc := ⟨by simpa [State.ramSound] using h.1, State.fifosBounded_writeReg h.2 hc⟩
  raise h := State.sound_of_idle h rfl
  goto h := State.sound_of_idle h rfl
  pause h hm := State.sound_pause h (hm hs)
  initDone h := State.sound_of_idle h rfl
  halt h := State.sound_of_idle h rfl

/-! ### The other agents -/

/-- What the engine and the host can do to the Mini UART: queue nothing to transmit, and take away no received byte. -/
def Mu.undisturbed (m n : Mu) : Prop :=
  n.txf.length ≤ m.txf.length ∧ (m.rxf ≠ [] → n.rxf ≠ []) ∧ (m.rxf.length ≤ muDepth → n.rxf.length ≤ muDepth)

/-- What the engine and the host can do to the PL011. -/
def Pl011.undisturbed (u w : Pl011) : Prop :=
  w.depth = u.depth ∧ w.txf.length ≤ u.txf.length ∧ (u.rxf ≠ [] → w.rxf ≠ []) ∧
    (u.rxf.length ≤ u.depth → w.rxf.length ≤ u.depth)

theorem Mu.undisturbed_refl (m : Mu) : m.undisturbed m := ⟨Nat.le_refl _, id, id⟩

theorem Pl011.undisturbed_refl (u : Pl011) : u.undisturbed u := ⟨rfl, Nat.le_refl _, id, id⟩

/-- The operation in progress can still rely on what it has seen when room and received bytes stay. -/
theorem State.microSound_mono {s t : State} (hc : t.cfg = s.cfg) (htx : s.txHasRoom → t.txHasRoom)
    (hrx : s.rxHasByte → t.rxHasByte) {m : Micro} (h : s.microSound m) : t.microSound m := by
  have hb := State.uartBlock_congr hc
  cases m with
  | line a cap pos ph =>
    obtain ⟨hr, hl⟩ := h
    refine ⟨hc ▸ hr, ?_⟩
    cases ph with
    | rxGet => exact ⟨hl.1, hrx hl.2⟩
    | put q => exact ⟨hl.1, htx hl.2⟩
    | rxPoll | store | echo => exact hl
  | txPut b => exact htx h
  | strPut a n k b => exact ⟨h.1, hc ▸ h.2.1, htx h.2.2⟩
  | rxGet => exact hrx h
  | enables => exact (congrArg Config.variant hc).trans h
  | writes ws => simpa only [State.microSound, hb] using h
  | strByte | strPoll => exact ⟨h.1, hc ▸ h.2⟩
  | start | select | txPoll | idlePoll => trivial

/-- A step that leaves the RAM, the operation and the enables, and disturbs neither UART, keeps soundness. -/
theorem State.sound_of_undisturbed {s t : State} (hs : s.sound) (hcfg : t.cfg = s.cfg) (hram : t.ram = s.ram)
    (hop : t.op = s.op) (haux : t.aux = s.aux) (hmu : s.mu.undisturbed t.mu) (hpl : s.pl.undisturbed t.pl) :
    t.sound := by
  obtain ⟨hrs, ⟨hmt, hmr, hpt, hpr⟩, hmicro⟩ := hs
  obtain ⟨mt, mb, mr⟩ := hmu
  obtain ⟨pd, pt, pb, pr⟩ := hpl
  refine ⟨?_, ⟨by omega, mr hmr, by omega, pd ▸ pr hpr⟩, fun o ho => ?_⟩
  · unfold State.ramSound; rw [hram, hcfg]; exact hrs
  · refine State.microSound_mono hcfg ?_ ?_ (hmicro o (hop ▸ ho))
    · unfold State.txHasRoom
      rw [hcfg, haux, pd]
      cases s.cfg.variant
      · exact fun h => ⟨h.1, mt.trans_lt h.2⟩
      · exact pt.trans_lt
    · unfold State.rxHasByte
      rw [hcfg, haux]
      cases s.cfg.variant
      · exact fun h => ⟨h.1, mb h.2⟩
      · exact pb

/-- The choice of the next agent keeps soundness. -/
theorem State.sound_afterTurn {s : State} (hs : s.sound) : s.afterTurn.sound := by
  obtain ⟨l, d, h⟩ := s.afterTurn_eq
  rw [h]
  exact State.sound_of_undisturbed hs rfl rfl rfl rfl s.mu.undisturbed_refl s.pl.undisturbed_refl

theorem State.muStep_undisturbed (s : State) : s.mu.undisturbed s.muStep.mu := by
  rcases s.muStep_mu with h | ⟨b, rest, f, hb, -, h⟩ | ⟨f, -, h⟩
  · rw [h]; exact s.mu.undisturbed_refl
  · rw [h]; exact ⟨by simp [hb], id, id⟩
  · rw [h]; exact s.mu.undisturbed_refl

theorem State.plStep_undisturbed (s : State) : s.pl.undisturbed s.plStep.pl := by
  rcases s.plStep_pl with h | ⟨b, rest, f, hb, -, h⟩ | ⟨f, -, h⟩
  · rw [h]; exact s.pl.undisturbed_refl
  · rw [h]; exact ⟨rfl, by simp [hb], id, id⟩
  · rw [h]; exact s.pl.undisturbed_refl

theorem State.hostStep_undisturbed (s : State) :
    s.mu.undisturbed s.hostStep.mu ∧ s.pl.undisturbed s.hostStep.pl := by
  have grow {l : List Byte} {b : Byte} {d : Nat} (hne : l.length ≠ d) : l.length ≤ d → (l ++ [b]).length ≤ d := by
    intro hle
    rw [List.length_append, List.length_singleton]
    omega
  obtain ⟨hm, hp⟩ := s.hostStep_uarts
  constructor
  · rcases hm with h | ⟨b, hne, h⟩ | h
    · rw [h]; exact s.mu.undisturbed_refl
    · rw [h]; exact ⟨Nat.le_refl _, by simp, grow hne⟩
    · rw [h]; exact s.mu.undisturbed_refl
  · rcases hp with h | ⟨b, hne, h⟩ | h
    · rw [h]; exact s.pl.undisturbed_refl
    · rw [h]; exact ⟨rfl, Nat.le_refl _, by simp, grow hne⟩
    · rw [h]; exact s.pl.undisturbed_refl

theorem State.sound_muStep {s : State} (hs : s.sound) : s.muStep.sound := by
  have hu := s.muStep_undisturbed
  obtain ⟨m, e, l, h⟩ := s.muStep_eq
  rw [h] at hu ⊢
  exact State.sound_of_undisturbed hs rfl rfl rfl rfl hu s.pl.undisturbed_refl

theorem State.sound_plStep {s : State} (hs : s.sound) : s.plStep.sound := by
  have hu := s.plStep_undisturbed
  obtain ⟨u, e, l, h⟩ := s.plStep_eq
  rw [h] at hu ⊢
  exact State.sound_of_undisturbed hs rfl rfl rfl rfl s.mu.undisturbed_refl hu

theorem State.sound_hostStep {s : State} (hs : s.sound) : s.hostStep.sound := by
  have hu := s.hostStep_undisturbed
  obtain ⟨m, u, i, e, d, h⟩ := s.hostStep_eq
  rw [h] at hu ⊢
  exact State.sound_of_undisturbed hs rfl rfl rfl rfl hu.1 hu.2

/-- Settles O9: the invariant of `State.sound_microStep` for the CPU agent, `State.sound_of_undisturbed` for the others. -/
theorem soundnessIsKept : Obligations.SoundnessIsKept := by
  intro s t hs hstep
  have ha := State.sound_afterTurn hs
  rcases step_cases hstep with ⟨-, -, rfl⟩ | ⟨-, -, hc⟩ | ⟨-, rfl⟩ | ⟨-, rfl⟩ | ⟨-, rfl⟩
  · exact ha
  · exact (State.sound_microStep ha).of_cpuStep hc
  · exact State.sound_muStep ha
  · exact State.sound_plStep ha
  · exact State.sound_hostStep ha

end Sys2Proof.Machine
end

section
/-! The record (10_state.md R35, R37 to R39, R57, R60) is kept by the updates of a micro-step and by the other agents. -/

namespace Sys2Proof.Machine

theorem State.recordKept_refl (s : State) : s.recordKept s := by
  simp [State.recordKept, SameProgram]

/-- An event on the history keeps the record. -/
theorem State.recordKept_emit {s t : State} (h : s.recordKept t) (e : Event) : s.recordKept (t.emit e) := by
  obtain ⟨⟨es, he⟩, hl, hp, hd, hst⟩ := h
  exact ⟨⟨es ++ [e], by simp [he]⟩, hl, hp, hd, hst⟩

/-- The record of the state before the choice of the next agent is that of the state after it. -/
theorem State.recordKept_of_afterTurn {s t : State} (h : s.afterTurn.recordKept t) : s.recordKept t := by
  obtain ⟨l, d, he⟩ := s.afterTurn_eq
  rw [he] at h
  exact h

/-- A micro-step of the running CPU agent keeps the record. -/
theorem State.recordKept_microStep {s : State} (hrun : s.status = .running) :
    MicroStepKeeps s s.recordKept s.recordKept where
  start := s.recordKept_refl
  setReg h := h
  setRam h _ := h
  read {t blk off r} h := by
    simpa [State.recordKept, SameProgram] using State.recordKept_emit h (.rd blk off (t.drawnOf r).word)
  write {t blk off r v} h _ := by
    simpa [State.recordKept, SameProgram] using State.recordKept_emit h (.wr blk off v)
  raise {t c} h := by
    obtain ⟨hev, hl, hp, hd, -⟩ := State.recordKept_emit h (.fault c.code)
    exact ⟨hev, hl, hp, hd, fun hst => absurd hrun hst⟩
  goto h := h
  pause h _ := h
  initDone h := by
    obtain ⟨hev, hl, hp, -, hst⟩ := h
    exact ⟨hev, hl, hp, fun _ => rfl, hst⟩
  halt h := by
    obtain ⟨hev, hl, hp, hd, -⟩ := h
    exact ⟨hev, hl, hp, hd, fun hst => absurd hrun hst⟩

theorem State.recordKept_muStep (s : State) : s.recordKept s.muStep := by
  obtain ⟨m, e, l, h⟩ := s.muStep_eq
  rw [h]
  exact ⟨⟨e, rfl⟩, ⟨l, rfl⟩, ⟨rfl, rfl⟩, id, fun _ => rfl⟩

theorem State.recordKept_plStep (s : State) : s.recordKept s.plStep := by
  obtain ⟨u, e, l, h⟩ := s.plStep_eq
  rw [h]
  exact ⟨⟨e, rfl⟩, ⟨l, rfl⟩, ⟨rfl, rfl⟩, id, fun _ => rfl⟩

theorem State.recordKept_hostStep (s : State) : s.recordKept s.hostStep := by
  obtain ⟨m, u, i, e, d, h⟩ := s.hostStep_eq
  rw [h]
  exact ⟨⟨e, rfl⟩, ⟨[], by simp⟩, ⟨rfl, rfl⟩, id, fun _ => rfl⟩

/-- Settles O11: the record is kept by whichever agent steps, after the choice of it. -/
theorem recordIsKept : Obligations.RecordIsKept := by
  intro s t hstep
  apply State.recordKept_of_afterTurn
  rcases step_cases hstep with ⟨-, -, rfl⟩ | ⟨-, hrun, hc⟩ | ⟨-, rfl⟩ | ⟨-, rfl⟩ | ⟨-, rfl⟩
  · exact State.recordKept_refl _
  · have hrun' : s.afterTurn.status = .running := by
      obtain ⟨l, d, he⟩ := s.afterTurn_eq
      rw [he]; exact hrun
    exact (State.recordKept_microStep hrun').of_cpuStep hc
  · exact State.recordKept_muStep _
  · exact State.recordKept_plStep _
  · exact State.recordKept_hostStep _

end Sys2Proof.Machine
end

section
/-! Whose turn it is (10_state.md R30, R31; R283). -/

namespace Sys2Proof.Machine

/-- The agent the schedule names takes the next step, if it has one. -/
theorem State.turn_of_sched {s : State} {a : Agent} {rest : List Agent} (hsched : s.sched = a :: rest)
    (ha : s.enabled a = true) : s.turn = some a := by
  have hc : s.chosen = a := by simp [State.chosen, hsched]
  simp [State.turn, hc, ha]

/-- With no agent's turn the machine idles while some agent has an enabled step. -/
theorem step_idle {s : State} (ht : s.turn = none) (ha : ∃ a, s.enabled a = true) : step s = .next s.afterTurn := by
  simp [step, ht, (State.idles_iff ht).2 ha]

/-- Settles O6: the choice of the agent, clause by clause, and the step of each other agent. -/
theorem enabledAgentsStep : Obligations.EnabledAgentsStep := by
  intro s
  exact ⟨fun _ _ => State.turn_of_sched, fun _ => State.enabled_of_turn, fun ht => by simp only [step, ht],
    fun ht => by simp only [step, ht], fun ht => by simp only [step, ht],
    fun ht => ⟨State.turn_none ht, step_idle ht⟩, fun hc _ => State.chosen_of_turn hc⟩

end Sys2Proof.Machine
end

section
/-! Launch states (10_state.md R61 to R63; 70_reset_and_hazards.md R601, R602). -/

namespace Sys2Proof.Machine

/-- A launch state has no operation in progress, and R61 and R62 bound its RAM and FIFOs. -/
theorem State.sound_of_isLaunch {s : State} (h : s.isLaunch) : s.sound := by
  obtain ⟨-, -, -, -, -, hop, -, hram, hfifos, -⟩ := h
  exact State.sound_of_idle ⟨hram, hfifos⟩ hop

/-- The reset state is a launch state. -/
theorem State.reset_isLaunch : State.reset.isLaunch := by
  have hregs : ∀ r, State.reset.reg r = none := fun r => by simp [State.reg, State.reset]
  have hram : State.reset.ramSound := ⟨rfl, fun e he => by simp [State.reset] at he⟩
  have hfifos : State.reset.fifosBounded := by
    simp [State.fifosBounded, State.reset, Mu.reset, Pl011.reset]
  have hshifters : State.reset.launchShifters := by
    simp [State.launchShifters, State.reset, Mu.reset, Pl011.reset]
  exact ⟨hregs, rfl, rfl, rfl, rfl, rfl, rfl, hram, hfifos, hshifters⟩

/-- At reset every pin is an input. -/
theorem Gpio.fselAt_reset (p : Nat) : Gpio.reset.fselAt p = 0 := by
  unfold Gpio.fselAt
  split_ifs with hp
  · simp [Gpio.reset]
  · rfl

/-- Settles O10: launch states are sound, and the reset state's values are those of R63. -/
theorem launchIsSound : Obligations.LaunchIsSound := by
  refine ⟨fun _ => State.sound_of_isLaunch, State.reset_isLaunch, Gpio.fselAt_reset, ?_⟩
  decide

end Sys2Proof.Machine
end

section
/-! The decoder and the encoder as inverses (30_encoding.md Part B, R174 to R177). -/

namespace Sys2Proof

/-- A format R word is the word with these fields. -/
theorem wordR_eq_iff {opc : BitVec 8} {ra rb rc : RegIdx} {imm : Imm12} {w : Word} :
    wordR opc ra rb rc imm = w ↔
      opcField w = opc ∧ raField w = ra ∧ rbField w = rb ∧ rcField w = rc ∧ imm12Field w = imm := by
  constructor
  · rintro rfl
    simp
  · rintro ⟨rfl, rfl, rfl, rfl, rfl⟩
    exact wordR_fields w

/-- A format I word is the word with these fields. -/
theorem wordI_eq_iff {opc : BitVec 8} {ra rb : RegIdx} {imm : Imm16} {w : Word} :
    wordI opc ra rb imm = w ↔ opcField w = opc ∧ raField w = ra ∧ rbField w = rb ∧ imm16Field w = imm := by
  constructor
  · rintro rfl
    simp
  · rintro ⟨rfl, rfl, rfl, rfl⟩
    exact wordI_fields w

/-- The fields of an encoded word are the operands, and its must-be-zero fields are zero. -/
theorem decode_encode {i : Instr} (h : WellFormed i) : decode (encode i) = .ok i := by
  cases i with
  | regRd | regWr =>
    have hblk := of_decide_eq_true h
    simp [encode, decode, blockFields, hblk]
  | _ => simp [encode, decode, zeroFields]

/-- Each arm of the decoder fixes every field of the word: the opcode by its literal, a must-be-zero field by its check,
an operand field by the instruction. -/
theorem encode_of_decode {w : Word} {i : Instr} (h : decode w = .ok i) : encode i = w ∧ WellFormed i := by
  unfold decode at h
  split at h
  -- register access
  case h_1 hopc | h_2 hopc =>
    obtain ⟨hrb, hblk, rfl⟩ := blockFields_ok.1 h
    exact ⟨wordR_eq_iff.2 ⟨BitVec.eq_of_toNat_eq hopc, rfl, hrb, rfl, rfl⟩, decide_eq_true hblk⟩
  -- format I with no must-be-zero field
  case h_20 hopc | h_21 hopc | h_22 hopc =>
    cases h
    exact ⟨wordI_eq_iff.2 ⟨BitVec.eq_of_toNat_eq hopc, rfl, rfl, rfl⟩, rfl⟩
  -- format I with must-be-zero fields
  case h_18 hopc | h_19 hopc | h_23 hopc | h_24 hopc | h_25 hopc =>
    obtain ⟨hz, rfl⟩ := zeroFields_ok.1 h
    refine ⟨wordI_eq_iff.2 ⟨BitVec.eq_of_toNat_eq hopc, ?_⟩, rfl⟩
    simp_all
  -- no row has the opcode
  case h_27 => cases h
  -- format R with must-be-zero fields
  all_goals
    rename_i hopc
    obtain ⟨hz, rfl⟩ := zeroFields_ok.1 h
    refine ⟨wordR_eq_iff.2 ⟨BitVec.eq_of_toNat_eq hopc, ?_⟩, rfl⟩
    simp_all

/-- Settles O1: the two directions, by the instruction's constructors and by the decoder's arms. -/
theorem decodeAndEncodeAgree : Obligations.DecodeAndEncodeAgree :=
  ⟨fun _ => decode_encode, fun _ _ => encode_of_decode⟩

end Sys2Proof
end

section
/-! The decoder and the opcode table (R178). -/

namespace Sys2Proof

/-- The word of every instruction has the fixed bits of its row. -/
theorem tableRow_of_instr (i : Instr) : Laws.TableRow.Statement i := by
  cases i with
  | regRd => exact Laws.TableRow.regRd ..
  | regWr => exact Laws.TableRow.regWr ..
  | setBit => exact Laws.TableRow.setBit ..
  | clearBit => exact Laws.TableRow.clearBit ..
  | toggleBit => exact Laws.TableRow.toggleBit ..
  | isBitSet => exact Laws.TableRow.isBitSet ..
  | readBit => exact Laws.TableRow.readBit ..
  | uartInit => exact Laws.TableRow.uartInit
  | uartWriteByte => exact Laws.TableRow.uartWriteByte ..
  | uartWriteString => exact Laws.TableRow.uartWriteString ..
  | uartReadByte => exact Laws.TableRow.uartReadByte ..
  | uartFlush => exact Laws.TableRow.uartFlush
  | uartReadLine => exact Laws.TableRow.uartReadLine ..
  | uartIsDataReady => exact Laws.TableRow.uartIsDataReady ..
  | gpioSetOutput => exact Laws.TableRow.gpioSetOutput ..
  | gpioSetHigh => exact Laws.TableRow.gpioSetHigh ..
  | gpioSetLow => exact Laws.TableRow.gpioSetLow ..
  | li => exact Laws.TableRow.li ..
  | lih => exact Laws.TableRow.lih ..
  | addi => exact Laws.TableRow.addi ..
  | ldb => exact Laws.TableRow.ldb ..
  | stb => exact Laws.TableRow.stb ..
  | bz => exact Laws.TableRow.bz ..
  | bnz => exact Laws.TableRow.bnz ..
  | j => exact Laws.TableRow.j ..
  | halt => exact Laws.TableRow.halt

/-- A word that decodes fits the row of its instruction. -/
theorem exists_row_of_decode {w : Word} {i : Instr} (h : decode w = .ok i) :
    ∃ r ∈ opcodeTable, r.mnemonic = i.mnemonic ∧ r.fits w = true := by
  obtain ⟨rfl, -⟩ := encode_of_decode h
  exact tableRow_of_instr i

/-- Every row fixes the whole opcode. -/
theorem opcField_mask {r : OpcodeRow} (hr : r ∈ opcodeTable) : opcField r.mask = BitVec.allOnes 8 := by
  revert r
  decide

/-- No two rows have the same opcode. -/
theorem opcodes_nodup : (opcodeTable.map fun r => opcField r.pattern).Nodup := by decide

/-- The only fixed bits that a row wants set are opcode bits: an operand field it fixes must be zero (R177). -/
theorem operandFields_pattern {r : OpcodeRow} (hr : r ∈ opcodeTable) :
    raField r.pattern = 0 ∧ rbField r.pattern = 0 ∧ rcField r.pattern = 0 ∧ imm12Field r.pattern = 0 := by
  revert r
  decide

section
variable {r r₁ r₂ : OpcodeRow} {w : Word}

/-- A word that fits a row has the row's opcode. -/
theorem opcField_of_fits (hr : r ∈ opcodeTable) (h : r.fits w = true) : opcField w = opcField r.pattern := by
  have hw : w &&& r.mask = r.pattern := beq_iff_eq.1 h
  have hopc : opcField w &&& opcField r.mask = opcField r.pattern := by
    simp only [← hw, opcField, BitVec.extractLsb'_and]
  rwa [opcField_mask hr, BitVec.and_allOnes] at hopc

/-- A word that fits a row has zero in each operand field that the row's mask covers. -/
theorem zeros_of_fits (hr : r ∈ opcodeTable) (h : r.fits w = true) :
    (raField r.mask = BitVec.allOnes 4 → raField w = 0) ∧ (rbField r.mask = BitVec.allOnes 4 → rbField w = 0) ∧
      (rcField r.mask = BitVec.allOnes 4 → rcField w = 0) ∧ (imm12Field r.mask = BitVec.allOnes 12 → imm12Field w = 0) := by
  have hw : w &&& r.mask = r.pattern := beq_iff_eq.1 h
  obtain ⟨hra, hrb, hrc, himm⟩ := operandFields_pattern hr
  rw [← hw] at hra hrb hrc himm
  simp only [raField, rbField, rcField, imm12Field, BitVec.extractLsb'_and] at *
  refine ⟨fun hm => ?_, fun hm => ?_, fun hm => ?_, fun hm => ?_⟩
  · rwa [hm, BitVec.and_allOnes] at hra
  · rwa [hm, BitVec.and_allOnes] at hrb
  · rwa [hm, BitVec.and_allOnes] at hrc
  · rwa [hm, BitVec.and_allOnes] at himm

/-- A word fits at most one row: that of its opcode. -/
theorem row_unique (hr₁ : r₁ ∈ opcodeTable) (hr₂ : r₂ ∈ opcodeTable) (h₁ : r₁.fits w = true)
    (h₂ : r₂.fits w = true) : r₁ = r₂ :=
  List.inj_on_of_nodup_map opcodes_nodup hr₁ hr₂ ((opcField_of_fits hr₁ h₁).symm.trans (opcField_of_fits hr₂ h₂))

/-- A word that fits a row decodes, if its block number is one where the row is a register access: the operand fields the
row's mask covers are those its arm of the decoder wants zero. -/
theorem decode_of_fits (hr : r ∈ opcodeTable) (h : r.fits w = true)
    (hblk : (r.mnemonic = "REG_RD" ∨ r.mnemonic = "REG_WR") → (rcField w).toNat < 3) : ∃ i, decode w = .ok i := by
  have hopc : (opcField w).toNat = (opcField r.pattern).toNat := congrArg _ (opcField_of_fits hr h)
  obtain ⟨hra, hrb, hrc, himm⟩ := zeros_of_fits hr h
  unfold decode
  rw [hopc]
  clear h hopc
  simp only [opcodeTable, List.mem_append, or_assoc] at hr
  rcases hr with hr | hr | hr
  · simp only [tableAccess, List.mem_cons, List.not_mem_nil, or_false] at hr
    rcases hr with rfl | rfl | rfl | rfl | rfl | rfl | rfl
    -- the two register accesses; the five bit utilities
    iterate 2 exact ⟨_, blockFields_ok.2 ⟨hrb rfl, hblk (by decide), rfl⟩⟩
    all_goals exact ⟨_, zeroFields_ok.2 ⟨beq_iff_eq.2 (hrc rfl), rfl⟩⟩
  · simp only [tableDriver, List.mem_cons, List.not_mem_nil, or_false] at hr
    rcases hr with rfl | rfl | rfl | rfl | rfl | rfl | rfl | rfl | rfl | rfl
    -- `+decide` evaluates whether the row's mask covers a field
    all_goals
      refine ⟨_, zeroFields_ok.2 ⟨?_, rfl⟩⟩
      simp +decide [hra, hrb, hrc, himm]
  · simp only [tableHarness, List.mem_cons, List.not_mem_nil, or_false] at hr
    rcases hr with rfl | rfl | rfl | rfl | rfl | rfl | rfl | rfl | rfl
    -- `LI` and `LIH`; `ADDI`, `LDB` and `STB`, which check no field; `BZ` and `BNZ`; `J`; `HALT`
    iterate 2 exact ⟨_, zeroFields_ok.2 ⟨beq_iff_eq.2 (hrb rfl), rfl⟩⟩
    iterate 3 exact ⟨_, rfl⟩
    iterate 2 exact ⟨_, zeroFields_ok.2 ⟨beq_iff_eq.2 (hrb rfl), rfl⟩⟩
    · exact ⟨_, zeroFields_ok.2 ⟨by simp [hra rfl, hrb rfl], rfl⟩⟩
    · exact ⟨_, zeroFields_ok.2 ⟨by simp [hra rfl, hrb rfl, hrc rfl, himm rfl], rfl⟩⟩

/-- The row a word fits is the row of the instruction it decodes to. -/
theorem mnemonic_of_decode_of_fits {i : Instr} (hr : r ∈ opcodeTable) (h : r.fits w = true) (hd : decode w = .ok i) :
    i.mnemonic = r.mnemonic := by
  obtain ⟨q, hq, hm, hfit⟩ := exists_row_of_decode hd
  rw [← hm, row_unique hq hr hfit h]

/-- A register access that decodes has a block number (R175). -/
theorem rcField_lt_of_decode {i : Instr} (hd : decode w = .ok i)
    (hm : i.mnemonic = "REG_RD" ∨ i.mnemonic = "REG_WR") : (rcField w).toNat < 3 := by
  obtain ⟨rfl, hwf⟩ := encode_of_decode hd
  cases i with
  | regRd | regWr => simpa [encode] using of_decide_eq_true hwf
  | _ => simp [Instr.mnemonic] at hm

/-- A word is rejected when it fits no row, or is a register access with a block number of 3 or more (R178). -/
theorem exists_reject (h : (∀ r ∈ opcodeTable, r.fits w = false) ∨
    ∃ r ∈ opcodeTable, r.fits w = true ∧ (r.mnemonic = "REG_RD" ∨ r.mnemonic = "REG_WR") ∧ 3 ≤ (rcField w).toNat) :
    ∃ e, decode w = .error e := by
  cases hd : decode w with
  | error e => exact ⟨e, rfl⟩
  | ok i =>
    rcases h with hnone | ⟨r, hr, hfit, hacc, hblk⟩
    · obtain ⟨q, hq, -, hfit⟩ := exists_row_of_decode hd
      simp [hnone q hq] at hfit
    · rw [← mnemonic_of_decode_of_fits hr hfit hd] at hacc
      exact absurd (rcField_lt_of_decode hd hacc) (Nat.not_lt.2 hblk)

end

/-- Fetching a word that is rejected raises `F_ILLEGAL` with the word (R502). -/
theorem Machine.fetchStep_of_reject {s : Machine.State} {w : Word} {e : Reject} (hf : s.fetch = some w)
    (hd : decode w = .error e) : Machine.fetchStep s = .next (s.raise (.illegal w)) := by
  simp only [Machine.fetchStep, hf, hd, Machine.raise]

/-- Settles O2: a word that decodes fits its instruction's row, rows differ in the opcode, and a row's fixed fields are
those the decoder checks. -/
theorem decodeFollowsTable : Obligations.DecodeFollowsTable := by
  intro w
  refine ⟨fun _ => exists_row_of_decode, fun _ hr₁ _ hr₂ => row_unique hr₁ hr₂, fun r hr hfit hblk => ?_,
    fun s hf h => ?_⟩
  · obtain ⟨i, hd⟩ := decode_of_fits hr hfit hblk
    exact ⟨i, hd, mnemonic_of_decode_of_fits hr hfit hd⟩
  · obtain ⟨e, hd⟩ := exists_reject h
    exact Machine.fetchStep_of_reject hf hd

end Sys2Proof
end

section
/-! Words written out from the encodings (R177, R180). -/

namespace Sys2Proof

/-- Settles O3, by running the decoder on each word. -/
theorem sampleWordsDecode : Obligations.SampleWordsDecode := by
  unfold Obligations.SampleWordsDecode
  decide

end Sys2Proof
end

section
/-! Register accesses in the terms of the rules (41_register_access.md R200 to R203, R212, R513): defined fields of the
value a read returns, which block a register stands in, what the two checks say, and every answer of the two words. -/

namespace Sys2Proof.Machine

/-! ### Defined fields of a value with draws -/

/-- A field whose bits are all defined. -/
theorem Drawn.word_field (d : Drawn) {i n : Nat} (h : ∀ k < n, d.mask.getLsbD (i + k) = true) :
    d.word.extractLsb' i n = d.known.extractLsb' i n := by
  apply BitVec.eq_of_getLsbD_eq
  intro k hk
  simp only [BitVec.getLsbD_extractLsb', hk, decide_true, Bool.true_and]
  exact d.word_defined (h k hk)

/-- The low bits of a value that shows the bits `mask` of a stored field. -/
theorem Drawn.word_masked (d : Drawn) {n : Nat} {field mask : BitVec n} (hn : n ≤ 32)
    (hk : d.known = field.setWidth 32) (hm : d.mask = mask.setWidth 32) :
    d.word.extractLsb' 0 n &&& mask = field &&& mask := by
  apply BitVec.eq_of_getLsbD_eq
  intro i hi
  have hi32 : i < 32 := by omega
  cases hb : mask.getLsbD i with
  | false => simp [hb]
  | true =>
    have hw : d.word.getLsbD i = field.getLsbD i := by
      rw [d.word_defined (by simp [hm, hb, hi32]), hk]
      simp [hi32]
    simp [hi, hw]

/-- The low bits of a value that shows the whole of a stored field. -/
theorem Drawn.word_stored (d : Drawn) {n : Nat} {field : BitVec n} (hn : n ≤ 32)
    (hk : d.known = field.setWidth 32) (hm : d.mask = (BitVec.allOnes n).setWidth 32) :
    d.word.extractLsb' 0 n = field := by
  simpa using d.word_masked hn hk hm

/-! ### The map -/

/-- The block a register stands in. -/
def PReg.block : PReg → Block
  | .gpfsel _ | .gpset _ | .gpclr _ | .gplev _ => .gpio
  | .auxIrq | .auxEnables | .mu _ => .aux
  | .uart _ => .uart0

theorem block_of_regAt {b : Block} {off : Nat} {r : PReg} (h : regAt b off = some r) : r.block = b := by
  cases b <;> simp only [regAt] at h <;> split at h <;> cases h <;> rfl

/-- The offset of a select register (R142). -/
theorem offset_of_regAt_gpfsel {b : Block} {off : Nat} {k : Fin 6} (h : regAt b off = some (.gpfsel k)) :
    off = 4 * k.val := by
  cases b <;> simp only [regAt] at h <;> split at h <;> cases h <;> rfl

/-- Offsets 0x40 to 0x68 of the Auxiliary block are the Mini UART's registers (R148, R151). -/
theorem regAt_mu {off : Nat} (hlo : 0x40 ≤ off) (hhi : off ≤ 0x68) (hal : off % 4 = 0) :
    ∃ q, regAt .aux off = some (.mu q) := by
  obtain ⟨k, rfl⟩ : ∃ k, off = 4 * k := ⟨off / 4, by omega⟩
  have hk16 : 16 ≤ k := by omega
  have hk26 : k ≤ 26 := by omega
  interval_cases k <;> exact ⟨_, rfl⟩

section
variable {s : State} {b : Block} {off : Nat} {r : PReg} {v : Word}

/-! ### The checks -/

theorem auxBlocked_eq_false_iff : auxBlocked r s = false ↔ ∀ q, r = .mu q → s.aux.enMu = true := by
  cases r <;> simp [auxBlocked]

/-- An enabled Mini UART blocks no access (R212). -/
theorem auxBlocked_of_enabled (he : s.aux.enMu = true) (r : PReg) : auxBlocked r s = false :=
  auxBlocked_eq_false_iff.2 fun _ _ => he

/-- The transmit FIFO is full at 8 bytes (R13). -/
theorem Mu.txFull_eq (m : Mu) : m.txFull = decide (m.txf.length = 8) := rfl

/-- No fault of a write's own: room in the FIFO it queues to (R214, R227), and no reprogramming of an enabled PL011
(R233). -/
theorem writeFault_eq_none_iff : writeFault r off v s = none ↔
    (r = .mu .io → s.mu.txf.length ≠ 8) ∧ (r = .uart .dr → s.pl.txf.length ≠ s.pl.depth) ∧
      (r = .uart .ibrd ∨ r = .uart .fbrd ∨ r = .uart .lcrh → s.pl.cr.getLsbD 0 = false) := by
  cases r with
  | mu q => cases q <;> simp [writeFault, Mu.txFull_eq]
  | uart q => cases q <;> simp [writeFault, Pl011.txff, Pl011.enabled]
  | _ => simp [writeFault]

/-- Where no register stands, a read is refused (R202). -/
theorem checkRead_refused (h : regAt b off = none) : checkRead b off s = .error (.regRefused b off none) := by
  simp [checkRead, h]

/-- Where no register stands, or one that does not take the value, a write is refused first (R202, R513). -/
theorem checkWrite_refused (h : ∀ r, regAt b off = some r → writeRefused r v s = true) :
    checkWrite b off v s = .error (.regRefused b off (some v)) := by
  unfold checkWrite
  cases hr : regAt b off with
  | none => rfl
  | some r => simp [h r hr]

/-- A disabled Mini UART blocks a read of its registers (R212). -/
theorem checkRead_disabled {q : MuReg} (hr : regAt b off = some (.mu q)) (he : s.aux.enMu = false) :
    checkRead b off s = .error (.auxDisabled off) := by
  simp [checkRead, hr, auxBlocked, he]

/-- A disabled Mini UART blocks a write of its registers that is not refused (R212). -/
theorem checkWrite_disabled {q : MuReg} (hr : regAt b off = some (.mu q)) (hw : writeRefused (.mu q) v s = false)
    (he : s.aux.enMu = false) : checkWrite b off v s = .error (.auxDisabled off) := by
  simp [checkWrite, hr, hw, auxBlocked, he]

/-- A write that is neither refused nor blocked raises the fault of its own. -/
theorem checkWrite_fault {c : Cause} (hr : regAt b off = some r) (hw : writeRefused r v s = false)
    (hb : auxBlocked r s = false) (hf : writeFault r off v s = some c) : checkWrite b off v s = .error c := by
  simp [checkWrite, hr, hw, hb, hf]

/-! ### Side effects of reads -/

/-- Only the data registers and AUX_MU_LSR_REG have a read with a side effect (R114). -/
theorem State.readEffect_of_ne (hio : r ≠ .mu .io) (hlsr : r ≠ .mu .lsr) (hdr : r ≠ .uart .dr) :
    s.readEffect r = s := by
  cases r with
  | mu q =>
    cases q with
    | io => exact absurd rfl hio
    | lsr => exact absurd rfl hlsr
    | _ => rfl
  | uart q =>
    cases q with
    | dr => exact absurd rfl hdr
    | _ => rfl
  | _ => rfl

/-- A read with no side effect leaves the peripherals. -/
theorem State.samePeripherals_read (h : s.readEffect r = s) (x : RegIdx) (w : Word) :
    SamePeripherals s ((s.readReg b off r).setReg x w).finish := by
  simp only [SamePeripherals]
  simp [h]

end

/-! ### Every answer of the two words -/

section
variable {s t : State} {x : RegIdx} {blk : BitVec 4} {off : Imm12}

/-- `REG_RD` raises a fault, or answers the read of a register of the map. -/
theorem exec_regRd_cases (h : exec (.regRd x blk off) s = .next t) :
    (∃ c, t = s.raise c) ∨ ∃ b r, decodeBlock blk = some b ∧ regAt b off.toNat = some r ∧
      t = ((s.readReg b off.toNat r).setReg x (s.drawnOf r).word).finish := by
  cases hb : decodeBlock blk with
  | none =>
    simp only [exec, execRegRd, withBlock, hb] at h
    cases h
    exact .inl ⟨_, rfl⟩
  | some b =>
    cases hc : checkRead b off.toNat s with
    | error c =>
      rw [exec_regRd_error hb hc] at h
      cases h
      exact .inl ⟨_, rfl⟩
    | ok r =>
      rw [exec_regRd_ok hb hc] at h
      cases h
      exact .inr ⟨b, r, rfl, (checkRead_ok_iff.1 hc).1, rfl⟩

/-- `REG_WR` raises a fault, or answers the write of a register of the map. -/
theorem exec_regWr_cases (h : exec (.regWr x blk off) s = .next t) :
    (∃ c, t = s.raise c) ∨ ∃ b r v, decodeBlock blk = some b ∧ regAt b off.toNat = some r ∧
      t = (s.writeReg b off.toNat r v).finish := by
  cases hb : decodeBlock blk with
  | none =>
    simp only [exec, execRegWr, withBlock, hb] at h
    cases h
    exact .inl ⟨_, rfl⟩
  | some b =>
    cases hx : s.reg x with
    | none =>
      simp only [exec, execRegWr, withBlock_ok hb, withReg_none hx] at h
      cases h
      exact .inl ⟨_, rfl⟩
    | some v =>
      cases hc : checkWrite b off.toNat v s with
      | error c =>
        rw [exec_regWr_error hb hx hc] at h
        cases h
        exact .inl ⟨_, rfl⟩
      | ok r =>
        rw [exec_regWr_ok hb hx hc] at h
        cases h
        exact .inr ⟨b, r, v, rfl, (checkWrite_ok_iff.1 hc).1, rfl⟩

end

end Sys2Proof.Machine
end

section
/-! The register access words that complete (41_register_access.md R200, R201, R203). -/

namespace Sys2Proof.Machine

/-- Settles O22: the read passes its check, and its side effect is that of one of three registers or none. -/
theorem registerReadCompletes : Obligations.RegisterReadCompletes := by
  intro s xd blk off b r hb hr he
  have hexec := exec_regRd_ok (x := xd) hb (checkRead_ok hr (auxBlocked_eq_false_iff.2 he))
  refine ⟨_, (s.drawnOf r).word, hexec, fun k hk => Drawn.word_defined _ hk, by simp, by simp, by simp, rfl,
    by simp, by simp, by simp, by simp, by simp, ?_, ?_, ?_, fun hio hlsr hdr => ?_⟩
  · rintro rfl
    exact ⟨rfl, rfl⟩
  · rintro rfl
    exact ⟨rfl, rfl⟩
  · rintro rfl
    exact ⟨rfl, rfl⟩
  · exact State.samePeripherals_read (State.readEffect_of_ne hio hlsr hdr) _ _

/-- Settles O23: the conditions are those of the write's check, and the state after it is the effect with its event. -/
theorem registerWriteCompletes : Obligations.RegisterWriteCompletes := by
  intro s xs blk off b r v hb hx hr hw he hio hdr hpl
  have hc : checkWrite b off.toNat v s = .ok r :=
    checkWrite_ok_iff.2 ⟨hr, hw, auxBlocked_eq_false_iff.2 he, writeFault_eq_none_iff.2 ⟨hio, hdr, hpl⟩⟩
  refine ⟨_, exec_regWr_ok hb hx hc, rfl, rfl, rfl, rfl, by simp, by simp, rfl, by simp, fun q => by simp,
    fun a => by simp, by simp⟩

end Sys2Proof.Machine
end

section
/-! Accesses that perform nothing (41_register_access.md R202, R212, R233; 60_exceptions.md R510, R511, R513, R514). -/

namespace Sys2Proof.Machine

section
variable {s : State} {b : Block} {off : Nat} {v : Word}

/-- No register stands at an offset that is not a multiple of 4 (R110). -/
theorem regAt_misaligned (h : off % 4 ≠ 0) : regAt b off = none := by
  cases hr : regAt b off with
  | none => rfl
  | some r => exact absurd (regAt_aligned hr) h

/-- The offsets of the read-only registers (R210, R211, R221, R224, R225, R230, R240). -/
def readOnlyOffsets : List (Block × Nat) :=
  [(.gpio, 0x34), (.gpio, 0x38), (.aux, 0x00), (.aux, 0x54), (.aux, 0x58), (.aux, 0x64), (.uart0, 0x18), (.uart0, 0x3C),
    (.uart0, 0x40)]

/-- A read-only register takes no value. -/
theorem writeRefused_of_readOnly (h : (b, off) ∈ readOnlyOffsets) {r : PReg} (hr : regAt b off = some r) :
    writeRefused r v s = true := by
  simp only [readOnlyOffsets, List.mem_cons, Prod.mk.injEq, List.not_mem_nil, or_false] at h
  rcases h with ⟨rfl, rfl⟩ | ⟨rfl, rfl⟩ | ⟨rfl, rfl⟩ | ⟨rfl, rfl⟩ | ⟨rfl, rfl⟩ | ⟨rfl, rfl⟩ | ⟨rfl, rfl⟩ |
    ⟨rfl, rfl⟩ | ⟨rfl, rfl⟩ <;> cases hr <;> rfl

end

/-- Settles O24: each ground of refusal leaves no register at the offset that takes the access. -/
theorem refusedAccesses : Obligations.RefusedAccesses := by
  intro s x blk off b hb
  refine ⟨fun h => ?_, fun v hx h => ?_⟩
  · exact exec_regRd_error hb (checkRead_refused (h.elim regAt_misaligned id))
  · refine exec_regWr_error hb hx (checkWrite_refused fun r hr => ?_)
    rcases h with h | h | h | ⟨rfl, ho, h⟩ | ⟨rfl, ho, h⟩ | ⟨rfl, ho, h⟩ | ⟨rfl, ho, h⟩ | ⟨rfl, ho, h⟩
    · rw [regAt_misaligned h] at hr
      cases hr
    · rw [h] at hr
      cases hr
    · exact writeRefused_of_readOnly h hr
    all_goals
      rw [ho] at hr
      cases hr
      simpa [writeRefused, or_assoc] using h

section
variable {s : State} (hr : s.uartReachable = false)
include hr

/-- On an unreachable UART the spins of the driver fault at their status read (R514). -/
theorem polls_unreachable :
    (∀ i b, writeBytePoll i b s = .next (s.raise (.auxDisabled 0x54))) ∧
      (∀ i a n k, stringByte i a n k s = .next (s.raise (.auxDisabled 0x54))) ∧
      flushPoll s = .next (s.raise (.auxDisabled 0x54)) ∧
      (∀ i a cap pos, lineRxPoll i a cap pos s = .next (s.raise (.auxDisabled 0x54))) :=
  ⟨fun _ _ => (status_unreachable hr _).1,
    fun _ _ _ _ => by unfold stringByte stringPoll; exact (status_unreachable hr _).1,
    (status_unreachable hr _).2.2, fun _ _ _ _ => (status_unreachable hr _).2.1⟩

end

section
variable {s : State} (hd : s.drv = .ready) (ho : s.op = none)
include hd ho

/-! The first micro-step of each driver operation, its driver ready and its operand registers written. -/

theorem exec_uartReadByte_start (p q : RegIdx) : exec (.uartReadByte p q) s = rxReady s fun ready t =>
    .next (if ready then t.pause (.uartReadByte p q) .rxGet else ((t.setReg p 0).setReg q 0).finish) := by
  simp only [exec, execUartReadByte, State.microOf_idle s ho, withReady_ready hd]

theorem exec_uartFlush_start : exec .uartFlush s = flushPoll s := by
  simp only [exec, execUartFlush, State.microOf_idle s ho, withReady_ready hd]

theorem exec_uartWriteByte_start {p : RegIdx} {v : Word} (hp : s.reg p = some v) :
    exec (.uartWriteByte p) s = writeBytePoll (.uartWriteByte p) (v.setWidth 8) s := by
  simp only [exec, execUartWriteByte, State.microOf_idle s ho, withReg_some hp, withReady_ready hd]

theorem exec_uartWriteString_start {p q : RegIdx} {v w : Word} (hp : s.reg p = some v) (hq : s.reg q = some w) :
    exec (.uartWriteString p q) s = withRam v.toNat w.toNat s
      (if w.toNat = 0 then .next s.finish else stringByte (.uartWriteString p q) v.toNat w.toNat 0 s) := by
  simp only [exec, execUartWriteString, State.microOf_idle s ho, withReg_some hp, withReg_some hq, withReady_ready hd]

theorem exec_uartReadLine_start (d : RegIdx) {p q : RegIdx} {v w : Word} (hp : s.reg p = some v)
    (hq : s.reg q = some w) : exec (.uartReadLine d p q) s =
      if w = 0 then raise (.bufCapacity 0) s
      else withRam v.toNat w.toNat s
        (if w.toNat = 1 then .next (lineDone d v.toNat 0 s)
         else lineRxPoll (.uartReadLine d p q) v.toNat w.toNat 0 s) := by
  simp only [exec, execUartReadLine, State.microOf_idle s ho, withReg_some hp, withReg_some hq, withReady_ready hd]

end

section
variable {s : State} {x : RegIdx} {off : Imm12} {v : Word}

/-- A write that reprograms an enabled PL011 faults (R233). -/
theorem exec_regWr_reprogram {q : UartReg} (hen : s.pl.cr.getLsbD 0 = true) (hx : s.reg x = some v)
    (hr : regAt .uart0 off.toNat = some (.uart q)) (hq : q = .ibrd ∨ q = .fbrd ∨ q = .lcrh)
    (hw : writeRefused (.uart q) v s = false) :
    exec (.regWr x 2 off) s = .next (s.raise (.pl011Reprogram off.toNat v)) := by
  refine exec_regWr_error rfl hx (checkWrite_fault hr hw rfl ?_)
  rcases hq with rfl | rfl | rfl <;> simp only [writeFault, Pl011.enabled, hen, if_true]

/-- UART_LCRH takes a value with no break that leaves the FIFOs enabled where they are (R235). -/
theorem writeRefused_lcrh (h0 : v.getLsbD 0 = false) (h4 : s.pl.lcrh.getLsbD 4 = true → v.getLsbD 4 = true) :
    writeRefused (.uart .lcrh) v s = false := by
  simpa [writeRefused] using And.intro h0 h4

end

/-- Settles O25: the checks of the accesses, and the checks of each driver operation before its first status read. -/
theorem blockedAccesses : Obligations.BlockedAccesses := by
  intro s x
  refine ⟨fun he off hlo hhi hal => ?_, fun v hen hx => ?_, fun hv he hd ho p q d => ?_⟩
  · obtain ⟨m, hm⟩ := regAt_mu hlo hhi hal
    refine ⟨exec_regRd_error rfl (checkRead_disabled hm he), fun v r hx hr hw => ?_⟩
    cases hm.symm.trans hr
    exact exec_regWr_error rfl hx (checkWrite_disabled hm hw he)
  · exact ⟨exec_regWr_reprogram (q := .ibrd) hen hx rfl (by simp) rfl,
      exec_regWr_reprogram (q := .fbrd) hen hx rfl (by simp) rfl,
      fun h0 h4 => exec_regWr_reprogram (q := .lcrh) hen hx rfl (by simp) (writeRefused_lcrh h0 h4)⟩
  · have hr : s.uartReachable = false := by simpa [State.uartReachable, hv] using he
    obtain ⟨hput, hstr, hflush, hline⟩ := polls_unreachable hr
    refine ⟨?_, ?_, ?_, fun v hp => ?_, fun v w hp hq => ⟨fun hw => ?_, fun hram => ⟨?_, fun hw => ?_⟩,
      fun hram => ⟨fun hw => ?_, fun hw => ?_⟩⟩⟩
    · rw [exec_uartReadByte_start hd ho]
      exact (status_unreachable hr _).2.1
    · rw [exec_uartFlush_start hd ho, hflush]
    · simp only [exec, execUartIsDataReady, withReady_ready hd]
      exact (status_unreachable hr _).2.1
    · rw [exec_uartWriteByte_start hd ho hp, hput]
    · rw [exec_uartReadLine_start hd ho d hp hq, if_pos hw, raise]
    · rw [exec_uartWriteString_start hd ho hp hq, withRam_out hram]
    · rw [exec_uartReadLine_start hd ho d hp hq, if_neg hw, withRam_out hram]
    · have hw0 : w.toNat ≠ 0 := fun h => hw (BitVec.eq_of_toNat_eq h)
      rw [exec_uartWriteString_start hd ho hp hq, withRam_in hram, if_neg hw0, hstr]
    · have hw0 : w ≠ 0 := by rintro rfl; simp at hw
      rw [exec_uartReadLine_start hd ho d hp hq, if_neg hw0, withRam_in hram, if_neg (by omega), hline]

end Sys2Proof.Machine
end

section
/-! GPIO registers (41_register_access.md R204 to R209). -/

namespace Sys2Proof.Machine

/-! ### Function select -/

/-- The select registers by index (R142). -/
theorem regAt_gpfsel {k : Nat} (hk : k < 6) :
    regAt .gpio (BitVec.ofNat 12 (4 * k)).toNat = some (.gpfsel ⟨k, hk⟩) := by
  interval_cases k <;> rfl

/-- The bits of a pin's field are defined (R142). -/
theorem selMask_bit {k j i : Nat} (hj : j < 10) (hpin : 10 * k + j < 54) (hi : i < 3) :
    (selMask k).getLsbD (3 * j + i) = true := by
  unfold selMask
  split_ifs with h5
  · have hj4 : j < 4 := by omega
    interval_cases j <;> interval_cases i <;> rfl
  · interval_cases j <;> interval_cases i <;> rfl

/-- A select register reads each of its pins' functions (R204). -/
theorem State.drawnOf_gpfsel_field (s : State) (k : Fin 6) {j : Nat} (hj : j < 10) (hpin : 10 * k.val + j < 54) :
    (s.drawnOf (.gpfsel k)).word.extractLsb' (3 * j) 3 = s.gpio.fselAt (10 * k.val + j) := by
  rw [Drawn.word_field _ fun i hi => selMask_bit hj hpin hi]
  exact Gpio.selWord_field _ _ hj

theorem State.writeSel_of_same {s : State} {k : Nat} {v : Word}
    (h : (s.gpio.writeSel k v).fselAt txPin = s.gpio.fselAt txPin) :
    (s.writeSel k v).mu = s.mu ∧ (s.writeSel k v).pl = s.pl := by
  simp [State.writeSel, h]

theorem State.writeSel_of_changed {s : State} {k : Nat} {v : Word}
    (h : (s.gpio.writeSel k v).fselAt txPin ≠ s.gpio.fselAt txPin) :
    (s.writeSel k v).mu = s.mu.corrupt ∧ (s.writeSel k v).pl = s.pl.corrupt := by
  simp [State.writeSel, h]

/-- A pin whose field is in another register keeps its function, one that no register has a field for included. -/
theorem Gpio.fselAt_writeSel_other (g : Gpio) {k p : Nat} (v : Word) (hp : p / 10 ≠ k) :
    (g.writeSel k v).fselAt p = g.fselAt p := by
  by_cases h54 : p < 54
  · rw [Gpio.fselAt_writeSel _ _ _ h54, if_neg hp]
  · rw [Gpio.fselAt_none _ (by omega), Gpio.fselAt_none _ (by omega)]

/-- A pin whose field is in the register gets its three bits (R205). -/
theorem Gpio.fselAt_writeSel_own (g : Gpio) {k j : Nat} (v : Word) (hj : j < 10) (hpin : 10 * k + j < 54) :
    (g.writeSel k v).fselAt (10 * k + j) = v.extractLsb' (3 * j) 3 := by
  rw [Gpio.fselAt_writeSel _ _ _ hpin, if_pos (by omega), show (10 * k + j) % 10 = j by omega]

/-- A select register holds no latch (R205). -/
theorem Gpio.out_writeSel (g : Gpio) (k : Nat) (v : Word) : (g.writeSel k v).out = g.out := by
  simp only [Gpio.writeSel]

/-- Settles O26: the written and the read word, field by field. -/
theorem functionSelectAccess : Obligations.FunctionSelectAccess := by
  intro s x k hk
  have hr := regAt_gpfsel hk
  refine ⟨fun v hx => ?_, ?_⟩
  · have hexec := exec_regWr_ok (blk := 0) rfl hx (checkWrite_ok_iff.2 ⟨hr, rfl, rfl, rfl⟩)
    refine ⟨_, hexec, ?_⟩
    simp only [State.finish_gpio, State.finish_mu, State.finish_pl, State.writeReg_mu, State.writeReg_pl,
      State.writeEffect, (s.selected_write _ _ v).2]
    exact ⟨fun j => Gpio.fselAt_writeSel_own _ v, fun p => Gpio.fselAt_writeSel_other _ v, Gpio.out_writeSel _ _ v,
      State.writeSel_of_same, State.writeSel_of_changed⟩
  · exact ⟨_, _, exec_regRd_ok rfl (checkRead_ok hr rfl), State.reg_setReg_same ..,
      State.samePeripherals_read rfl _ _, fun j => s.drawnOf_gpfsel_field ⟨k, hk⟩⟩

/-! ### Output latches and levels -/

/-- The latches of bank 0 are those of pins 0 to 31 (R144). -/
theorem bankBits_low (v : Word) {p : Nat} (hp : p < 54) :
    (bankBits false v).getLsbD p = (decide (p < 32) && v.getLsbD p) := by
  by_cases h32 : p < 32
  · simp [bankBits, hp, h32]
  · simp [bankBits, hp, h32, BitVec.getLsbD_of_ge _ _ (Nat.not_lt.1 h32)]

/-- The latches of bank 1 are those of pins 32 to 53 (R144). -/
theorem bankBits_high (v : Word) {p : Nat} (hp : p < 54) :
    (bankBits true v).getLsbD p = (decide (32 ≤ p) && v.getLsbD (p - 32)) := by
  by_cases h32 : p < 32
  · simp [bankBits, hp, h32]
  · simp [bankBits, hp, h32, Nat.not_lt.1 h32]

section
variable {s : State} {x : RegIdx} {off : Imm12} {v : Word} {hi : Bool} (hx : s.reg x = some v)
include hx

/-- A write of a set register sets the latches of its bank's bits (R206). -/
theorem exec_regWr_gpset (hr : regAt .gpio off.toNat = some (.gpset hi)) :
    ∃ t, exec (.regWr x 0 off) s = .next t ∧ t.gpio.fsel = s.gpio.fsel ∧
      ∀ p, p < 54 → t.gpio.out.getLsbD p = (s.gpio.out.getLsbD p || (bankBits hi v).getLsbD p) :=
  ⟨_, exec_regWr_ok rfl hx (checkWrite_ok_iff.2 ⟨hr, rfl, rfl, rfl⟩), rfl, fun _ _ => BitVec.getLsbD_or⟩

/-- A write of a clear register clears the latches of its bank's bits (R207). -/
theorem exec_regWr_gpclr (hr : regAt .gpio off.toNat = some (.gpclr hi)) :
    ∃ t, exec (.regWr x 0 off) s = .next t ∧ t.gpio.fsel = s.gpio.fsel ∧
      ∀ p, p < 54 → t.gpio.out.getLsbD p = (s.gpio.out.getLsbD p && !(bankBits hi v).getLsbD p) := by
  refine ⟨_, exec_regWr_ok rfl hx (checkWrite_ok_iff.2 ⟨hr, rfl, rfl, rfl⟩), rfl, fun p hp => ?_⟩
  show (s.gpio.out &&& ~~~bankBits hi v).getLsbD p = _
  simp [hp]

end

/-- Settles O27: the four writes, each bank's latches bit by bit. -/
theorem outputLatchWrites : Obligations.OutputLatchWrites := by
  intro s x v hx
  obtain ⟨t₁, he₁, hf₁, ho₁⟩ := exec_regWr_gpset (off := 0x1C) (hi := false) hx rfl
  obtain ⟨t₂, he₂, hf₂, ho₂⟩ := exec_regWr_gpset (off := 0x20) (hi := true) hx rfl
  obtain ⟨t₃, he₃, hf₃, ho₃⟩ := exec_regWr_gpclr (off := 0x28) (hi := false) hx rfl
  obtain ⟨t₄, he₄, hf₄, ho₄⟩ := exec_regWr_gpclr (off := 0x2C) (hi := true) hx rfl
  exact ⟨⟨t₁, he₁, hf₁, fun p hp => bankBits_low v hp ▸ ho₁ p hp⟩,
    ⟨t₂, he₂, hf₂, fun p hp => bankBits_high v hp ▸ ho₂ p hp⟩,
    ⟨t₃, he₃, hf₃, fun p hp => bankBits_low v hp ▸ ho₃ p hp⟩,
    ⟨t₄, he₄, hf₄, fun p hp => bankBits_high v hp ▸ ho₄ p hp⟩⟩

/-- A level register reads the latch of each of its pins that is an output (R209). -/
theorem State.drawnOf_gplev_bit (s : State) (hi : Bool) {i : Nat} (h32 : i < 32)
    (hout : s.gpio.fselAt (bankBase hi + i) = fnOutput) :
    (s.drawnOf (.gplev hi)).word.getLsbD i = s.gpio.out.getLsbD (bankBase hi + i) := by
  rw [Drawn.word_defined]
  · simp [State.drawnOf, State.regValue, Gpio.levWord, h32]
  · simp [State.drawnOf, State.regValue, Gpio.levMask, Gpio.isOutput, h32, hout]

/-- Settles O28: the two reads, pin by pin. -/
theorem levelRead : Obligations.LevelRead := by
  intro s x
  refine ⟨⟨_, _, exec_regRd_ok rfl (checkRead_ok (r := .gplev false) rfl rfl), State.reg_setReg_same ..,
    State.samePeripherals_read rfl _ _,
    fun p hp hout => ?_⟩, ⟨_, _, exec_regRd_ok rfl (checkRead_ok (r := .gplev true) rfl rfl),
    State.reg_setReg_same ..,
    State.samePeripherals_read rfl _ _, fun p hlo hhi hout => ?_⟩⟩
  · have hbase : bankBase false + p = p := Nat.zero_add p
    rw [State.drawnOf_gplev_bit s false hp (by rw [hbase]; exact hout), hbase]
  · have hbase : bankBase true + (p - 32) = p := by show 32 + (p - 32) = p; omega
    rw [State.drawnOf_gplev_bit s true (by omega) (by rw [hbase]; exact hout), hbase]

end Sys2Proof.Machine
end

section
/-! The Auxiliary block's registers (41_register_access.md R213 to R226). -/

namespace Sys2Proof.Machine

/-! ### AUX_ENABLES -/

/-- The enables stand in bits 2:0 (R213). -/
theorem Aux.word_bits (a : Aux) :
    a.word.getLsbD 0 = a.enMu ∧ a.word.getLsbD 1 = a.enSpi1 ∧ a.word.getLsbD 2 = a.enSpi2 := by
  simp [Aux.word, bitIf_get]

/-- A shifter set free holds no intact frame (R62, R213). -/
theorem Mu.intact_free {n : Nat} {f : TxFrame MuCfg} (h : (Mu.free n).busy = some f) : f.intact = false := by
  obtain ⟨-, -, rfl⟩ := Option.map_eq_some_iff.1 h
  rfl

theorem State.writeEnables_aux (s : State) (v : Word) :
    (s.writeEnables v).aux = ⟨v.getLsbD 0, v.getLsbD 1, v.getLsbD 2⟩ := by
  unfold State.writeEnables
  dsimp only
  split_ifs <;> rfl

theorem State.writeEnables_mu (s : State) (v : Word) : (s.writeEnables v).mu =
    if s.aux.enMu = true ∧ v.getLsbD 0 = false then Mu.free s.draws else s.mu := by
  unfold State.writeEnables
  cases s.aux.enMu <;> cases v.getLsbD 0 <;> rfl

/-- Settles O29: the word read, and the two cases of the write. -/
theorem auxEnablesAccess : Obligations.AuxEnablesAccess := by
  intro s x
  have hmask : ∀ k < 3, (0x7 : Word).getLsbD k = true := by decide
  have hdef := fun k hk => (s.drawnOf .auxEnables).word_defined (hmask k hk)
  obtain ⟨hmu, hspi1, hspi2⟩ := s.aux.word_bits
  refine ⟨⟨_, _, exec_regRd_ok rfl (checkRead_ok (r := .auxEnables) rfl rfl), State.reg_setReg_same .., rfl,
    (hdef 0 (by decide)).trans hmu, (hdef 1 (by decide)).trans hspi1, (hdef 2 (by decide)).trans hspi2⟩,
    fun v hx => ?_⟩
  have hexec := exec_regWr_ok (blk := 1) (off := 0x04) rfl hx
    (checkWrite_ok_iff (r := .auxEnables).2 ⟨rfl, rfl, rfl, rfl⟩)
  have hm := s.writeEnables_mu v
  refine ⟨_, hexec, ?_⟩
  simp only [State.finish_aux, State.finish_mu, State.writeReg_aux, State.writeReg_mu, State.writeEffect,
    s.writeEnables_aux v, true_and]
  refine ⟨fun hoff => ?_, fun hoff => by rw [hm, if_neg hoff]⟩
  rw [hm, if_pos hoff]
  obtain ⟨htx, hrx⟩ := Mu.bounded_free s.draws
  exact ⟨rfl, htx, hrx, fun _ => Mu.intact_free⟩

/-! ### The Mini UART's registers, while it is enabled -/

section
variable {s : State} {x : RegIdx} {off : Imm12} {q : MuReg} (he : s.aux.enMu = true)
include he

/-- A read of a Mini UART register returns its defined bits; the Mini UART is left as `m`, the read's effect on it. -/
theorem exec_regRd_mu (hr : regAt .aux off.toNat = some (.mu q)) {m : Mu} (hm : (s.readEffect (.mu q)).mu = m) :
    ∃ t, exec (.regRd x 1 off) s = .next t ∧ t.reg x = some (s.drawnOf (.mu q)).word ∧ t.mu = m :=
  ⟨_, exec_regRd_ok rfl (checkRead_ok hr (auxBlocked_of_enabled he _)), State.reg_setReg_same .., hm⟩

/-- A write that a Mini UART register takes leaves the Mini UART as `m`, the write's effect on it. -/
theorem exec_regWr_mu {v : Word} (hx : s.reg x = some v) (hr : regAt .aux off.toNat = some (.mu q))
    (hw : writeRefused (.mu q) v s = false) (hf : writeFault (.mu q) off.toNat v s = none) {m : Mu}
    (hm : s.mu.write q v = m) : ∃ t, exec (.regWr x 1 off) s = .next t ∧ t.mu = m :=
  ⟨_, exec_regWr_ok rfl hx (checkWrite_ok_iff.2 ⟨hr, hw, auxBlocked_of_enabled he _, hf⟩), hm⟩

end

/-- What a data register shows of a FIFO with a byte is its oldest byte (R220, R229). -/
theorem Drawn.word_head (d : Drawn) {b : Byte} {rest : List Byte} (hk : d.known = headWord (b :: rest))
    (hm : d.mask = headMask (b :: rest)) : d.word.extractLsb' 0 8 = b :=
  d.word_stored (by decide) hk hm

/-- A data register takes no byte from an empty FIFO. -/
theorem Mu.take_nil {m : Mu} (h : m.rxf = []) : { m with rxf := m.rxf.tail } = m := by
  rw [show m.rxf.tail = m.rxf by rw [h]; rfl]

theorem Mu.write_io (m : Mu) (v : Word) : m.write .io v = { m with txf := m.txf ++ [v.extractLsb' 0 8] } := by
  rw [Mu.write, BitVec.setWidth_eq_extractLsb' (by decide)]

/-- Settles O30: the data register by its FIFO's length, and the clear bits. -/
theorem miniUartFifoAccess : Obligations.MiniUartFifoAccess := by
  intro s x he
  refine ⟨fun v hx => ⟨fun hfull => ?_, fun hroom => ?_, ?_⟩, fun b rest hrx => ?_, fun hrx => ?_⟩
  · refine exec_regWr_error rfl hx (checkWrite_fault (r := .mu .io) rfl rfl (auxBlocked_of_enabled he _) ?_)
    simp [writeFault, Mu.txFull_eq, hfull]
  · exact exec_regWr_mu he hx rfl rfl (by simp [writeFault_eq_none_iff, hroom]) (Mu.write_io _ v)
  · exact exec_regWr_mu (q := .iir) he hx rfl rfl rfl rfl
  · obtain ⟨t, hexec, hreg, hmu⟩ := exec_regRd_mu (x := x) (off := 0x40) (q := .io) he rfl rfl
    have hword : (s.drawnOf (.mu .io)).word.extractLsb' 0 8 = b :=
      Drawn.word_head _ (congrArg headWord hrx) (congrArg headMask hrx)
    exact ⟨t, _, hexec, hreg, hword, by rw [hmu, State.readEffect, hrx]; rfl⟩
  · obtain ⟨t, hexec, -, hmu⟩ := exec_regRd_mu (x := x) (off := 0x40) (q := .io) he rfl (Mu.take_nil hrx)
    exact ⟨t, hexec, hmu⟩

/-! ### Status registers -/

section
variable (m : Mu)

theorem Mu.dataReady_eq : m.dataReady = decide (m.rxf ≠ []) := by
  cases h : m.rxf <;> simp [Mu.dataReady, h]

theorem Mu.txRoom_eq : m.txRoom = decide (m.txf.length < 8) := rfl

theorem Mu.isEmpty_txf : m.txf.isEmpty = decide (m.txf = []) := by
  cases m.txf <;> rfl

theorem Mu.txIdle_eq : m.txIdle = decide (m.txf = [] ∧ m.busy = none) := by
  rw [Mu.txIdle, Mu.isEmpty_txf, Bool.decide_and]
  cases m.busy <;> rfl

/-- AUX_MU_LSR_REG bit by bit (R158, R225). -/
theorem Mu.lsr_bits : m.lsr.getLsbD 0 = decide (m.rxf ≠ []) ∧ m.lsr.getLsbD 1 = m.ovr ∧
    m.lsr.getLsbD 5 = decide (m.txf.length < 8) ∧ m.lsr.getLsbD 6 = decide (m.txf = [] ∧ m.busy = none) := by
  rw [← m.dataReady_eq, ← m.txRoom_eq, ← m.txIdle_eq]
  simp [Mu.lsr, bitIf_get]

/-- AUX_MU_STAT_REG bit by bit (R161, R224). -/
theorem Mu.stat_bits : m.stat.getLsbD 0 = decide (m.rxf ≠ []) ∧
    m.stat.getLsbD 1 = decide (m.txf.length < 8) ∧ m.stat.getLsbD 4 = m.ovr ∧
    m.stat.getLsbD 5 = decide (m.txf.length = 8) ∧ m.stat.getLsbD 8 = decide (m.txf = []) ∧
    m.stat.getLsbD 9 = decide (m.txf = [] ∧ m.busy = none) := by
  rw [← m.dataReady_eq, ← m.txRoom_eq, ← m.txIdle_eq, ← m.txFull_eq, ← m.isEmpty_txf]
  simp [Mu.stat, bitIf_get]

/-- The FIFO levels in AUX_MU_STAT_REG (R161). -/
theorem Mu.stat_levels : m.stat.extractLsb' 16 4 = BitVec.ofNat 4 m.rxf.length ∧
    m.stat.extractLsb' 24 4 = BitVec.ofNat 4 m.txf.length := by
  constructor <;>
    (apply BitVec.eq_of_getLsbD_eq
     intro k hk
     interval_cases k <;> simp [Mu.stat, bitIf_get])

end

/-- A FIFO's level of up to 8, as a read of AUX_MU_STAT_REG shows it in the four bits from `i`. -/
theorem State.drawnOf_stat_level {s : State} {i n : Nat} (hmask : ∀ k < 4, statMask.getLsbD (i + k) = true)
    (hlevel : s.mu.stat.extractLsb' i 4 = BitVec.ofNat 4 n) (hn : n ≤ 8) :
    ((s.drawnOf (.mu .stat)).word.extractLsb' i 4).toNat = n := by
  rw [Drawn.word_field _ hmask]
  show (s.mu.stat.extractLsb' i 4).toNat = n
  rw [hlevel, BitVec.toNat_ofNat]
  omega

/-- Settles O31: the defined bits of the two reads, and the effect of each. -/
theorem miniUartStatusReads : Obligations.MiniUartStatusReads := by
  intro s x he htx hrx
  constructor
  · obtain ⟨t, hexec, hreg, hmu⟩ := exec_regRd_mu (x := x) (off := 0x54) (q := .lsr) he rfl rfl
    obtain ⟨h0, h1, h5, h6⟩ := s.mu.lsr_bits
    have hdef := fun k (hk : lsrMask.getLsbD k = true) => (s.drawnOf (.mu .lsr)).word_defined hk
    exact ⟨t, _, hexec, hreg, (hdef 0 rfl).trans h0, (hdef 1 rfl).trans h1, (hdef 5 rfl).trans h5,
      (hdef 6 rfl).trans h6, hmu⟩
  · obtain ⟨t, hexec, hreg, hmu⟩ := exec_regRd_mu (x := x) (off := 0x64) (q := .stat) he rfl rfl
    obtain ⟨h0, h1, h4, h5, h8, h9⟩ := s.mu.stat_bits
    obtain ⟨hr, ht⟩ := s.mu.stat_levels
    have hdef := fun k (hk : statMask.getLsbD k = true) => (s.drawnOf (.mu .stat)).word_defined hk
    exact ⟨t, _, hexec, hreg, (hdef 0 rfl).trans h0, (hdef 1 rfl).trans h1, (hdef 4 rfl).trans h4,
      (hdef 5 rfl).trans h5, (hdef 8 rfl).trans h8, (hdef 9 rfl).trans h9,
      State.drawnOf_stat_level (by decide) hr hrx, State.drawnOf_stat_level (by decide) ht htx, hmu⟩

/-! ### Configuration writes -/

section
variable (m : Mu) (v : Word)

theorem Mu.write_ier : m.write .ier v = { m with ier := v.extractLsb' 0 8 &&& 0x03 } := by
  rw [Mu.write, BitVec.setWidth_and, BitVec.setWidth_eq_extractLsb' (x := v) (by decide)]
  rfl

theorem Mu.write_lcr : m.write .lcr v = { m with
    lcr := v.extractLsb' 0 8 &&& 0xC3, busy := m.busy.map fun f => { f with intact := false } } := by
  rw [Mu.write, BitVec.setWidth_and, BitVec.setWidth_eq_extractLsb' (x := v) (by decide)]
  rfl

theorem Mu.write_mcr : m.write .mcr v = { m with mcr := v.extractLsb' 0 8 &&& 0x02 } := by
  rw [Mu.write, BitVec.setWidth_and, BitVec.setWidth_eq_extractLsb' (x := v) (by decide)]
  rfl

theorem Mu.write_scratch : m.write .scratch v = { m with scratch := v.extractLsb' 0 8 } := by
  rw [Mu.write, BitVec.setWidth_eq_extractLsb' (by decide)]

theorem Mu.write_cntl : m.write .cntl v = { m with
    cntl := v.extractLsb' 0 8
    busy := if v.getLsbD 1 then m.busy else m.busy.map fun f => { f with intact := false } } := by
  rw [Mu.write, BitVec.setWidth_eq_extractLsb' (by decide)]
  split_ifs <;> rfl

theorem Mu.write_baud : m.write .baud v = { m with
    baud := v.extractLsb' 0 16, busy := m.busy.map fun f => { f with intact := false } } := by
  rw [Mu.write, BitVec.setWidth_eq_extractLsb' (by decide)]
  rfl

end

/-- Settles O32: each register by its write equation. -/
theorem miniUartConfigurationWrites : Obligations.MiniUartConfigurationWrites := by
  intro s x v he hx
  have lcr_taken (h6 : v.getLsbD 6 = false) (h7 : v.getLsbD 7 = false) : writeRefused (.mu .lcr) v s = false := by
    simp only [writeRefused, h6, h7, Bool.or_false]
  have cntl_taken (h : v.extractLsb' 2 6 = 0) : writeRefused (.mu .cntl) v s = false := by
    simp only [writeRefused, h, bne_self_eq_false]
  exact ⟨exec_regWr_mu he hx rfl rfl rfl (Mu.write_ier _ v),
    fun h6 h7 => exec_regWr_mu he hx rfl (lcr_taken h6 h7) rfl (Mu.write_lcr _ v),
    exec_regWr_mu he hx rfl rfl rfl (Mu.write_mcr _ v),
    exec_regWr_mu he hx rfl rfl rfl (Mu.write_scratch _ v),
    fun h => exec_regWr_mu he hx rfl (cntl_taken h) rfl (Mu.write_cntl _ v),
    exec_regWr_mu he hx rfl rfl rfl (Mu.write_baud _ v)⟩

end Sys2Proof.Machine
end

section
/-! The full UART's registers (41_register_access.md R227 to R241). -/

namespace Sys2Proof.Machine

section
variable {s : State} {x : RegIdx} {off : Imm12} {q : UartReg}

/-- A read of a PL011 register returns its defined bits; the PL011 is left as `u`, the read's effect on it. -/
theorem exec_regRd_uart (hr : regAt .uart0 off.toNat = some (.uart q)) {u : Pl011}
    (hu : (s.readEffect (.uart q)).pl = u) :
    ∃ t, exec (.regRd x 2 off) s = .next t ∧ t.reg x = some (s.drawnOf (.uart q)).word ∧ t.pl = u :=
  ⟨_, exec_regRd_ok rfl (checkRead_ok hr rfl), State.reg_setReg_same .., hu⟩

/-- A write that a PL011 register takes leaves the PL011 as `u`, the write's effect on it. -/
theorem exec_regWr_uart {v : Word} (hx : s.reg x = some v) (hr : regAt .uart0 off.toNat = some (.uart q))
    (hw : writeRefused (.uart q) v s = false) (hf : writeFault (.uart q) off.toNat v s = none) {u : Pl011}
    (hu : s.pl.write q v = u) : ∃ t, exec (.regWr x 2 off) s = .next t ∧ t.pl = u :=
  ⟨_, exec_regWr_ok rfl hx (checkWrite_ok_iff.2 ⟨hr, hw, rfl, hf⟩), hu⟩

end

/-! ### Data, error and flag registers -/

/-- The data register takes no byte from an empty FIFO. -/
theorem Pl011.take_nil {u : Pl011} (h : u.rxf = []) : { u with rxf := u.rxf.tail } = u := by
  rw [show u.rxf.tail = u.rxf by rw [h]; rfl]

section
variable (u : Pl011)

theorem Pl011.frBusy_eq : u.frBusy = decide (u.busy ≠ none ∨ u.txf ≠ []) := by
  unfold Pl011.frBusy
  cases u.busy <;> cases u.txf <;> rfl

theorem Pl011.rxfe_eq : u.rxfe = decide (u.rxf = []) := by
  unfold Pl011.rxfe
  cases u.rxf <;> rfl

theorem Pl011.txfe_eq : u.txfe = decide (u.txf = []) := by
  unfold Pl011.txfe
  cases u.txf <;> rfl

/-- UART_FR bit by bit (R166, R230). -/
theorem Pl011.fr_bits : u.fr.getLsbD 3 = decide (u.busy ≠ none ∨ u.txf ≠ []) ∧
    u.fr.getLsbD 4 = decide (u.rxf = []) ∧ u.fr.getLsbD 5 = decide (u.txf.length = u.depth) ∧
    u.fr.getLsbD 6 = decide (u.rxf.length = u.depth) ∧ u.fr.getLsbD 7 = decide (u.txf = []) := by
  rw [← u.frBusy_eq, ← u.rxfe_eq, ← u.txfe_eq, ← Pl011.txff, ← Pl011.rxff]
  simp [Pl011.fr, bitIf_get]

theorem Pl011.write_dr (v : Word) : u.write .dr v = { u with txf := u.txf ++ [v.extractLsb' 0 8] } := by
  rw [Pl011.write, BitVec.setWidth_eq_extractLsb' (by decide)]

end

/-- Settles O33: the data register by its FIFOs' lengths, the error register, and the flags bit by bit. -/
theorem pl011DataAndFlags : Obligations.Pl011DataAndFlags := by
  intro s x
  refine ⟨fun v hx => ⟨fun hfull => ?_, fun hroom => ?_, ?_⟩, fun b rest hrx => ?_, fun hrx => ?_, ?_, ?_⟩
  · refine exec_regWr_error rfl hx (checkWrite_fault (r := .uart .dr) rfl rfl rfl ?_)
    simp [writeFault, Pl011.txff, hfull]
  · exact exec_regWr_uart hx rfl rfl (by simp [writeFault_eq_none_iff, hroom]) (Pl011.write_dr _ v)
  · exact exec_regWr_uart (q := .rsrecr) hx rfl rfl rfl rfl
  · obtain ⟨t, hexec, hreg, hpl⟩ := exec_regRd_uart (s := s) (x := x) (off := 0x00) (q := .dr) rfl rfl
    have hword : (s.drawnOf (.uart .dr)).word.extractLsb' 0 8 = b :=
      Drawn.word_head _ (congrArg headWord hrx) (congrArg headMask hrx)
    exact ⟨t, _, hexec, hreg, hword, by rw [hpl, State.readEffect, hrx]; rfl⟩
  · obtain ⟨t, hexec, -, hpl⟩ := exec_regRd_uart (x := x) (off := 0x00) (q := .dr) rfl (Pl011.take_nil hrx)
    exact ⟨t, hexec, hpl⟩
  · obtain ⟨t, hexec, hreg, hpl⟩ := exec_regRd_uart (s := s) (x := x) (off := 0x04) (q := .rsrecr) rfl rfl
    have hoe : (bitIf 3 s.pl.oe).getLsbD 3 = s.pl.oe := by simp [bitIf_get]
    have hdef := (s.drawnOf (.uart .rsrecr)).word_defined (show (0x8 : Word).getLsbD 3 = true by decide)
    exact ⟨t, _, hexec, hreg, hdef.trans hoe, hpl⟩
  · obtain ⟨t, hexec, hreg, hpl⟩ := exec_regRd_uart (s := s) (x := x) (off := 0x18) (q := .fr) rfl rfl
    obtain ⟨h3, h4, h5, h6, h7⟩ := s.pl.fr_bits
    have hdef := fun k (hk : frMask.getLsbD k = true) => (s.drawnOf (.uart .fr)).word_defined hk
    exact ⟨t, _, hexec, hreg, (hdef 3 rfl).trans h3, (hdef 4 rfl).trans h4, (hdef 5 rfl).trans h5,
      (hdef 6 rfl).trans h6, (hdef 7 rfl).trans h7, hpl⟩

/-! ### Configuration writes -/

section
variable (u : Pl011) (v : Word)

theorem Pl011.write_ibrd : u.write .ibrd v = { u with ibrd := v.extractLsb' 0 16 } := by
  rw [Pl011.write, BitVec.setWidth_eq_extractLsb' (by decide)]

theorem Pl011.write_fbrd : u.write .fbrd v = { u with fbrd := v.extractLsb' 0 6 } := by
  rw [Pl011.write, BitVec.setWidth_eq_extractLsb' (by decide)]

/-- The divisors take effect with the line control (R51, R235). -/
theorem Pl011.write_lcrh : u.write .lcrh v = { u with
    lcrh := v.extractLsb' 0 8, actLcrh := v.extractLsb' 0 8, actIbrd := u.ibrd, actFbrd := u.fbrd,
    busy := u.busy.map fun f => { f with intact := false } } := by
  rw [Pl011.write, BitVec.setWidth_eq_extractLsb' (by decide)]
  rfl

theorem Pl011.write_cr : u.write .cr v = { u with cr := v.extractLsb' 0 16 &&& 0xFF87 } := by
  rw [Pl011.write, BitVec.setWidth_and, BitVec.setWidth_eq_extractLsb' (x := v) (by decide)]
  rfl

theorem Pl011.write_ifls : u.write .ifls v = { u with ifls := v.extractLsb' 0 6 } := by
  rw [Pl011.write, BitVec.setWidth_eq_extractLsb' (by decide)]

theorem Pl011.write_imsc : u.write .imsc v = { u with imsc := v.extractLsb' 0 11 } := by
  rw [Pl011.write, BitVec.setWidth_eq_extractLsb' (by decide)]

/-- With FEN the FIFOs hold 16 bytes (R13, R52). -/
theorem Pl011.depth_of_fen {u : Pl011} (h : u.lcrh.getLsbD 4 = true) : u.depth = 16 := if_pos h

end

/-- A disabled PL011 takes every write but one to a full FIFO (R233). -/
theorem writeFault_of_disabled {s : State} {off : Nat} {q : UartReg} {v : Word} (hen : s.pl.cr.getLsbD 0 = false)
    (hq : q ≠ .dr) : writeFault (.uart q) off v s = none :=
  writeFault_eq_none_iff.2 ⟨fun h => by simp at h, fun h => absurd (PReg.uart.inj h) hq, fun _ => hen⟩

/-- Settles O34: each register by its write equation. -/
theorem pl011ConfigurationWrites : Obligations.Pl011ConfigurationWrites := by
  intro s x v hx
  refine ⟨fun hen => ⟨?_, ?_, fun h0 h4 => ?_⟩, fun h1 h2 h7 h14 h15 => ?_, ?_, ?_, ?_, fun hdma => ?_⟩
  · exact exec_regWr_uart hx rfl rfl (writeFault_of_disabled hen (by decide)) (Pl011.write_ibrd _ v)
  · exact exec_regWr_uart hx rfl rfl (writeFault_of_disabled hen (by decide)) (Pl011.write_fbrd _ v)
  · obtain ⟨t, hexec, hpl⟩ := exec_regWr_uart hx (off := 0x2C) rfl (writeRefused_lcrh h0 h4)
      (writeFault_of_disabled hen (by decide)) (Pl011.write_lcrh _ v)
    refine ⟨t, hexec, hpl, fun h => Pl011.depth_of_fen ?_⟩
    rw [hpl]
    simpa using h
  · have hw : writeRefused (.uart .cr) v s = false := by simp only [writeRefused, h1, h2, h7, h14, h15, Bool.or_false]
    exact exec_regWr_uart hx rfl hw rfl (Pl011.write_cr _ v)
  · exact exec_regWr_uart hx rfl rfl rfl (Pl011.write_ifls _ v)
  · exact exec_regWr_uart hx rfl rfl rfl (Pl011.write_imsc _ v)
  · exact exec_regWr_uart (q := .icr) hx rfl rfl rfl rfl
  · have hw : writeRefused (.uart .dmacr) v s = false := by simp only [writeRefused, hdma, bne_self_eq_false]
    exact exec_regWr_uart hx rfl hw rfl rfl

end Sys2Proof.Machine
end

section
/-! Reads of registers that store what is written, and of registers that show nothing (41_register_access.md R208, R211,
R215, R216, R218, R219, R221 to R223, R226, R231, R232, R234, R237 to R241). -/

namespace Sys2Proof.Machine

section
variable {s : State} {x : RegIdx} {off : Imm12} {n : Nat} {field : BitVec n} (hn : n ≤ 32)
include hn

/-- A Mini UART register that stores a field reads its bits of `mask`, with no side effect. -/
theorem exec_regRd_mu_stored (he : s.aux.enMu = true) {q : MuReg} (hr : regAt .aux off.toNat = some (.mu q))
    {mask : BitVec n} (hval : s.mu.value q = (field.setWidth 32, mask.setWidth 32))
    (heff : s.readEffect (.mu q) = s) : ∃ t v, exec (.regRd x 1 off) s = .next t ∧ t.reg x = some v ∧
      v.extractLsb' 0 n &&& mask = field &&& mask ∧ t.mu = s.mu := by
  obtain ⟨t, hexec, hreg, hmu⟩ := exec_regRd_mu (x := x) he hr (congrArg State.mu heff)
  exact ⟨t, _, hexec, hreg, Drawn.word_masked _ hn (congrArg Prod.fst hval) (congrArg Prod.snd hval), hmu⟩

/-- A PL011 register that stores a field reads its bits of `mask`, with no side effect. -/
theorem exec_regRd_uart_masked {q : UartReg} (hr : regAt .uart0 off.toNat = some (.uart q))
    {mask : BitVec n} (hval : s.pl.value q = (field.setWidth 32, mask.setWidth 32))
    (heff : s.readEffect (.uart q) = s) : ∃ t v, exec (.regRd x 2 off) s = .next t ∧ t.reg x = some v ∧
      v.extractLsb' 0 n &&& mask = field &&& mask ∧ t.pl = s.pl := by
  obtain ⟨t, hexec, hreg, hpl⟩ := exec_regRd_uart (x := x) hr (congrArg State.pl heff)
  exact ⟨t, _, hexec, hreg, Drawn.word_masked _ hn (congrArg Prod.fst hval) (congrArg Prod.snd hval), hpl⟩

/-- A PL011 register that stores a field and shows all of it. -/
theorem exec_regRd_uart_stored {q : UartReg} (hr : regAt .uart0 off.toNat = some (.uart q))
    (hval : s.pl.value q = (field.setWidth 32, (BitVec.allOnes n).setWidth 32)) (heff : s.readEffect (.uart q) = s) :
    ∃ t v, exec (.regRd x 2 off) s = .next t ∧ t.reg x = some v ∧ v.extractLsb' 0 n = field ∧ t.pl = s.pl := by
  simpa using exec_regRd_uart_masked hn (x := x) hr hval heff

end

/-- A read with no side effect leaves the peripherals, whatever its value. -/
theorem exec_regRd_quiet {s : State} {x : RegIdx} {blk : BitVec 4} {off : Imm12} {b : Block} {r : PReg}
    (hb : decodeBlock blk = some b) (hr : regAt b off.toNat = some r) (ha : auxBlocked r s = false)
    (heff : s.readEffect r = s) : ∃ t v, exec (.regRd x blk off) s = .next t ∧ t.reg x = some v ∧
      SamePeripherals s t ∧ t.opc = s.opc + 1 :=
  ⟨_, _, exec_regRd_ok hb (checkRead_ok hr ha), State.reg_setReg_same .., State.samePeripherals_read heff _ _,
    by simp⟩

/-- Settles O35: each register of the lists by its value's defined bits. -/
theorem storedRegistersRead : Obligations.StoredRegistersRead := by
  intro s x
  refine ⟨fun he off field mask h => ?_, fun blk off h => ?_, fun he => ?_, ?_⟩
  · simp only [List.mem_cons, Prod.mk.injEq, List.not_mem_nil, or_false] at h
    rcases h with ⟨rfl, rfl, rfl⟩ | ⟨rfl, rfl, rfl⟩ | ⟨rfl, rfl, rfl⟩ | ⟨rfl, rfl, rfl⟩ | ⟨rfl, rfl, rfl⟩ <;>
      exact exec_regRd_mu_stored (by decide) he rfl rfl rfl
  · simp only [List.mem_cons, Prod.mk.injEq, List.not_mem_nil, or_false] at h
    rcases h with h | ⟨he, h⟩
    · rcases h with ⟨rfl, rfl⟩ | ⟨rfl, rfl⟩ | ⟨rfl, rfl⟩ | ⟨rfl, rfl⟩ | ⟨rfl, rfl⟩ | ⟨rfl, rfl⟩ | ⟨rfl, rfl⟩ |
        ⟨rfl, rfl⟩ <;> exact exec_regRd_quiet rfl rfl rfl rfl
    · rcases h with ⟨rfl, rfl⟩ | ⟨rfl, rfl⟩ <;> exact exec_regRd_quiet rfl rfl (auxBlocked_of_enabled he _) rfl
  · obtain ⟨t, hexec, hreg, hmu⟩ := exec_regRd_mu (x := x) (off := 0x68) (q := .baud) he rfl rfl
    exact ⟨t, _, hexec, hreg, Drawn.word_stored _ (by decide) rfl rfl, hmu⟩
  · exact ⟨exec_regRd_uart_stored (q := .ibrd) (by decide) rfl rfl rfl,
      exec_regRd_uart_stored (q := .fbrd) (by decide) rfl rfl rfl,
      exec_regRd_uart_stored (q := .lcrh) (by decide) rfl rfl rfl,
      exec_regRd_uart_masked (q := .cr) (by decide) rfl rfl rfl,
      exec_regRd_uart_stored (q := .ifls) (by decide) rfl rfl rfl,
      exec_regRd_uart_stored (q := .imsc) (by decide) rfl rfl rfl,
      exec_regRd_uart_stored (q := .dmacr) (by decide) rfl rfl rfl⟩

end Sys2Proof.Machine
end

section
/-! The frame of the register access words (41_register_access.md R200, R201, R203, R205; 20_memory.md R100,
R114, R115). -/

namespace Sys2Proof.Machine

/-! ### What an access leaves of the blocks it does not name -/

/-- A number that is not a block's own names another block (R175). -/
theorem block_ne_of_number {blk : BitVec 4} {b : Block} (hb : decodeBlock blk = some b) :
    (blk ≠ 0 → b ≠ .gpio) ∧ (blk ≠ 1 → b ≠ .aux) ∧ (blk ≠ 2 → b ≠ .uart0) := by
  revert b
  revert blk
  decide

section
variable (s : State) {r : PReg}

theorem State.readEffect_mu_of_block (h : r.block ≠ .aux) : (s.readEffect r).mu = s.mu := by
  cases r with
  | mu => exact absurd rfl h
  | uart q => cases q <;> rfl
  | _ => rfl

theorem State.readEffect_pl_of_block (h : r.block ≠ .uart0) : (s.readEffect r).pl = s.pl := by
  cases r with
  | uart => exact absurd rfl h
  | mu q => cases q <;> rfl
  | _ => rfl

variable (v : Word)

/-- Only a write of a GPIO register changes the GPIO block. -/
theorem State.writeEffect_gpio_of_block (h : r.block ≠ .gpio) : (s.writeEffect r v).gpio = s.gpio := by
  cases r with
  | gpfsel | gpset | gpclr | gplev => exact absurd rfl h
  | auxEnables => simp [State.writeEffect]
  | auxIrq | mu | uart => rfl

/-- Only a write of GPFSEL1 can mark the frames in the shifters: the transmit pin's field is in it (R205). -/
theorem State.writeSel_uarts (k : Nat) : ((s.writeSel k v).mu = s.mu ∧ (s.writeSel k v).pl = s.pl) ∨
    (k = 1 ∧ (s.writeSel k v).mu = s.mu.corrupt ∧ (s.writeSel k v).pl = s.pl.corrupt) := by
  by_cases hk : k = 1
  · by_cases hsame : (s.gpio.writeSel k v).fselAt txPin = s.gpio.fselAt txPin
    · exact .inl (State.writeSel_of_same hsame)
    · exact .inr ⟨hk, State.writeSel_of_changed hsame⟩
  · exact .inl (State.writeSel_of_same (Gpio.fselAt_writeSel_other _ v (Ne.symm hk)))

/-- A write outside the Auxiliary block leaves it, but for the frame that a write of GPFSEL1 can mark. -/
theorem State.writeEffect_aux_of_block (h : r.block ≠ .aux) : (s.writeEffect r v).aux = s.aux ∧
    ((s.writeEffect r v).mu = s.mu ∨ r = .gpfsel 1 ∧ (s.writeEffect r v).mu = s.mu.corrupt) := by
  cases r with
  | gpfsel k =>
    refine ⟨by simp [State.writeEffect], ?_⟩
    rcases s.writeSel_uarts v k with ⟨hmu, -⟩ | ⟨hk, hmu, -⟩
    · exact .inl hmu
    · exact .inr ⟨congrArg _ (Fin.ext hk), hmu⟩
  | auxIrq | auxEnables | mu => exact absurd rfl h
  | gpset | gpclr | gplev | uart => exact ⟨rfl, .inl rfl⟩

/-- A write outside the PL011's block leaves it, but for the frame that a write of GPFSEL1 can mark. -/
theorem State.writeEffect_pl_of_block (h : r.block ≠ .uart0) :
    (s.writeEffect r v).pl = s.pl ∨ r = .gpfsel 1 ∧ (s.writeEffect r v).pl = s.pl.corrupt := by
  cases r with
  | gpfsel k =>
    rcases s.writeSel_uarts v k with ⟨-, hpl⟩ | ⟨hk, -, hpl⟩
    · exact .inl hpl
    · exact .inr ⟨congrArg _ (Fin.ext hk), hpl⟩
  | auxEnables => exact .inl (by simp [State.writeEffect])
  | uart => exact absurd rfl h
  | gpset | gpclr | gplev | auxIrq | mu => exact .inl rfl

end

/-- GPFSEL1 stands at offset 4 of block 0 (R142, R175). -/
theorem number_of_regAt_gpfsel1 {blk : BitVec 4} {off : Imm12} {b : Block} (hb : decodeBlock blk = some b)
    (hr : regAt b off.toNat = some (.gpfsel 1)) : blk = 0 ∧ off = 4 := by
  obtain rfl : Block.gpio = b := block_of_regAt hr
  refine ⟨?_, BitVec.eq_of_toNat_eq (offset_of_regAt_gpfsel hr)⟩
  revert blk
  decide

/-- Settles O36: a fault changes neither word's frame, and an access only what its register's block holds. -/
theorem registerAccessFrame : Obligations.RegisterAccessFrame := by
  intro s t x blk off
  refine ⟨fun h => ?_, fun h => ?_⟩
  · rcases exec_regRd_cases h with ⟨c, rfl⟩ | ⟨b, r, hb, hr, rfl⟩
    · simp [SameRegsBut, SameRam, SameProgram]
    · obtain ⟨-, haux, huart⟩ := block_ne_of_number hb
      rw [← block_of_regAt hr] at haux huart
      refine ⟨fun q hq => ?_, fun a => by simp, by simp, by simp, fun hne => s.readEffect_mu_of_block (haux hne),
        fun hne => s.readEffect_pl_of_block (huart hne), by simp, by simp, ⟨by simp, by simp⟩, by simp, rfl, by simp⟩
      rw [State.reg_finish, State.reg_setReg_other _ (by simpa using hq), State.readReg_reg]
  · rcases exec_regWr_cases h with ⟨c, rfl⟩ | ⟨b, r, v, hb, hr, rfl⟩
    · simp [SameRegsBut, SameRam, SameProgram]
    · obtain ⟨hgpio, haux, huart⟩ := block_ne_of_number hb
      rw [← block_of_regAt hr] at hgpio haux huart
      simp only [State.finish_gpio, State.finish_aux, State.finish_mu, State.finish_pl, State.writeReg_gpio,
        State.writeReg_aux, State.writeReg_mu, State.writeReg_pl]
      refine ⟨fun q _ => by simp, fun a => by simp, fun hne => s.writeEffect_gpio_of_block v (hgpio hne),
        fun hne => ?_, fun hne => ?_, by simp, by simp, ⟨by simp, by simp⟩, by simp, rfl, by simp⟩
      · obtain ⟨ha, hmu | ⟨rfl, hmu⟩⟩ := s.writeEffect_aux_of_block v (haux hne)
        · exact ⟨ha, .inl hmu⟩
        · obtain ⟨h0, h4⟩ := number_of_regAt_gpfsel1 hb hr
          exact ⟨ha, .inr ⟨h0, h4, hmu⟩⟩
      · rcases s.writeEffect_pl_of_block v (huart hne) with hpl | ⟨rfl, hpl⟩
        · exact .inl hpl
        · obtain ⟨h0, h4⟩ := number_of_regAt_gpfsel1 hb hr
          exact .inr ⟨h0, h4, hpl⟩

end Sys2Proof.Machine
end

section
/-! The bit utilities (42_bit_utilities.md R250 to R257; 60_exceptions.md R503, R505). -/

namespace Sys2Proof.Machine

/-! ### The bits of each result -/

section
variable (v : Word) (n : Nat) {k : Nat} (hk : k < 32)
include hk

theorem setBit_bit : (setBit v n).getLsbD k = (v.getLsbD k || decide (k = n)) := by
  rw [setBit, BitVec.getLsbD_or, one_shift_bit hk]

theorem clearBit_bit : (clearBit v n).getLsbD k = (v.getLsbD k && !decide (k = n)) := by
  rw [clearBit, BitVec.getLsbD_and, BitVec.getLsbD_not, one_shift_bit hk, decide_eq_true hk, Bool.true_and]

theorem toggleBit_bit : (toggleBit v n).getLsbD k = (v.getLsbD k ^^ decide (k = n)) := by
  rw [toggleBit, BitVec.getLsbD_xor, one_shift_bit hk]

end

section
variable (v : Word) (n : Nat)

/-- Clearing a bit forgets that it was set (R255). -/
theorem clearBit_setBit : clearBit (setBit v n) n = clearBit v n := by
  refine BitVec.eq_of_getLsbD_eq fun k hk => ?_
  rw [clearBit_bit _ n hk, clearBit_bit v n hk, setBit_bit v n hk]
  by_cases hkn : k = n <;> simp [hkn]

/-- Toggling the same bit twice is no change (R256). -/
theorem toggleBit_toggleBit : toggleBit (toggleBit v n) n = v := by
  rw [toggleBit, toggleBit, BitVec.xor_assoc, BitVec.xor_self, BitVec.xor_zero]

theorem readBit_eq_zero_iff : readBit v n = 0 ↔ v.getLsbD n = false := by
  rw [readBit_eq]
  cases v.getLsbD n <;> simp

/-- Toggling is setting a clear bit or clearing a set one (R257). -/
theorem toggleBit_eq : toggleBit v n = if readBit v n = 0 then setBit v n else clearBit v n := by
  refine BitVec.eq_of_getLsbD_eq fun k hk => ?_
  rw [toggleBit_bit v n hk]
  simp only [readBit_eq_zero_iff]
  split_ifs with hb
  · rw [setBit_bit v n hk]
    by_cases hkn : k = n <;> simp [hkn, hb]
  · rw [clearBit_bit v n hk]
    by_cases hkn : k = n <;> simp [hkn, hb]

end

/-! ### The common form of the five words -/

section
variable {f : Word → Nat → Word} {xd xs : RegIdx} {n : Imm12} {s : State}

theorem bitOp_ok {v : Word} (hx : s.reg xs = some v) (hn : n.toNat < 32) :
    bitOp f xd xs n s = .next (s.setReg xd (f v n.toNat)).finish := by
  rw [bitOp, withReg_some hx, withBitIndex_in hn]

theorem bitOp_shiftRange {v : Word} (hx : s.reg xs = some v) (hn : 32 ≤ n.toNat) :
    bitOp f xd xs n s = .next (s.raise (.shiftRange n.toNat)) := by
  rw [bitOp, withReg_some hx, withBitIndex_out hn]

theorem bitOp_unwritten (hx : s.reg xs = none) : bitOp f xd xs n s = .next (s.raise (.unwritten xs)) := by
  rw [bitOp, withReg_none hx]

/-- An index of 32 or more faults, whether or not the source is written. -/
theorem bitOp_out {t : State} (hn : 32 ≤ n.toNat) (h : bitOp f xd xs n s = .next t) : ∃ c, t = s.raise c := by
  cases hx : s.reg xs with
  | none => rw [bitOp_unwritten hx, Host.Outcome.next.injEq] at h; exact ⟨_, h.symm⟩
  | some v => rw [bitOp_shiftRange hx hn, Host.Outcome.next.injEq] at h; exact ⟨_, h.symm⟩

/-- Each of the five words is the common form of a pure function of its own. -/
theorem exec_bitUtility {i : Instr} (h : i = .setBit xd xs n ∨ i = .clearBit xd xs n ∨ i = .toggleBit xd xs n ∨
    i = .isBitSet xd xs n ∨ i = .readBit xd xs n) : ∃ f, exec i s = bitOp f xd xs n s := by
  rcases h with rfl | rfl | rfl | rfl | rfl
  exacts [⟨setBit, rfl⟩, ⟨clearBit, rfl⟩, ⟨toggleBit, rfl⟩, ⟨isBitSet, rfl⟩, ⟨readBit, rfl⟩]

end

/-- Settles O21: the laws from the bits of each result, and the range fault from the words' common form. -/
theorem bitUtilityLaws : Obligations.BitUtilityLaws := by
  refine ⟨fun v n hn => ?_, fun s t i d p n hn hi h => ?_⟩
  · have hlt : n < 32 := Nat.lt_succ_of_le hn
    have hset : (setBit v n).getLsbD n = true := by simp [setBit_bit v n hlt]
    have hclear : (clearBit v n).getLsbD n = false := by simp [clearBit_bit v n hlt]
    refine ⟨clearBit_setBit v n, ?_, toggleBit_toggleBit v n, fun k hk hkn => ⟨?_, ?_⟩, ?_, ?_,
      toggleBit_eq v n⟩
    · rw [isBitSet_eq _ hlt, if_pos hset]
    · simp [setBit_bit v n hk, hkn]
    · simp [clearBit_bit v n hk, hkn]
    · rw [readBit_eq, if_pos hset]
    · exact (readBit_eq_zero_iff _ n).2 hclear
  · obtain ⟨f, hf⟩ := exec_bitUtility hi
    obtain ⟨c, rfl⟩ := bitOp_out hn (hf ▸ h)
    exact ⟨⟨c, s.opc, s.raise_status c⟩, s.reg_raise c⟩

/-- Settles O20: the three outcomes of the words' common form, for the function of each word. -/
theorem bitUtilityResults : Obligations.BitUtilityResults := by
  intro s xd xs n
  refine ⟨fun v hx hn => ?_, fun v hx hn => ?_, fun hx => ?_⟩
  · have hlt : n.toNat < 32 := Nat.lt_succ_of_le hn
    have hres (f : Word → Nat → Word) := bitOp_ok (f := f) (xd := xd) hx hlt
    refine ⟨hres setBit, hres clearBit, hres toggleBit, ?_, ?_⟩
    · rw [← isBitSet_eq v hlt]; exact hres isBitSet
    · rw [← readBit_eq]; exact hres readBit
  · have hfault (f : Word → Nat → Word) := bitOp_shiftRange (f := f) (xd := xd) hx hn
    exact ⟨hfault setBit, hfault clearBit, hfault toggleBit, hfault isBitSet, hfault readBit⟩
  · have hfault (f : Word → Nat → Word) := bitOp_unwritten (f := f) (xd := xd) (n := n) hx
    exact ⟨hfault setBit, hfault clearBit, hfault toggleBit, hfault isBitSet, hfault readBit⟩

end Sys2Proof.Machine
end

section
/-! The driver's layer (43_uart_common.md R270 to R272): the selected UART after each update of the state, the driver's
primitives by what the FIFOs hold, and the micro-step each operation in progress takes next. -/

namespace Sys2Proof.Machine

/-! ### The selected UART after each update -/

section
variable (s : State)

@[simp] theorem State.pause_uart (i : Instr) (m : Micro) :
    (s.pause i m).txFifo = s.txFifo ∧ (s.pause i m).rxFifo = s.rxFifo ∧ (s.pause i m).txDepth = s.txDepth ∧
      (s.pause i m).uartReachable = s.uartReachable ∧ (s.pause i m).txPathIdle = s.txPathIdle :=
  ⟨rfl, rfl, rfl, rfl, rfl⟩

@[simp] theorem State.finish_uart : s.finish.txFifo = s.txFifo ∧ s.finish.rxFifo = s.rxFifo ∧
    s.finish.uartReachable = s.uartReachable ∧ s.finish.txPathIdle = s.txPathIdle :=
  ⟨rfl, rfl, rfl, rfl⟩

@[simp] theorem State.setReg_uart (r : RegIdx) (v : Word) :
    (s.setReg r v).txFifo = s.txFifo ∧ (s.setReg r v).rxFifo = s.rxFifo :=
  ⟨rfl, rfl⟩

@[simp] theorem State.setRam_uart (a : Nat) (b : Byte) :
    (s.setRam a b).txFifo = s.txFifo ∧ (s.setRam a b).rxFifo = s.rxFifo ∧ (s.setRam a b).txDepth = s.txDepth ∧
      (s.setRam a b).uartReachable = s.uartReachable :=
  ⟨rfl, rfl, rfl, rfl⟩

end

/-! ### The primitives, by what the FIFOs hold -/

section
variable {s : State} (hr : s.uartReachable = true)
include hr

theorem txReady_room (h : s.txFifo.length < s.txDepth) (k : Bool → State → Res) :
    txReady s k = k true s.statusRead := by
  rw [txReady_eq hr, s.canPut_of_room h]

theorem txReady_full (h : s.txFifo.length = s.txDepth) (k : Bool → State → Res) :
    txReady s k = k false s.statusRead := by
  rw [txReady_eq hr, s.canPut_of_full h]

theorem rxReady_byte {b : Byte} {rest : List Byte} (h : s.rxFifo = b :: rest) (k : Bool → State → Res) :
    rxReady s k = k true s.statusRead := by
  rw [rxReady_eq hr, h]; rfl

theorem rxReady_empty (h : s.rxFifo = []) (k : Bool → State → Res) : rxReady s k = k false s.statusRead := by
  rw [rxReady_eq hr, h]; rfl

theorem txPut_room (h : s.txFifo.length < s.txDepth) (b : Byte) (k : State → Res) :
    txPut b s k = k (s.dataWrite b) :=
  txPut_eq (s.txHasRoom_iff.2 ⟨hr, h⟩) b k

end

/-! ### Bytes queued -/

/-- From `s` to `t` the bytes `bs` are queued on the selected UART, and nothing that an operation's caller sees but the
operation pointer changes. -/
structure State.queued (s t : State) (bs : List Byte) : Prop where
  txFifo : t.txFifo = s.txFifo ++ bs
  rxFifo : t.rxFifo = s.rxFifo
  txDepth : t.txDepth = s.txDepth
  uartReachable : t.uartReachable = s.uartReachable
  status : t.status = s.status
  reg : ∀ r, t.reg r = s.reg r
  ram : SameRam s t

theorem State.queued_trans {s t u : State} {bs cs : List Byte} (h : s.queued t bs) (h' : t.queued u cs) :
    s.queued u (bs ++ cs) where
  txFifo := by rw [h'.txFifo, h.txFifo, List.append_assoc]
  rxFifo := h'.rxFifo.trans h.rxFifo
  txDepth := h'.txDepth.trans h.txDepth
  uartReachable := h'.uartReachable.trans h.uartReachable
  status := h'.status.trans h.status
  reg r := (h'.reg r).trans (h.reg r)
  ram a := (h'.ram a).trans (h.ram a)

/-- The room that is left. -/
theorem State.room_of_queued {s t : State} {bs : List Byte} (h : s.queued t bs) {m : Nat}
    (hroom : s.txFifo.length + (bs.length + m) ≤ s.txDepth) : t.txFifo.length + m ≤ t.txDepth := by
  rw [h.txFifo, h.txDepth, List.length_append]
  omega

/-- A pause and the end of an operation queue nothing. -/
theorem State.queued_pause {s t : State} {bs : List Byte} (h : s.queued t bs) (i : Instr) (m : Micro) :
    s.queued (t.pause i m) bs := ⟨h.1, h.2, h.3, h.4, h.5, h.6, h.7⟩

theorem State.queued_finish {s t : State} {bs : List Byte} (h : s.queued t bs) : s.queued t.finish bs :=
  ⟨h.1, h.2, h.3, h.4, h.5, h.6, h.7⟩

theorem State.queued_statusRead (s : State) : s.queued s.statusRead [] :=
  ⟨by simp, by simp, by simp, by simp, by simp, by simp, fun a => by simp⟩

theorem State.queued_dataWrite (s : State) (b : Byte) : s.queued (s.dataWrite b) [b] :=
  ⟨by simp, by simp, by simp, by simp, by simp, by simp, fun a => by simp⟩

/-- A status read and, from wherever the operation paused after it, a data write. -/
theorem State.queued_poll_put (s : State) (i : Instr) (m : Micro) (b : Byte) :
    s.queued ((s.statusRead.pause i m).dataWrite b) [b] :=
  State.queued_trans (State.queued_pause s.queued_statusRead i m) (State.queued_dataWrite _ b)

/-! ### The operation in progress -/

section
variable {s : State}

/-- An operation in progress takes the micro-step of its context. -/
theorem State.microOf_inProgress {i : Instr} {m : Micro} (h : s.op = some ⟨i, m⟩) : s.microOf i = m := s.microOf_op h

theorem exec_uartWriteByte_poll {x : RegIdx} {b : Byte} (h : s.op = some ⟨.uartWriteByte x, .txPoll b⟩) :
    exec (.uartWriteByte x) s = writeBytePoll (.uartWriteByte x) b s := by
  simp only [exec, execUartWriteByte, State.microOf_inProgress h]

theorem exec_uartWriteByte_put {x : RegIdx} {b : Byte} (h : s.op = some ⟨.uartWriteByte x, .txPut b⟩) :
    exec (.uartWriteByte x) s = txPut b s fun t => .next t.finish := by
  simp only [exec, execUartWriteByte, State.microOf_inProgress h]

theorem exec_uartReadByte_get {p q : RegIdx} (h : s.op = some ⟨.uartReadByte p q, .rxGet⟩) :
    exec (.uartReadByte p q) s = rxGet s fun c t => .next ((t.setReg p (c.setWidth 32)).setReg q 1).finish := by
  simp only [exec, execUartReadByte, State.microOf_inProgress h]

theorem exec_uartFlush_poll (h : s.op = some ⟨.uartFlush, .idlePoll⟩) : exec .uartFlush s = flushPoll s := by
  simp only [exec, execUartFlush, State.microOf_inProgress h]

end

end Sys2Proof.Machine
end

section
/-! `UART_WRITE_BYTE` (43_uart_common.md R274). -/

namespace Sys2Proof.Machine

section
variable {s : State} {x : RegIdx} {b : Byte} (hr : s.uartReachable = true)
include hr

/-- With room, the write completes the operation. -/
theorem writeByte_put (hroom : s.txFifo.length < s.txDepth) (hop : s.op = some ⟨.uartWriteByte x, .txPut b⟩) :
    exec (.uartWriteByte x) s = .next (s.dataWrite b).finish := by
  rw [exec_uartWriteByte_put hop, txPut_room hr hroom]

/-- A status read that shows room is followed by the write. -/
theorem writeByte_poll_room (hroom : s.txFifo.length < s.txDepth) :
    writeBytePoll (.uartWriteByte x) b s = .next (s.statusRead.pause (.uartWriteByte x) (.txPut b)) ∧
      exec (.uartWriteByte x) (s.statusRead.pause (.uartWriteByte x) (.txPut b)) =
        .next ((s.statusRead.pause (.uartWriteByte x) (.txPut b)).dataWrite b).finish :=
  ⟨txReady_room hr hroom _, writeByte_put (by simpa using hr) (by simpa using hroom) rfl⟩

/-- A status read that shows no room leaves the operation at its spin. -/
theorem writeByte_poll_full (hfull : s.txFifo.length = s.txDepth) :
    writeBytePoll (.uartWriteByte x) b s = .next (s.statusRead.pause (.uartWriteByte x) (.txPoll b)) :=
  txReady_full hr hfull _

end

/-- Settles O45: the status read with and without room, from the start and from the spin, and the write. -/
theorem writeByteResults : Obligations.WriteByteResults := by
  intro s x hr
  refine ⟨fun v hop hd hx => ?_, fun b hop hroom => ?_, fun b hop hroom => ?_⟩
  · have hstart := exec_uartWriteByte_start hd hop hx
    rw [BitVec.setWidth_eq_extractLsb' (by decide)] at hstart
    refine ⟨fun hroom => ?_, fun hfull => ?_⟩
    · obtain ⟨hpoll, hput⟩ := writeByte_poll_room (x := x) (b := v.extractLsb' 0 8) hr hroom
      have hq := s.queued_poll_put (.uartWriteByte x) (.txPut (v.extractLsb' 0 8)) (v.extractLsb' 0 8)
      exact ⟨_, _, hstart.trans hpoll, by simp, hput, hq.txFifo, by simp, rfl, hq.status, hq.reg, hq.ram⟩
    · have hspin := exec_uartWriteByte_poll
        (s := s.statusRead.pause (.uartWriteByte x) (.txPoll (v.extractLsb' 0 8))) rfl
      rw [writeByte_poll_full (by simpa using hr) (by simpa using hfull)] at hspin
      exact ⟨_, _, hstart.trans (writeByte_poll_full hr hfull), rfl, hspin, rfl, by simp, by simp, by simp⟩
  · obtain ⟨hpoll, hput⟩ := writeByte_poll_room (x := x) (b := b) hr hroom
    have hq := s.queued_poll_put (.uartWriteByte x) (.txPut b) b
    exact ⟨_, _, (exec_uartWriteByte_poll hop).trans hpoll, rfl, by simp, hput, hq.txFifo, by simp, rfl, hq.status⟩
  · have hq := s.queued_dataWrite b
    exact ⟨_, writeByte_put hr hroom hop, hq.txFifo, by simp, rfl, hq.status, hq.reg, hq.ram⟩

end Sys2Proof.Machine
end

section
/-! `UART_READ_BYTE`, `UART_IS_DATA_READY`, `UART_FLUSH` (43_uart_common.md R276, R277, R284). -/

namespace Sys2Proof.Machine

/-- With a byte received, the data read takes it and completes `UART_READ_BYTE`. -/
theorem readByte_get {s : State} {p q : RegIdx} {b : Byte} {rest : List Byte} (hr : s.uartReachable = true)
    (hop : s.op = some ⟨.uartReadByte p q, .rxGet⟩) (hrx : s.rxFifo = b :: rest) :
    ∃ t, exec (.uartReadByte p q) s = .next t ∧ t.rxFifo = rest ∧ t.reg q = some 1 ∧
      (p ≠ q → t.reg p = some (BitVec.ofNat 32 b.toNat)) ∧ SameRegsBut [p, q] s t ∧ t.opc = s.opc + 1 ∧ t.op = none ∧
      t.status = s.status ∧ SameRam s t := by
  rw [exec_uartReadByte_get hop, rxGet_eq hr hrx]
  refine ⟨_, rfl, by simp [hrx], by simp, fun hpq => ?_, fun r hmem => ?_, by simp, rfl, by simp, fun a => by simp⟩
  · rw [State.reg_finish, State.reg_setReg_other _ hpq, State.reg_setReg_same, BitVec.ofNat_toNat]
  · simp only [List.mem_cons, List.not_mem_nil, or_false, not_or] at hmem
    rw [State.reg_finish, State.reg_setReg_other _ hmem.2, State.reg_setReg_other _ hmem.1, State.dataRead_reg]

/-- Settles O47: the status read with and without a byte, and the data read. -/
theorem readByteResults : Obligations.ReadByteResults := by
  refine ⟨fun s p q hop hd hr => ⟨fun b rest hrx => ?_, fun hrx => ?_⟩,
    fun s p q b rest hop hr hrx => readByte_get hr hop hrx⟩
  · rw [exec_uartReadByte_start hd hop, rxReady_byte hr hrx]
    obtain ⟨t, hexec, hrxt, hq, hp, hregs, hopc, ht, hst, hram⟩ :=
      readByte_get (s := s.statusRead.pause (.uartReadByte p q) .rxGet) (by simpa using hr) rfl
        (by simpa using hrx)
    exact ⟨_, t, rfl, by simp, by simp, hexec, hrxt, hq, hp, fun r hmem => by simpa using hregs r hmem,
      by simpa using hopc, ht, by simpa using hst, fun a => by simpa using hram a⟩
  · rw [exec_uartReadByte_start hd hop, rxReady_empty hr hrx]
    refine ⟨_, rfl, ?_, by simp, by simp [hrx], fun r hmem => ?_, by simp, rfl, by simp, fun a => by simp⟩
    · by_cases hpq : p = q
      · simp [hpq]
      · simp [State.reg_setReg_other _ hpq]
    · simp only [List.mem_cons, List.not_mem_nil, or_false, not_or] at hmem
      simp [State.reg_setReg_other _ hmem.1, State.reg_setReg_other _ hmem.2]

/-- Settles O48: the status read shows whether a byte has been received. -/
theorem dataReadyResult : Obligations.DataReadyResult := by
  intro s x hd hr
  have hexec : exec (.uartIsDataReady x) s =
      .next (s.statusRead.setReg x (if !s.rxFifo.isEmpty then 1 else 0)).finish := by
    simp only [exec, execUartIsDataReady, withReady_ready hd, rxReady_eq hr]
  refine ⟨_, hexec, ?_, by simp, fun r hmem => ?_, by simp, rfl, by simp, fun a => by simp⟩
  · cases hrx : s.rxFifo <;> simp
  · simp [State.reg_setReg_other _ (List.ne_of_not_mem_cons hmem)]

/-- Settles O49: the operation's first status read and each of its spin are the same poll. -/
theorem flushResults : Obligations.FlushResults := by
  intro s hop hr
  have hpoll : exec .uartFlush s = flushPoll s := by
    rcases hop with ⟨hop, hd⟩ | hop
    · exact exec_uartFlush_start hd hop
    · exact exec_uartFlush_poll hop
  rw [hpoll, flushPoll, txIdle_eq hr]
  cases hidle : s.txPathIdle
  · refine ⟨_, rfl, ?_⟩
    simp [hr, hidle, SameRam]
  · refine ⟨_, rfl, ?_⟩
    simp [hr, hidle, SameRam]

end Sys2Proof.Machine
end

section
/-! `UART_WRITE_STRING` (43_uart_common.md R275; 60_exceptions.md R504). -/

namespace Sys2Proof.Machine

section
variable {s : State} {xa xn : RegIdx} {a n k : Nat} {b : Byte}

/-! ### The operation in progress -/

theorem exec_uartWriteString_byte (h : s.op = some ⟨.uartWriteString xa xn, .strByte a n k⟩) :
    exec (.uartWriteString xa xn) s = stringPoll (.uartWriteString xa xn) a n k (s.ramByte (a + k)) s := by
  simp only [exec, execUartWriteString, State.microOf_inProgress h, stringByte]

theorem exec_uartWriteString_poll (h : s.op = some ⟨.uartWriteString xa xn, .strPoll a n k b⟩) :
    exec (.uartWriteString xa xn) s = stringPoll (.uartWriteString xa xn) a n k b s := by
  simp only [exec, execUartWriteString, State.microOf_inProgress h]

theorem exec_uartWriteString_put (h : s.op = some ⟨.uartWriteString xa xn, .strPut a n k b⟩) :
    exec (.uartWriteString xa xn) s = txPut b s fun t => .next (stringAfter (.uartWriteString xa xn) a n k t) := by
  simp only [exec, execUartWriteString, State.microOf_inProgress h]

/-! ### After a byte -/

/-- Going on to the next byte, or ending, queues nothing. -/
theorem State.queued_stringAfter {t : State} {bs : List Byte} (h : s.queued t bs) (i : Instr) (a n k : Nat) :
    s.queued (stringAfter i a n k t) bs := by
  unfold stringAfter
  split_ifs
  · exact State.queued_pause h _ _
  · exact State.queued_finish h

theorem stringAfter_more {i : Instr} (h : k + 1 < n) : stringAfter i a n k s = s.pause i (.strByte a n (k + 1)) :=
  if_pos h

theorem stringAfter_last {i : Instr} (h : n ≤ k + 1) : stringAfter i a n k s = s.finish := if_neg (Nat.not_lt.2 h)

/-! ### The accesses of a byte -/

section
variable (hr : s.uartReachable = true)
include hr

theorem stringPoll_room (hroom : s.txFifo.length < s.txDepth) (i : Instr) :
    stringPoll i a n k b s = .next (s.statusRead.pause i (.strPut a n k b)) := txReady_room hr hroom _

theorem stringPoll_full (hfull : s.txFifo.length = s.txDepth) (i : Instr) :
    stringPoll i a n k b s = .next (s.statusRead.pause i (.strPoll a n k b)) := txReady_full hr hfull _

/-- With room, the write is followed by the next byte or the end. -/
theorem writeString_put (hroom : s.txFifo.length < s.txDepth)
    (hop : s.op = some ⟨.uartWriteString xa xn, .strPut a n k b⟩) : exec (.uartWriteString xa xn) s =
      .next (stringAfter (.uartWriteString xa xn) a n k (s.dataWrite b)) := by
  rw [exec_uartWriteString_put hop, txPut_room hr hroom]

/-- The write after a status read that showed room. -/
theorem writeString_poll_put (hroom : s.txFifo.length < s.txDepth) :
    exec (.uartWriteString xa xn) (s.statusRead.pause (.uartWriteString xa xn) (.strPut a n k b)) =
      .next (stringAfter (.uartWriteString xa xn) a n k
        ((s.statusRead.pause (.uartWriteString xa xn) (.strPut a n k b)).dataWrite b)) :=
  writeString_put (by simpa using hr) (by simpa using hroom) rfl

end

/-- From the status read of byte `k`, with room for it and the `m` bytes after it, which are the last ones, two accesses a
byte queue them all and complete the operation. -/
theorem writeString_run {m : Nat} (hk : k + m + 1 = n) (hr : s.uartReachable = true)
    (hroom : s.txFifo.length + (m + 1) ≤ s.txDepth)
    (hpoll : exec (.uartWriteString xa xn) s =
      stringPoll (.uartWriteString xa xn) a n k (s.ramByte (a + k)) s) :
    ∃ t, execTimes (2 * (m + 1)) (.uartWriteString xa xn) s = .next t ∧
      s.queued t ((List.range' k (m + 1)).map fun j => s.ramByte (a + j)) ∧ t.opc = s.opc + 1 ∧ t.op = none := by
  induction m generalizing s k with
  | zero =>
    rw [stringPoll_room hr (by omega)] at hpoll
    have hput := writeString_poll_put (xa := xa) (xn := xn) (a := a) (n := n) (k := k) (b := s.ramByte (a + k)) hr
      (by omega)
    rw [stringAfter_last (by omega)] at hput
    refine ⟨_, (execTimes_succ hpoll).trans (execTimes_one hput), State.queued_finish (State.queued_poll_put ..), ?_, rfl⟩
    simp
  | succ m ih =>
    rw [stringPoll_room hr (by omega)] at hpoll
    have hput := writeString_poll_put (xa := xa) (xn := xn) (a := a) (n := n) (k := k) (b := s.ramByte (a + k)) hr
      (by omega)
    rw [stringAfter_more (by omega)] at hput
    have hq := State.queued_pause
      (s.queued_poll_put (.uartWriteString xa xn) (.strPut a n k (s.ramByte (a + k))) (s.ramByte (a + k)))
      (.uartWriteString xa xn) (.strByte a n (k + 1))
    obtain ⟨t, hrun, hqt, hopc, hop⟩ := ih (k := k + 1) (by omega) (hq.uartReachable.trans hr)
      (State.room_of_queued hq (by rw [List.length_singleton]; omega)) (exec_uartWriteString_byte rfl)
    simp only [hq.ram _] at hqt
    exact ⟨t, (execTimes_succ hpoll).trans ((execTimes_succ hput).trans hrun), State.queued_trans hq hqt,
      by simpa using hopc, hop⟩

end

/-- Settles O46: the start, the whole string by `writeString_run`, and the accesses of one byte. -/
theorem writeStringResults : Obligations.WriteStringResults := by
  refine ⟨fun s xa xn a n hop hd ha hn => ?_, fun s xa xn a n k hr => ⟨fun hop => ?_, fun b hop => ⟨fun hfull => ?_,
    fun hroom => ?_⟩, fun b hop hroom => ?_⟩⟩
  · rw [exec_uartWriteString_start hd hop ha hn]
    refine ⟨fun hram => withRam_out hram _, fun hram h0 => ?_, fun hram h0 hr hroom => ?_⟩
    · rw [withRam_in hram, if_pos (by simp [h0])]
    · have hpos : n.toNat ≠ 0 := fun h => h0 (BitVec.eq_of_toNat_eq h)
      obtain ⟨m, hm⟩ := Nat.exists_eq_succ_of_ne_zero hpos
      obtain ⟨t, hrun, hq, hopc, hopt⟩ := writeString_run (s := s) (xa := xa) (xn := xn) (a := a.toNat) (n := n.toNat)
        (k := 0) (m := m) (by omega) hr (by omega)
        (by rw [exec_uartWriteString_start hd hop ha hn, withRam_in hram, if_neg hpos]; rfl)
      rw [← List.range_eq_range', ← Nat.succ_eq_add_one, ← hm] at hq
      rw [← Nat.succ_eq_add_one, ← hm] at hrun
      exact ⟨t, hrun, hq.txFifo, hopc, hopt, hq.status, hq.reg, hq.ram⟩
  · rw [exec_uartWriteString_byte hop, stringPoll, txReady_eq hr]
    refine ⟨_, rfl, by simp, by simp, by simp, fun hfull => ?_, fun hroom => ?_⟩
    · rw [s.canPut_of_full hfull]; rfl
    · rw [s.canPut_of_room hroom]; rfl
  · rw [exec_uartWriteString_poll hop, stringPoll_full hr hfull]
    exact ⟨_, rfl, hop.symm, by simp, by simp, by simp⟩
  · have hq := State.queued_stringAfter (s.queued_poll_put (.uartWriteString xa xn) (.strPut a n k b) b)
      (.uartWriteString xa xn) a n k
    refine ⟨_, _, (exec_uartWriteString_poll hop).trans (stringPoll_room hr hroom _), rfl, by simp,
      writeString_poll_put hr hroom, hq.txFifo, hq.status, fun hmore => ?_, fun hlast => ?_⟩
    · simp [stringAfter_more hmore]
    · simp [stringAfter_last hlast]
  · have hq := State.queued_stringAfter (s.queued_dataWrite b) (.uartWriteString xa xn) a n k
    refine ⟨_, writeString_put hr hroom hop, hq.txFifo, hq.status, hq.reg, hq.ram, fun hmore => ?_, fun hlast => ?_⟩
    · simp [stringAfter_more hmore]
    · simp [stringAfter_last hlast]

end Sys2Proof.Machine
end

section
/-! `UART_READ_LINE` (43_uart_common.md R278; 60_exceptions.md R504, R508, R513). -/

namespace Sys2Proof.Machine

section
variable {s : State} {i : Instr} {xd xa xc : RegIdx} {a cap pos : Nat}

/-- A line in progress takes the step of its phase. -/
theorem exec_uartReadLine_line {ph : LinePhase}
    (h : s.op = some ⟨.uartReadLine xd xa xc, .line a cap pos ph⟩) :
    exec (.uartReadLine xd xa xc) s = lineStep (.uartReadLine xd xa xc) xd a cap pos ph s := by
  simp only [exec, execUartReadLine, State.microOf_inProgress h]

/-! ### The end of a line -/

/-- What the end of a line leaves. -/
@[simp] theorem lineDone_keeps : (lineDone xd a pos s).txFifo = s.txFifo ∧ (lineDone xd a pos s).rxFifo = s.rxFifo ∧
    (lineDone xd a pos s).ev = s.ev ∧ (lineDone xd a pos s).status = s.status ∧
    (lineDone xd a pos s).opc = s.opc + 1 ∧ (lineDone xd a pos s).op = none :=
  ⟨rfl, rfl, rfl, rfl, rfl, rfl⟩

@[simp] theorem lineDone_result : (lineDone xd a pos s).reg xd = some (BitVec.ofNat 32 pos) := by simp [lineDone]

theorem lineDone_regs : SameRegsBut [xd] s (lineDone xd a pos s) := fun r hr => by
  simp [lineDone, State.reg_setReg_other _ (List.ne_of_not_mem_cons hr)]

theorem lineDone_terminator (hwf : Memory.wf s.ram = true) : (lineDone xd a pos s).ramByte (a + pos) = 0 := by
  simp [lineDone, State.ramByte_setRam_same hwf]

theorem lineDone_ramByte {x : Nat} (hx : x ≠ a + pos) : (lineDone xd a pos s).ramByte x = s.ramByte x := by
  simp [lineDone, State.ramByte_setRam_other _ hx]

/-- One store leaves the rest of the RAM. -/
theorem State.sameRamOutside_setRam (s : State) (x : Nat) (b : Byte) : SameRamOutside x 1 s (s.setRam x b) :=
  fun _ hy => State.ramByte_setRam_other _ (by omega) _

theorem lineDone_sameRamOutside : SameRamOutside (a + pos) 1 s (lineDone xd a pos s) :=
  fun _ hx => lineDone_ramByte (by omega)

theorem lineTop_full (h : pos + 1 = cap) : lineTop i xd a cap pos s = lineDone xd a pos s := if_pos h

theorem lineTop_more (h : pos + 1 ≠ cap) : lineTop i xd a cap pos s = s.pause i (.line a cap pos .rxPoll) := if_neg h

/-! ### A byte taken -/

theorem lineTake_end {c : Byte} (h : c = 0x0D ∨ c = 0x0A) : lineTake i xd a cap pos c s = lineDone xd a pos s := by
  have hend : isLineEnd c = true := by simpa [isLineEnd] using h
  rw [lineTake, if_pos hend]

theorem lineTake_erase {c : Byte} (h : c = 0x08 ∨ c = 0x7F) (hpos : pos + 2 ≤ cap) :
    lineTake i xd a cap pos c s = s.pause i
      (if pos = 0 then .line a cap 0 .rxPoll else .line a cap (pos - 1) (.echo [0x08, 0x20, 0x08])) := by
  have hend : ¬isLineEnd c = true := by rcases h with rfl | rfl <;> decide
  have herase : isErase c = true := by simpa [isErase] using h
  rw [lineTake, if_neg hend, if_pos herase]
  split_ifs with h0
  · rw [lineTop_more (by omega), h0]
  · rfl

theorem lineTake_data {c : Byte} (hcr : c ≠ 0x0D) (hlf : c ≠ 0x0A) (hbs : c ≠ 0x08) (hdel : c ≠ 0x7F) :
    lineTake i xd a cap pos c s = s.pause i (.line a cap pos (.store c)) := by
  have hend : ¬isLineEnd c = true := by simpa [isLineEnd] using And.intro hcr hlf
  have herase : ¬isErase c = true := by simpa [isErase] using And.intro hbs hdel
  rw [lineTake, if_neg hend, if_neg herase]

/-! ### The accesses -/

section
variable (hr : s.uartReachable = true)
include hr

/-- The status read that awaits a byte. -/
theorem lineRxPoll_eq (i : Instr) (a cap pos : Nat) : lineRxPoll i a cap pos s =
    .next (s.statusRead.pause i (.line a cap pos (if s.rxFifo = [] then .rxPoll else .rxGet))) := by
  rw [lineRxPoll, rxReady_eq hr]
  cases s.rxFifo <;> rfl

/-- The read of the byte the status showed. -/
theorem readLine_get {c : Byte} {rest : List Byte} (hop : s.op = some ⟨.uartReadLine xd xa xc, .line a cap pos .rxGet⟩)
    (hrx : s.rxFifo = c :: rest) : exec (.uartReadLine xd xa xc) s =
      .next (lineTake (.uartReadLine xd xa xc) xd a cap pos c s.dataRead) := by
  rw [exec_uartReadLine_line hop, lineStep, rxGet_eq hr hrx]

theorem lineEcho_room (hroom : s.txFifo.length < s.txDepth) (i : Instr) (a cap pos : Nat) (q : List Byte) :
    lineEcho i a cap pos q s = .next (s.statusRead.pause i (.line a cap pos (.put q))) := txReady_room hr hroom _

/-- With room, the status read before an echo is followed by its first write. -/
theorem readLine_echo {q : List Byte} (hroom : s.txFifo.length < s.txDepth)
    (hop : s.op = some ⟨.uartReadLine xd xa xc, .line a cap pos (.echo q)⟩) : exec (.uartReadLine xd xa xc) s =
      .next (s.statusRead.pause (.uartReadLine xd xa xc) (.line a cap pos (.put q))) := by
  rw [exec_uartReadLine_line hop, lineStep, lineEcho_room hr hroom]

/-- With room, the write of the last echo byte is followed by the top of the loop. -/
theorem readLine_put_last {b : Byte} (hroom : s.txFifo.length < s.txDepth)
    (hop : s.op = some ⟨.uartReadLine xd xa xc, .line a cap pos (.put [b])⟩) : exec (.uartReadLine xd xa xc) s =
      .next (lineTop (.uartReadLine xd xa xc) xd a cap pos (s.dataWrite b)) := by
  rw [exec_uartReadLine_line hop, lineStep, linePut, txPut_room hr hroom]

/-- With room, the write of an echo byte before the last is followed by the status read for the next. -/
theorem readLine_put_more {b c : Byte} {q : List Byte} (hroom : s.txFifo.length < s.txDepth)
    (hop : s.op = some ⟨.uartReadLine xd xa xc, .line a cap pos (.put (b :: c :: q))⟩) :
    exec (.uartReadLine xd xa xc) s =
      .next ((s.dataWrite b).pause (.uartReadLine xd xa xc) (.line a cap pos (.echo (c :: q)))) := by
  rw [exec_uartReadLine_line hop, lineStep, linePut, txPut_room hr hroom]

end

/-- With room for all of them, echo bytes are written in two accesses each, and the loop begins again. -/
theorem readLine_echo_run {c : Byte} {q : List Byte} (hr : s.uartReachable = true)
    (hroom : s.txFifo.length + (q.length + 1) ≤ s.txDepth)
    (hop : s.op = some ⟨.uartReadLine xd xa xc, .line a cap pos (.echo (c :: q))⟩) :
    ∃ t, execTimes (2 * (q.length + 1)) (.uartReadLine xd xa xc) s =
        .next (lineTop (.uartReadLine xd xa xc) xd a cap pos t) ∧
      s.queued t (c :: q) ∧ t.opc = s.opc := by
  induction q generalizing s c with
  | nil =>
    have hput := readLine_put_last (s := s.statusRead.pause (.uartReadLine xd xa xc) (.line a cap pos (.put [c])))
      (by simpa using hr) (by simpa using hroom) rfl
    exact ⟨_, (execTimes_succ (readLine_echo hr hroom hop)).trans (execTimes_one hput), State.queued_poll_put .., by simp⟩
  | cons d q ih =>
    rw [List.length_cons] at hroom
    have hput := readLine_put_more
      (s := s.statusRead.pause (.uartReadLine xd xa xc) (.line a cap pos (.put (c :: d :: q))))
      (by simpa using hr) (by simpa using (by omega : s.txFifo.length < s.txDepth)) rfl
    have hq := State.queued_pause (s.queued_poll_put (.uartReadLine xd xa xc) (.line a cap pos (.put (c :: d :: q))) c)
      (.uartReadLine xd xa xc) (.line a cap pos (.echo (d :: q)))
    obtain ⟨t, hrun, hqt, hopc⟩ := ih (hq.uartReachable.trans hr)
      (State.room_of_queued hq (by rw [List.length_singleton]; omega)) rfl
    exact ⟨t, (execTimes_succ (readLine_echo hr (by omega) hop)).trans ((execTimes_succ hput).trans hrun),
      State.queued_trans hq hqt, by simpa using hopc⟩

end

/-- Settles O50: the checks of the start, in their order, and the two ways past them. -/
theorem readLineStarts : Obligations.ReadLineStarts := by
  intro s xd xa xc a cap hop hd ha hc
  rw [exec_uartReadLine_start hd hop xd ha hc]
  refine ⟨fun h0 => by rw [if_pos h0, raise], fun h0 hram => by rw [if_neg h0, withRam_out hram],
    fun h1 hram hwf => ?_, fun h2 hram hr => ?_⟩
  · have h1' : cap.toNat = 1 := by rw [h1]; rfl
    rw [if_neg (by rw [h1]; decide), h1', withRam_in hram, if_pos rfl]
    exact ⟨_, rfl, lineDone_terminator hwf, lineDone_sameRamOutside (pos := 0), lineDone_result, lineDone_regs, rfl, rfl, rfl, rfl⟩
  · have h0 : cap ≠ 0 := by rintro rfl; simp at h2
    rw [if_neg h0, withRam_in hram, if_neg (by omega), lineRxPoll_eq hr]
    exact ⟨_, rfl, by simp, by simp, fun x => by simp, rfl⟩

section
variable {s : State} {xd xa xc : RegIdx} {a cap pos : Nat}

/-- With room to echo it, a data byte about to be taken is stored and echoed in three accesses. -/
theorem readLine_data_run {c : Byte} {rest : List Byte} (hr : s.uartReachable = true) (hrx : s.rxFifo = c :: rest)
    (hroom : s.txFifo.length < s.txDepth)
    (hget : exec (.uartReadLine xd xa xc) s =
      .next (s.dataRead.pause (.uartReadLine xd xa xc) (.line a cap pos (.store c)))) :
    ∃ t, execTimes 3 (.uartReadLine xd xa xc) s = .next (lineTop (.uartReadLine xd xa xc) xd a cap (pos + 1) t) ∧
      t.txFifo = s.txFifo ++ [c] ∧ t.rxFifo = rest ∧ t.status = s.status ∧ t.opc = s.opc ∧
      t.ram = Memory.write s.ram (a + pos) c := by
  have hstore := exec_uartReadLine_line
    (s.dataRead.pause_op (.uartReadLine xd xa xc) (.line a cap pos (.store c)))
  rw [lineStep, lineEcho_room (by simpa using hr) (by simpa using hroom)] at hstore
  have hput := readLine_put_last (by simpa using hr) (by simpa using hroom) (State.pause_op
    ((s.dataRead.pause (.uartReadLine xd xa xc) (.line a cap pos (.store c))).setRam (a + pos) c).statusRead
    (.uartReadLine xd xa xc) (.line a cap (pos + 1) (.put [c])))
  exact ⟨_, (execTimes_succ hget).trans ((execTimes_succ hstore).trans (execTimes_one hput)), by simp, by simp [hrx],
    by simp, by simp, by simp⟩

/-- What the end of a line leaves of the RAM when its last data byte was stored before. -/
theorem lineDone_stored {t : State} {c : Byte} (hwf : Memory.wf s.ram = true)
    (hram : t.ram = Memory.write s.ram (a + pos) c) :
    (lineDone xd a (pos + 1) t).ramByte (a + pos) = c ∧ (lineDone xd a (pos + 1) t).ramByte (a + pos + 1) = 0 ∧
      SameRamOutside (a + pos) 2 s (lineDone xd a (pos + 1) t) := by
  have hbyte (x : Nat) : t.ramByte x = (s.setRam (a + pos) c).ramByte x := congrArg (Memory.read · x) hram
  refine ⟨?_, lineDone_terminator (by rw [hram]; exact Memory.wf_write _ _ _ hwf), fun x hx => ?_⟩
  · rw [lineDone_ramByte (by omega), hbyte, State.ramByte_setRam_same hwf]
  · rw [lineDone_ramByte (by omega), hbyte, State.ramByte_setRam_other _ (by omega)]

end

/-- Settles O51: the byte taken, by what it is; then each access by itself. -/
theorem readLineTakesBytes : Obligations.ReadLineTakesBytes := by
  refine ⟨fun s xd xa xc a cap pos c rest hop hr hrx hpos hcap hwf => ?_, fun s xd xa xc a cap pos hr =>
    ⟨fun hop => ?_, fun c hop hwf => ?_, fun q hop => ?_, fun b q hop hroom hwf => ?_, fun hop hpos hroom => ?_⟩⟩
  · have hget := readLine_get hr hop hrx
    have hwf' : Memory.wf s.dataRead.ram = true := by simpa using hwf
    refine ⟨fun hend => ?_, fun herase => ?_, fun hcr hlf hbs hdel => ?_, fun hcr hlf hbs hdel hroom => ?_⟩
    · rw [lineTake_end hend] at hget
      refine ⟨_, hget, by simp [hrx], lineDone_terminator hwf', fun x hx => ?_, lineDone_result, fun r h => ?_, by simp,
        by simp, rfl, by simp⟩
      · simpa using lineDone_sameRamOutside (xd := xd) (s := s.dataRead) x hx
      · simpa using lineDone_regs (a := a) (pos := pos) (s := s.dataRead) r h
    · rw [lineTake_erase herase hpos] at hget
      exact ⟨_, hget, by simp [hrx], fun x => by simp, by simp, rfl⟩
    · rw [lineTake_data hcr hlf hbs hdel] at hget
      exact ⟨_, hget, by simp [hrx], by simp, fun x => by simp, by simp, by simp, rfl⟩
    · rw [lineTake_data hcr hlf hbs hdel] at hget
      obtain ⟨t, hrun, htx, hrxt, hst, hopc, hram⟩ := readLine_data_run hr hrx hroom hget
      have hbyte (x : Nat) : t.ramByte x = (s.setRam (a + pos) c).ramByte x := congrArg (Memory.read · x) hram
      rcases Nat.lt_or_eq_of_le hpos with hmore | hfull
      · rw [lineTop_more (by omega)] at hrun
        refine ⟨_, hrun, hrxt, htx, (hbyte _).trans (State.ramByte_setRam_same hwf _ _), hst,
          fun _ => ⟨fun x hx => (hbyte x).trans (s.sameRamOutside_setRam _ _ x hx), hopc, rfl⟩, fun h => by omega⟩
      · rw [lineTop_full (by omega)] at hrun
        obtain ⟨hlast, hzero, hout⟩ := lineDone_stored (xd := xd) hwf hram
        exact ⟨_, hrun, hrxt, htx, hlast, hst, fun h => by omega,
          fun _ => ⟨hout, hzero, lineDone_result, congrArg (· + 1) hopc, rfl⟩⟩
  · rw [exec_uartReadLine_line hop, lineStep, lineRxPoll_eq hr]
    exact ⟨_, rfl, by simp, fun x => by simp, by simp, by simp, rfl⟩
  · rw [exec_uartReadLine_line hop, lineStep, lineEcho, txReady_eq (s := s.setRam (a + pos) c) hr]
    refine ⟨_, rfl, ?_, fun x hx => ?_, by simp, by simp, by simp, by simp, fun hroom => ?_, fun hfull => ?_⟩
    · simp [State.ramByte_setRam_same hwf]
    · simpa using s.sameRamOutside_setRam _ c x hx
    · rw [(s.setRam (a + pos) c).canPut_of_room hroom]; rfl
    · rw [(s.setRam (a + pos) c).canPut_of_full hfull]; rfl
  · rw [exec_uartReadLine_line hop, lineStep, lineEcho, txReady_eq hr]
    refine ⟨_, rfl, by simp, fun x => by simp, by simp, by simp, fun hroom => ?_, fun hfull => ?_⟩
    · rw [s.canPut_of_room hroom]; rfl
    · rw [s.canPut_of_full hfull]; exact hop.symm
  · have hwf' : Memory.wf (s.dataWrite b).ram = true := by simpa using hwf
    cases q with
    | cons c q =>
      exact ⟨_, readLine_put_more hr hroom hop, by simp, by simp, by simp,
        fun _ => ⟨fun x => by simp, by simp, rfl⟩, fun h => by simp at h, fun h => by simp at h⟩
    | nil =>
      have hput := readLine_put_last hr hroom hop
      by_cases hfull : pos + 1 = cap
      · rw [lineTop_full hfull] at hput
        refine ⟨_, hput, by simp, by simp, by simp, fun h => absurd rfl h, fun _ h => absurd hfull h, fun _ _ =>
          ⟨lineDone_terminator hwf', fun x hx => ?_, lineDone_result, fun r h => ?_, by simp, rfl⟩⟩
        · simpa using lineDone_sameRamOutside (xd := xd) (s := s.dataWrite b) x hx
        · simpa using lineDone_regs (a := a) (pos := pos) (s := s.dataWrite b) r h
      · rw [lineTop_more hfull] at hput
        exact ⟨_, hput, by simp, by simp, by simp, fun h => absurd rfl h,
          fun _ _ => ⟨fun x => by simp, by simp, rfl⟩, fun _ h => absurd h hfull⟩
  · obtain ⟨t, hrun, hq, hopc⟩ := readLine_echo_run (c := 0x08) (q := [0x20, 0x08]) hr hroom hop
    rw [lineTop_more (by omega)] at hrun
    exact ⟨_, hrun, hq.txFifo, hq.rxFifo, hq.ram, hopc, hq.status, rfl⟩

end Sys2Proof.Machine
end

section
/-! What a micro-step of a UART operation other than `UART_INIT` can do, said once (43_uart_common.md R270, R274 to R278,
R284), and the frame that follows from it. -/

namespace Sys2Proof.Machine

/-- `t` is reached from `s` within a micro-step of a UART operation whose results are the registers `dests` and whose
stores hit the addresses of `stores`: by an access of the selected UART's status or data register, a result, a store, or
an end of the micro-step. From a sound state the fault that ends it is not a transmit overflow. -/
inductive UartStep (s : State) (dests : List RegIdx) (stores : Nat → Prop) : State → Prop
  | start : UartStep s dests stores s
  | statusRead {t : State} : UartStep s dests stores t → UartStep s dests stores t.statusRead
  | dataRead {t : State} : UartStep s dests stores t → UartStep s dests stores t.dataRead
  | dataWrite {t : State} (b : Byte) : UartStep s dests stores t → UartStep s dests stores (t.dataWrite b)
  | setReg {t : State} {r : RegIdx} (v : Word) :
      r ∈ dests → UartStep s dests stores t → UartStep s dests stores (t.setReg r v)
  | setRam {t : State} {a : Nat} (b : Byte) :
      stores a → UartStep s dests stores t → UartStep s dests stores (t.setRam a b)
  | pause {t : State} (i : Instr) (m : Micro) : UartStep s dests stores t → UartStep s dests stores (t.pause i m)
  | finish {t : State} : UartStep s dests stores t → UartStep s dests stores t.finish
  | raise {t : State} {c : Cause} :
      (s.sound → ∀ u, c ≠ .txOverflow u) → UartStep s dests stores t → UartStep s dests stores (t.raise c)

/-- From `s` to `t`, of the UARTs only the selected one's FIFOs and the Mini UART's overrun flag change. -/
def State.accessed (s t : State) : Prop :=
  match s.cfg.variant with
  | .mini => t.pl = s.pl ∧ ∃ tx rx o, t.mu = { s.mu with txf := tx, rxf := rx, ovr := o }
  | .full => t.mu = s.mu ∧ ∃ tx rx, t.pl = { s.pl with txf := tx, rxf := rx }

section
variable (s : State)

theorem State.accessed_refl : s.accessed s := by
  unfold State.accessed
  cases s.cfg.variant
  · exact ⟨rfl, _, _, _, rfl⟩
  · exact ⟨rfl, _, _, rfl⟩

theorem State.accessed_statusRead : s.accessed s.statusRead := by
  unfold State.accessed State.statusRead
  cases s.cfg.variant
  · exact ⟨rfl, _, _, _, rfl⟩
  · exact ⟨rfl, _, _, rfl⟩

theorem State.accessed_dataRead : s.accessed s.dataRead := by
  unfold State.accessed State.dataRead
  cases s.cfg.variant
  · exact ⟨rfl, _, _, _, rfl⟩
  · exact ⟨rfl, _, _, rfl⟩

theorem State.accessed_dataWrite (b : Byte) : s.accessed (s.dataWrite b) := by
  unfold State.accessed State.dataWrite
  cases s.cfg.variant
  · exact ⟨rfl, _, _, _, rfl⟩
  · exact ⟨rfl, _, _, rfl⟩

end

theorem State.accessed.trans {s t u : State} (h : s.accessed t) (hc : t.cfg = s.cfg) (h' : t.accessed u) :
    s.accessed u := by
  unfold State.accessed at *
  rw [hc] at h'
  cases hv : s.cfg.variant <;> simp only [hv] at h h' ⊢
  · obtain ⟨hpl, tx, rx, o, hmu⟩ := h
    obtain ⟨hpl', tx', rx', o', hmu'⟩ := h'
    exact ⟨hpl'.trans hpl, tx', rx', o', by rw [hmu', hmu]⟩
  · obtain ⟨hmu, tx, rx, hpl⟩ := h
    obtain ⟨hmu', tx', rx', hpl'⟩ := h'
    exact ⟨hmu'.trans hmu, tx', rx', by rw [hpl', hpl]⟩

/-- The addresses a micro-step of `UART_READ_LINE` can store to: the cursor's place, or of a line of capacity 1 its only
place. -/
def State.lineStores (s : State) (xa xc : RegIdx) : Micro → Nat → Prop
  | .line a _ pos _, x => x = a + pos
  | _, x => ∃ a, s.reg xa = some a ∧ s.reg xc = some 1 ∧ x = a.toNat

namespace UartStep

section
variable {s t : State} {dests : List RegIdx} {stores : Nat → Prop}

/-! ### Accesses and operands -/

theorem txReady {k : Bool → State → Res} (ht : UartStep s dests stores t)
    (hk : ∀ room u, UartStep s dests stores u → (k room u).all (UartStep s dests stores)) :
    (txReady t k).all (UartStep s dests stores) :=
  txReady_all (fun _ => ht.raise fun _ _ => nofun) fun _ => hk _ _ ht.statusRead

theorem rxReady {k : Bool → State → Res} (ht : UartStep s dests stores t)
    (hk : ∀ ready u, UartStep s dests stores u → (k ready u).all (UartStep s dests stores)) :
    (rxReady t k).all (UartStep s dests stores) :=
  rxReady_all (fun _ => ht.raise fun _ _ => nofun) fun _ => hk _ _ ht.statusRead

theorem txIdle {k : Bool → State → Res} (ht : UartStep s dests stores t)
    (hk : ∀ idle u, UartStep s dests stores u → (k idle u).all (UartStep s dests stores)) :
    (txIdle t k).all (UartStep s dests stores) :=
  txIdle_all (fun _ => ht.raise fun _ _ => nofun) fun _ => hk _ _ ht.statusRead

theorem rxGet {k : Byte → State → Res} (ht : UartStep s dests stores t)
    (hk : ∀ b u, UartStep s dests stores u → (k b u).all (UartStep s dests stores)) :
    (rxGet t k).all (UartStep s dests stores) :=
  rxGet_all (fun _ => ht.raise fun _ _ => nofun) fun _ b => hk b _ ht.dataRead

/-- A data write overflows only where an operation did not see room. -/
theorem txPut {b : Byte} {k : State → Res} (hroom : s.sound → s.txHasRoom)
    (hk : ∀ u, UartStep s dests stores u → (k u).all (UartStep s dests stores)) :
    (txPut b s k).all (UartStep s dests stores) := by
  refine txPut_all (fun _ => start.raise fun _ _ => nofun) (fun _ hfull u => start.raise fun hs => ?_) fun _ _ =>
    hk _ (start.dataWrite b)
  exact absurd hfull (Nat.ne_of_lt (s.txHasRoom_iff.1 (hroom hs)).2)

theorem withReg {r : RegIdx} {k : Word → Res}
    (hk : ∀ v, s.reg r = some v → (k v).all (UartStep s dests stores)) :
    (withReg r s k).all (UartStep s dests stores) :=
  withReg_all (fun _ => start.raise fun _ _ => nofun) hk

theorem withReady {op : BitVec 8} {k : Res} (hk : k.all (UartStep s dests stores)) :
    (withReady op s k).all (UartStep s dests stores) :=
  withReady_all (fun _ => start.raise fun _ _ => nofun) fun _ => hk

theorem withRam {a n : Nat} {k : Res} (hk : k.all (UartStep s dests stores)) :
    (withRam a n s k).all (UartStep s dests stores) :=
  withRam_all (fun _ => start.raise fun _ _ => nofun) fun _ => hk

/-! ### The operations -/

theorem writeBytePoll (i : Instr) (b : Byte) : (writeBytePoll i b s).all (UartStep s dests stores) :=
  txReady start fun _ _ hu => hu.pause _ _

theorem execUartWriteByte (x : RegIdx) : (execUartWriteByte x s).all (UartStep s dests stores) := by
  have hm := State.microSound_microOf (s := s) (.uartWriteByte x)
  unfold Machine.execUartWriteByte
  dsimp only
  split <;> rename_i heq
  · exact writeBytePoll _ _
  · rw [heq] at hm
    exact txPut hm fun _ hu => hu.finish
  · exact withReg fun v _ => withReady (writeBytePoll _ _)

theorem stringPoll (i : Instr) (a n k : Nat) (b : Byte) : (stringPoll i a n k b s).all (UartStep s dests stores) :=
  txReady start fun _ _ hu => hu.pause _ _

theorem stringAfter (ht : UartStep s dests stores t) (i : Instr) (a n k : Nat) :
    UartStep s dests stores (stringAfter i a n k t) := by
  unfold Machine.stringAfter
  split_ifs
  · exact ht.pause _ _
  · exact ht.finish

theorem execUartWriteString (xa xn : RegIdx) : (execUartWriteString xa xn s).all (UartStep s dests stores) := by
  have hm := State.microSound_microOf (s := s) (.uartWriteString xa xn)
  unfold Machine.execUartWriteString
  dsimp only
  split <;> rename_i heq
  · exact stringPoll _ _ _ _ _
  · exact stringPoll _ _ _ _ _
  · rw [heq] at hm
    exact txPut (fun hs => (hm hs).2.2) fun _ hu => hu.stringAfter _ _ _ _
  · refine withReg fun a _ => withReg fun n _ => withReady (withRam ?_)
    split_ifs
    · exact start.finish
    · exact stringPoll _ _ _ _ _

theorem execUartReadByte {p q : RegIdx} (hp : p ∈ dests) (hq : q ∈ dests) :
    (execUartReadByte p q s).all (UartStep s dests stores) := by
  unfold Machine.execUartReadByte
  dsimp only
  split
  · exact rxGet start fun _ _ hu => ((hu.setReg _ hp).setReg _ hq).finish
  · refine withReady (rxReady start fun ready u hu => ?_)
    cases ready
    · exact ((hu.setReg _ hp).setReg _ hq).finish
    · exact hu.pause _ _

theorem flushPoll : (flushPoll s).all (UartStep s dests stores) :=
  txIdle start fun idle u hu => by
    cases idle
    · exact hu.pause _ _
    · exact hu.finish

theorem execUartFlush : (execUartFlush s).all (UartStep s dests stores) := by
  unfold Machine.execUartFlush
  split
  · exact flushPoll
  · exact withReady flushPoll

theorem execUartIsDataReady {d : RegIdx} (hd : d ∈ dests) :
    (execUartIsDataReady d s).all (UartStep s dests stores) :=
  withReady (rxReady start fun _ _ hu => (hu.setReg _ hd).finish)

section
variable {i : Instr} {d : RegIdx} {a cap pos : Nat} (hd : d ∈ dests) (hst : stores (a + pos))
include hd hst

theorem lineDone (ht : UartStep s dests stores t) : UartStep s dests stores (lineDone d a pos t) :=
  ((ht.setRam _ hst).setReg _ hd).finish

theorem lineTop (ht : UartStep s dests stores t) : UartStep s dests stores (lineTop i d a cap pos t) := by
  unfold Machine.lineTop
  split_ifs
  · exact lineDone hd hst ht
  · exact ht.pause _ _

theorem lineTake {c : Byte} (ht : UartStep s dests stores t) :
    UartStep s dests stores (lineTake i d a cap pos c t) := by
  unfold Machine.lineTake
  split_ifs
  · exact lineDone hd hst ht
  · exact lineTop hd hst ht
  · exact ht.pause _ _
  · exact ht.pause _ _

theorem linePut {q : List Byte} (hroom : s.sound → s.txHasRoom) :
    (linePut i d a cap pos q s).all (UartStep s dests stores) := by
  match q with
  | [] => exact lineTop hd hst start
  | [b] => exact txPut hroom fun _ hu => lineTop hd hst hu
  | b :: c :: rest => exact txPut hroom fun _ hu => hu.pause _ _

theorem lineStep {ph : LinePhase} (hm : s.sound → s.microSound (.line a cap pos ph)) :
    (lineStep i d a cap pos ph s).all (UartStep s dests stores) := by
  unfold Machine.lineStep
  cases ph with
  | rxPoll => exact rxReady start fun _ _ hu => hu.pause _ _
  | rxGet => exact rxGet start fun _ _ hu => lineTake hd hst hu
  | store c => exact txReady (start.setRam c hst) fun _ _ hu => hu.pause _ _
  | echo q => exact txReady start fun _ _ hu => hu.pause _ _
  | put q => exact linePut hd hst fun hs => (hm hs).2.2

end

theorem execUartReadLine {d xa xc : RegIdx} (hd : d ∈ dests)
    (hst : ∀ x, s.lineStores xa xc (s.microOf (.uartReadLine d xa xc)) x → stores x) :
    (execUartReadLine d xa xc s).all (UartStep s dests stores) := by
  have hm := State.microSound_microOf (s := s) (.uartReadLine d xa xc)
  unfold Machine.execUartReadLine
  dsimp only
  split <;> rename_i heq
  · rw [heq] at hm hst
    exact lineStep hd (hst _ rfl) hm
  · refine withReg fun a ha => withReg fun cap hc => withReady ?_
    split_ifs with h0 h1
    · exact start.raise fun _ _ => nofun
    · have h1' : cap = 1 := BitVec.eq_of_toNat_eq h1
      refine withRam (lineDone hd (hst _ ?_) start)
      unfold State.lineStores
      split
      · rename_i hline
        exact absurd hline (heq _ _ _ _)
      · exact ⟨a, ha, h1' ▸ hc, rfl⟩
    · exact withRam (rxReady start fun _ _ hu => hu.pause _ _)

end

/-! ### What a micro-step leaves -/

section
variable {s t : State} {dests : List RegIdx} {stores : Nat → Prop} (h : UartStep s dests stores t)
include h

theorem sameRegsBut : SameRegsBut dests s t := by
  intro r hr
  induction h with
  | start => rfl
  | statusRead _ ih | dataRead _ ih | dataWrite _ _ ih => simpa using ih
  | setReg v hmem _ ih => rw [State.reg_setReg_other _ (fun he => hr (by rw [he]; exact hmem)), ih]
  | setRam | pause | finish | raise => assumption

theorem ramByte {x : Nat} (hx : ¬stores x) : t.ramByte x = s.ramByte x := by
  induction h with
  | start => rfl
  | statusRead _ ih | dataRead _ ih | dataWrite _ _ ih => simpa using ih
  | setRam b ha _ ih => rw [State.ramByte_setRam_other _ (fun he => hx (by rw [he]; exact ha)), ih]
  | setReg | pause | finish | raise => assumption

theorem keeps : t.gpio = s.gpio ∧ t.aux = s.aux ∧ t.lineOut = s.lineOut ∧ t.lineIn = s.lineIn ∧ SameProgram s t ∧
    t.drv = s.drv ∧ t.sched = s.sched := by
  induction h with
  | start => simp [SameProgram]
  | statusRead _ ih | dataRead _ ih | dataWrite _ _ ih => simpa [SameProgram] using ih
  | setReg | setRam | pause | finish | raise => assumption

theorem cfg : t.cfg = s.cfg := by
  obtain ⟨-, -, -, -, ⟨-, hcfg⟩, -⟩ := h.keeps
  exact hcfg

theorem accessed : s.accessed t := by
  induction h with
  | start => exact s.accessed_refl
  | statusRead ht ih => exact ih.trans ht.cfg (State.accessed_statusRead _)
  | dataRead ht ih => exact ih.trans ht.cfg (State.accessed_dataRead _)
  | dataWrite b ht ih => exact ih.trans ht.cfg (State.accessed_dataWrite _ b)
  | setReg | setRam | pause | finish | raise => assumption

/-- From a sound state no transmit overflow is raised. -/
theorem no_overflow (hs : s.sound) (hrun : s.status = .running) (u : Uart) (o : Int) :
    t.status ≠ .faulted (.txOverflow u) o := by
  induction h with
  | start => rw [hrun]; nofun
  | statusRead _ ih | dataRead _ ih | dataWrite _ _ ih => simpa using ih
  | raise hc _ _ => simp [hc hs u]
  | setReg | setRam | pause | finish => assumption

end

end UartStep

/-! ### The frame -/

/-- What holds of an answer holds of the next state it gives. -/
theorem Res.of_all {Q : State → Prop} {o : Res} {t : State} (h : o.all Q) (ho : o = .next t) : Q t := by
  rw [ho] at h
  exact h

/-- The addresses a micro-step of instruction `i` can store to, `i` a UART operation. -/
def State.uartStores (s : State) : Instr → Nat → Prop
  | .uartReadLine d xa xc, x => s.lineStores xa xc (s.microOf (.uartReadLine d xa xc)) x
  | _, _ => False

section
variable {s t : State} {i : Instr} {dests : List RegIdx} {d xa xc : RegIdx} {a cap pos : Nat} {ph : LinePhase}

/-- Every answer of a UART operation other than `UART_INIT`, with its results `dests`. -/
theorem uartStep_of_exec (hi : (∃ p, i = .uartWriteByte p ∧ dests = []) ∨ (∃ p q, i = .uartWriteString p q ∧ dests = []) ∨
      (∃ p q, i = .uartReadByte p q ∧ dests = [p, q]) ∨ (i = .uartFlush ∧ dests = []) ∨
      (∃ d p q, i = .uartReadLine d p q ∧ dests = [d]) ∨ (∃ d, i = .uartIsDataReady d ∧ dests = [d]))
    (h : exec i s = .next t) : UartStep s dests (s.uartStores i) t := by
  rcases hi with ⟨p, rfl, rfl⟩ | ⟨p, q, rfl, rfl⟩ | ⟨p, q, rfl, rfl⟩ | ⟨rfl, rfl⟩ | ⟨d, p, q, rfl, rfl⟩ | ⟨d, rfl, rfl⟩
  · exact Res.of_all (UartStep.execUartWriteByte p) h
  · exact Res.of_all (UartStep.execUartWriteString p q) h
  · exact Res.of_all (UartStep.execUartReadByte (by simp) (by simp)) h
  · exact Res.of_all UartStep.execUartFlush h
  · exact Res.of_all (UartStep.execUartReadLine (by simp) fun _ hx => hx) h
  · exact Res.of_all (UartStep.execUartIsDataReady (by simp)) h

/-- A line in progress in a sound state has its cursor inside its buffer, which lies inside the RAM. -/
theorem State.line_of_sound (hs : s.sound) (hop : s.op = some ⟨i, .line a cap pos ph⟩) :
    pos + 1 ≤ cap ∧ a + cap ≤ s.cfg.ramSize := by
  obtain ⟨-, -, hmicro⟩ := hs
  obtain ⟨hram, hl⟩ := hmicro _ hop
  refine ⟨?_, hram⟩
  cases ph with
  | rxPoll | store => exact Nat.le_of_succ_le hl
  | rxGet => exact Nat.le_of_succ_le hl.1
  | echo => exact hl
  | put => exact hl.1

/-- A line in progress in a sound state stores inside its buffer. -/
theorem UartStep.sameRamOutside_line (h : UartStep s dests (s.uartStores (.uartReadLine d xa xc)) t) (hs : s.sound)
    (hop : s.op = some ⟨.uartReadLine d xa xc, .line a cap pos ph⟩) : SameRamOutside a cap s t := by
  intro x hx
  obtain ⟨hpos, -⟩ := State.line_of_sound hs hop
  refine h.ramByte fun hst => ?_
  rw [State.uartStores, State.microOf_inProgress hop, State.lineStores] at hst
  omega

/-- A line that starts stores only where both operand registers hold a value, and then at its buffer's start, the
capacity being 1. -/
theorem UartStep.ramByte_start (h : UartStep s dests (s.uartStores (.uartReadLine d xa xc)) t) (hop : s.op = none)
    {x : Nat} (hx : ∀ v, s.reg xa = some v → s.reg xc = some 1 → x ≠ v.toNat) : t.ramByte x = s.ramByte x := by
  refine h.ramByte fun hst => ?_
  rw [State.uartStores, State.microOf_idle s hop] at hst
  obtain ⟨v, ha, hc, hxv⟩ := hst
  exact hx v ha hc hxv

end

/-- Settles O54: the frame of `UartStep`, and where `UART_READ_LINE` stores. -/
theorem uartOperationsFrame : Obligations.UartOperationsFrame := by
  intro s t i dests hi hexec
  have h := uartStep_of_exec hi hexec
  obtain ⟨hgpio, haux, hout, hin, hprog, hdrv, hsched⟩ := h.keeps
  have hacc := h.accessed
  refine ⟨h.sameRegsBut, hgpio, haux, hout, hin, hprog, hdrv, hsched, fun hv => ?_, fun hv => ?_, fun hi x => ?_,
    fun d p q hi => ?_⟩
  · simp only [State.accessed, hv] at hacc
    obtain ⟨hpl, tx, rx, o, hmu⟩ := hacc
    exact ⟨hpl, by rw [hmu]⟩
  · simp only [State.accessed, hv] at hacc
    obtain ⟨hmu, tx, rx, hpl⟩ := hacc
    exact ⟨hmu, by rw [hpl]⟩
  · refine h.ramByte fun hst => ?_
    unfold State.uartStores at hst
    split at hst
    · exact hi _ _ _ rfl
    · exact hst
  · subst hi
    refine ⟨fun a cap pos ph hs hop => h.sameRamOutside_line hs hop, fun a cap hop ha hc x hx => ?_,
      fun hop hnone x => ?_⟩
    · refine h.ramByte_start hop fun v hv h1 => ?_
      obtain rfl : a = v := Option.some.inj (ha.symm.trans hv)
      obtain rfl : cap = 1 := Option.some.inj (hc.symm.trans h1)
      have : (1 : Word).toNat = 1 := rfl
      omega
    · refine h.ramByte_start hop fun v hv h1 => ?_
      rcases hnone with hp | hq
      · simp [hp] at hv
      · simp [hq] at h1

/-- Settles O52: the stores and the results of `UartStep`, with soundness placing the cursor inside the buffer. -/
theorem lineStaysInItsBuffer : Obligations.LineStaysInItsBuffer := by
  intro s t d xa xc a cap pos ph hs hop hexec
  have h := uartStep_of_exec (dests := [d]) (by simp) hexec
  exact ⟨h.sameRamOutside_line hs hop, h.sameRegsBut, (State.line_of_sound hs hop).2⟩

end Sys2Proof.Machine
end

section
/-! `UART_INIT` (43_uart_common.md R273; 44_uart_mini.md R305, R313; 45_uart_pl011.md R355, R363; 46_gpio.md R401). -/

namespace Sys2Proof.Machine

/-! ### The operation in progress -/

section
variable {s : State}

/-- A micro-step other than the first is that of the context. -/
theorem State.op_of_microOf {i : Instr} {m : Micro} (h : s.microOf i = m) (hm : m ≠ .start) : s.op = some ⟨i, m⟩ := by
  unfold State.microOf at h
  split at h
  · rename_i o ho
    split_ifs at h with hi
    · rw [ho, ← hi, ← h]
    · exact absurd h.symm hm
  · exact absurd h.symm hm

theorem exec_uartInit_start (hop : s.op = none) : exec .uartInit s = initSelect txPin .read s := by
  simp only [exec, execUartInit, State.microOf_idle s hop]

theorem exec_uartInit_txPin {ph : SelPhase} (hop : s.op = some ⟨.uartInit, .select txPin ph⟩) :
    exec .uartInit s = initSelect txPin ph s := by
  simp only [exec, execUartInit, State.microOf_inProgress hop, if_true]

theorem exec_uartInit_rxPin {ph : SelPhase} (hop : s.op = some ⟨.uartInit, .select rxPin ph⟩) :
    exec .uartInit s = initSelect rxPin ph s := by
  simp only [exec, execUartInit, State.microOf_inProgress hop]
  exact if_neg (by decide)

theorem exec_uartInit_enables (hop : s.op = some ⟨.uartInit, .enables⟩) :
    exec .uartInit s = .next ((s.readReg .aux 0x04 .auxEnables).pause .uartInit
      (.writes (initWritesMini s.cfg (s.drawnOf .auxEnables).word))) := by
  have hc : checkRead .aux 0x04 s = .ok .auxEnables := checkRead_ok_iff.2 ⟨rfl, rfl⟩
  simp only [exec, execUartInit, State.microOf_inProgress hop, regRead_ok hc]

theorem exec_uartInit_writes {ws : List (Block × Nat × Word)} (hop : s.op = some ⟨.uartInit, .writes ws⟩) :
    exec .uartInit s = initWrite ws s := by
  simp only [exec, execUartInit, State.microOf_inProgress hop]

end

/-! ### The pins -/

theorem initAfterPin_txPin (s : State) : initAfterPin txPin s = s.pause .uartInit (.select rxPin .read) := if_pos rfl

theorem initAfterPin_rxPin_mini {s : State} (hv : s.cfg.variant = .mini) :
    initAfterPin rxPin s = s.pause .uartInit .enables := by
  rw [initAfterPin, if_neg (by decide), hv]

theorem initAfterPin_rxPin_full {s : State} (hv : s.cfg.variant = .full) :
    initAfterPin rxPin s = s.pause .uartInit (.writes (initWritesFull s.cfg)) := by
  rw [initAfterPin, if_neg (by decide), hv]

/-- Both pins are given the variant's function, the transmit pin first, and no other pin changes its function. -/
theorem init_pins_run {s : State} (hop : s.op = none) :
    ∃ n t, execTimes n .uartInit s = .next (initAfterPin rxPin t) ∧ s.selected t ∧
      t.gpio.fselAt txPin = altOf s.cfg.variant ∧ t.gpio.fselAt rxPin = altOf s.cfg.variant ∧
      ∀ p, p ≠ txPin → p ≠ rxPin → t.gpio.fselAt p = s.gpio.fselAt p := by
  obtain ⟨t₁, hrun₁, hsel₁, hother₁, hpin₁⟩ := select_run (s := s) (pin := txPin) (code := altOf s.cfg.variant)
    (k := initAfterPin txPin) (by decide)
    (fun u ph hu hc => by rw [exec_uartInit_txPin hu, initSelect, hc])
    (exec_uartInit_start hop)
  rw [initAfterPin_txPin] at hrun₁
  have hc₁ : t₁.cfg = s.cfg := hsel₁.1
  obtain ⟨t₂, hrun₂, hsel₂, hother₂, hpin₂⟩ := select_run (s := t₁.pause .uartInit (.select rxPin .read)) (pin := rxPin)
    (code := altOf s.cfg.variant) (k := initAfterPin rxPin) (by decide)
    (fun u ph hu hc => by rw [exec_uartInit_rxPin hu, initSelect, hc, State.pause_cfg, hc₁])
    (by rw [exec_uartInit_rxPin rfl, initSelect, State.pause_cfg, hc₁])
  refine ⟨_, t₂, (execTimes_add _ _ _ _ _ hrun₁).trans hrun₂, State.selected_trans hsel₁ hsel₂, ?_,
    hpin₂ (by decide), fun p htx hrx => (hother₂ p hrx).trans (hother₁ p htx)⟩
  exact (hother₂ txPin (by decide)).trans (hpin₁ (by decide))

/-! ### The engine's writes -/

/-- The state after writes of the registers that stand at the named places. -/
def State.writeAll (s : State) : List (Block × Nat × PReg × Word) → State
  | [] => s
  | (b, off, r, v) :: ws => (s.writeReg b off r v).writeAll ws

/-- Each of the writes passes its check, in the state the ones before it leave. -/
def State.writesPass (s : State) : List (Block × Nat × PReg × Word) → Prop
  | [] => True
  | (b, off, r, v) :: ws => checkWrite b off v s = .ok r ∧ (s.writeReg b off r v).writesPass ws

/-- The writes as `UART_INIT` lists them. -/
def placesOf (ws : List (Block × Nat × PReg × Word)) : List (Block × Nat × Word) := ws.map fun w => (w.1, w.2.1, w.2.2.2)

/-- No write depends on the operation context. -/
theorem State.writeReg_pause (s : State) (i : Instr) (m : Micro) (b : Block) (off : Nat) (r : PReg) (v : Word) :
    (s.pause i m).writeReg b off r v = (s.writeReg b off r v).pause i m := by
  cases r with
  | gpfsel k =>
    by_cases h : (s.gpio.writeSel k.val v).fselAt txPin = s.gpio.fselAt txPin <;>
      simp only [State.writeReg, State.writeEffect, State.writeSel, State.pause, State.emit, h, if_true, if_false]
  | auxEnables =>
    by_cases h : (s.aux.enMu && !v.getLsbD 0) = true <;>
      simp only [State.writeReg, State.writeEffect, State.writeEnables, State.pause, State.emit, h, if_true, if_false,
        Bool.false_eq_true]
  | gpset | gpclr | gplev | auxIrq | mu | uart => rfl

theorem State.writesPass_pause (ws : List (Block × Nat × PReg × Word)) (s : State) (i : Instr) (m : Micro) :
    (s.pause i m).writesPass ws ↔ s.writesPass ws := by
  induction ws generalizing s with
  | nil => rfl
  | cons w ws ih =>
    obtain ⟨b, off, r, v⟩ := w
    simp only [State.writesPass, State.writeReg_pause, ih]
    rfl

theorem State.writeAll_pause (ws : List (Block × Nat × PReg × Word)) (s : State) (i : Instr) (m : Micro) :
    (s.pause i m).writeAll ws = (s.writeAll ws).pause i m := by
  induction ws generalizing s with
  | nil => rfl
  | cons w ws ih =>
    obtain ⟨b, off, r, v⟩ := w
    simp only [State.writeAll, State.writeReg_pause, ih]

/-- Writes that pass their checks are made one a micro-step, and the last completes `UART_INIT`. -/
theorem initWrites_run {ws : List (Block × Nat × PReg × Word)} (hne : ws ≠ []) {s : State}
    (hop : s.op = some ⟨.uartInit, .writes (placesOf ws)⟩) (hpass : s.writesPass ws) :
    execTimes ws.length .uartInit s = .next (s.writeAll ws).initDone := by
  induction ws generalizing s with
  | nil => exact absurd rfl hne
  | cons w ws ih =>
    obtain ⟨b, off, r, v⟩ := w
    obtain ⟨hc, hpass⟩ := hpass
    have hexec := exec_uartInit_writes hop
    cases ws with
    | nil =>
      simp only [placesOf, List.map_cons, List.map_nil, initWrite, regWrite_ok hc] at hexec
      exact execTimes_one hexec
    | cons w' ws =>
      simp only [placesOf, List.map_cons, initWrite, regWrite_ok hc] at hexec
      have hrun := ih (by simp)
        (s := (s.writeReg b off r v).pause .uartInit (.writes (placesOf (w' :: ws)))) rfl
        ((State.writesPass_pause _ _ _ _).2 hpass)
      rw [State.writeAll_pause] at hrun
      exact (execTimes_succ hexec).trans hrun

/-- The writes of `EngineInit_MINI` with their registers (R305). -/
def muInitWrites (c : Config) (e : Word) : List (Block × Nat × PReg × Word) :=
  [(.aux, 0x04, .auxEnables, e ||| 1), (.aux, 0x68, .mu .baud, (muBaudDiv c).setWidth 32),
   (.aux, 0x4C, .mu .lcr, 0x03), (.aux, 0x44, .mu .ier, 0x00), (.aux, 0x60, .mu .cntl, 0x03),
   (.aux, 0x48, .mu .iir, 0x06)]

theorem placesOf_muInitWrites (c : Config) (e : Word) : placesOf (muInitWrites c e) = initWritesMini c e := rfl

/-- The writes of `EngineInit_FULL` with their registers (R355). -/
def plInitWrites (c : Config) : List (Block × Nat × PReg × Word) :=
  [(.uart0, 0x30, .uart .cr, 0x00), (.uart0, 0x44, .uart .icr, 0x7FF),
   (.uart0, 0x24, .uart .ibrd, (pl011Ibrd c).setWidth 32), (.uart0, 0x28, .uart .fbrd, (pl011Fbrd c).setWidth 32),
   (.uart0, 0x2C, .uart .lcrh, 0x70), (.uart0, 0x30, .uart .cr, 0x301)]

theorem placesOf_plInitWrites (c : Config) : placesOf (plInitWrites c) = initWritesFull c := rfl

theorem muInitWrites_pass (s : State) (c : Config) (e : Word) : s.writesPass (muInitWrites c e) := by
  simp [muInitWrites, State.writesPass, checkWrite_ok_iff, regAt, writeRefused, auxBlocked, writeFault,
    State.writeEffect, State.writeEnables_aux]

theorem plInitWrites_pass (s : State) (c : Config) : s.writesPass (plInitWrites c) := by
  simp [plInitWrites, State.writesPass, checkWrite_ok_iff, regAt, writeRefused, auxBlocked, writeFault,
    State.writeEffect, Pl011.write, Pl011.enabled]

/-! ### The engines' initialisations -/

theorem TxFrame.corrupt_corrupt {C : Type} (f : TxFrame C) : f.corrupt.corrupt = f.corrupt := rfl

/-- The Mini UART after its engine's writes from `m` (R305). -/
def Mu.initialised (m : Mu) (c : Config) : Mu :=
  { m.corrupt with baud := muBaudDiv c, lcr := 0x03, ier := 0x00, cntl := 0x03, txf := [], rxf := [] }

/-- The full UART after its engine's writes from `u` (R355). -/
def Pl011.initialised (u : Pl011) (c : Config) : Pl011 :=
  { u.corrupt with
    cr := 0x0301, ibrd := pl011Ibrd c, fbrd := pl011Fbrd c, lcrh := 0x70, actIbrd := pl011Ibrd c,
    actFbrd := pl011Fbrd c, actLcrh := 0x70 }

section
variable {s : State}

/-- What any writes leave. -/
theorem State.writeAll_keeps (ws : List (Block × Nat × PReg × Word)) (s : State) :
    (s.writeAll ws).opc = s.opc ∧ (s.writeAll ws).status = s.status ∧ (s.writeAll ws).x = s.x ∧
      (s.writeAll ws).ram = s.ram := by
  induction ws generalizing s with
  | nil => simp [State.writeAll]
  | cons w ws ih =>
    obtain ⟨b, off, r, v⟩ := w
    simpa [State.writeAll] using ih (s.writeReg b off r v)

/-- The enables read back with the Mini UART's set (R213, R305). -/
theorem State.enables_set (s : State) :
    (⟨((s.drawnOf .auxEnables).word ||| 1).getLsbD 0, ((s.drawnOf .auxEnables).word ||| 1).getLsbD 1,
      ((s.drawnOf .auxEnables).word ||| 1).getLsbD 2⟩ : Aux) = { s.aux with enMu := true } := by
  have hmask : ∀ k < 3, (0x7 : Word).getLsbD k = true := by decide
  have hdef := fun k hk => (s.drawnOf .auxEnables).word_defined (hmask k hk)
  obtain ⟨-, hspi1, hspi2⟩ := s.aux.word_bits
  have h1 := (hdef 1 (by decide)).trans hspi1
  have h2 := (hdef 2 (by decide)).trans hspi2
  simp only [BitVec.getLsbD_or, h1, h2]
  simp

theorem writeAll_muInitWrites (c : Config) (e : Word) :
    (s.writeAll (muInitWrites c e)).gpio = s.gpio ∧
      (s.writeAll (muInitWrites c e)).aux = ⟨(e ||| 1).getLsbD 0, (e ||| 1).getLsbD 1, (e ||| 1).getLsbD 2⟩ ∧
      (s.writeAll (muInitWrites c e)).pl = s.pl ∧ (s.writeAll (muInitWrites c e)).mu = s.mu.initialised c := by
  have hmu := s.writeEnables_mu (e ||| 1)
  rw [if_neg (by simp)] at hmu
  refine ⟨by simp [muInitWrites, State.writeAll, State.writeEffect], ?_, ?_, ?_⟩
  · simp only [muInitWrites, State.writeAll, State.writeReg_aux, State.writeEffect, State.writeEnables_aux]
  · simp [muInitWrites, State.writeAll, State.writeEffect]
  · simp only [muInitWrites, State.writeAll, State.writeReg_mu, State.writeEffect, hmu]
    simp [Mu.write, Mu.initialised, Mu.corrupt, Function.comp_def, TxFrame.corrupt_corrupt, lcrMask, ierMask]

theorem writeAll_plInitWrites (c : Config) :
    (s.writeAll (plInitWrites c)).gpio = s.gpio ∧ (s.writeAll (plInitWrites c)).aux = s.aux ∧
      (s.writeAll (plInitWrites c)).mu = s.mu ∧ (s.writeAll (plInitWrites c)).pl = s.pl.initialised c := by
  simp [plInitWrites, State.writeAll, State.writeEffect, Pl011.write, Pl011.initialised, Pl011.corrupt, crMask]

end

/-- `t` is a state in which `UART_INIT` has completed, its last micro-steps from `s` being its engine's. -/
structure State.initEnded (s t : State) : Prop where
  op : t.op = none
  opc : t.opc = s.opc + 1
  drv : t.drv = .ready
  status : t.status = s.status
  x : t.x = s.x
  ram : t.ram = s.ram

theorem State.initEnded_writeAll (s : State) (ws : List (Block × Nat × PReg × Word)) :
    s.initEnded (s.writeAll ws).initDone := by
  obtain ⟨hopc, hst, hx, hram⟩ := State.writeAll_keeps ws s
  exact ⟨rfl, congrArg (· + 1) hopc, rfl, hst, hx, hram⟩

/-- The read of the enables and the Mini UART's six writes. -/
theorem init_engine_mini {s : State} (hop : s.op = some ⟨.uartInit, .enables⟩) :
    ∃ t, execTimes 7 .uartInit s = .next t ∧ s.initEnded t ∧ t.gpio = s.gpio ∧ t.aux = { s.aux with enMu := true } ∧
      t.pl = s.pl ∧ t.mu = s.mu.initialised s.cfg := by
  have hread := exec_uartInit_enables hop
  have hset := s.enables_set
  generalize (s.drawnOf .auxEnables).word = e at hread hset
  rw [← placesOf_muInitWrites] at hread
  have hlen : (muInitWrites s.cfg e).length = 6 := rfl
  have hrun := initWrites_run (ws := muInitWrites s.cfg e) (by simp [muInitWrites])
    (State.pause_op (s.readReg .aux 0x04 .auxEnables) _ _) (muInitWrites_pass _ s.cfg e)
  rw [hlen, State.writeAll_pause] at hrun
  obtain ⟨hgpio, haux, hpl, hmu⟩ := writeAll_muInitWrites (s := s.readReg .aux 0x04 .auxEnables) s.cfg e
  have hend := State.initEnded_writeAll (s.readReg .aux 0x04 .auxEnables) (muInitWrites s.cfg e)
  exact ⟨_, (execTimes_succ hread).trans hrun, ⟨rfl, hend.opc.trans (by simp), rfl, hend.status.trans (by simp),
    hend.x.trans (by simp), hend.ram.trans (by simp)⟩, hgpio.trans (by simp), haux.trans hset, hpl, hmu⟩

/-- The full UART's six writes. -/
theorem init_engine_full {s : State} (hop : s.op = some ⟨.uartInit, .writes (initWritesFull s.cfg)⟩) :
    ∃ t, execTimes 6 .uartInit s = .next t ∧ s.initEnded t ∧ t.gpio = s.gpio ∧ t.aux = s.aux ∧ t.mu = s.mu ∧
      t.pl = s.pl.initialised s.cfg := by
  rw [← placesOf_plInitWrites] at hop
  have hlen : (plInitWrites s.cfg).length = 6 := rfl
  have hrun := initWrites_run (by simp [plInitWrites]) hop (plInitWrites_pass s s.cfg)
  rw [hlen] at hrun
  have hend := s.initEnded_writeAll (plInitWrites s.cfg)
  have hblocks := writeAll_plInitWrites (s := s) s.cfg
  generalize s.writeAll (plInitWrites s.cfg) = t at hrun hend hblocks
  exact ⟨_, hrun, hend, hblocks⟩

/-! ### `UART_INIT` completes -/

/-- Initialisation forgets whether the frame in the shifter was intact. -/
theorem Mu.initialised_corrupt (m : Mu) (c : Config) : m.corrupt.initialised c = m.initialised c := by
  rw [Mu.initialised, Mu.corrupt_corrupt]
  rfl

theorem Pl011.initialised_corrupt (u : Pl011) (c : Config) : u.corrupt.initialised c = u.initialised c := by
  rw [Pl011.initialised, Pl011.corrupt_corrupt]
  rfl

/-- The byte in the shifter stays. -/
theorem TxFrame.map_byte_corrupt {C : Type} (o : Option (TxFrame C)) :
    (o.map TxFrame.corrupt).map (·.byte) = o.map (·.byte) := by
  cases o <;> rfl

theorem State.initEnded_of_selected {s u t : State} (hsel : s.selected u) (h : u.initEnded t) : s.initEnded t := by
  obtain ⟨-, -, hx, hopc, hram, hst, -⟩ := hsel
  exact ⟨h.op, h.opc.trans (congrArg (· + 1) hopc), h.drv, h.status.trans hst, h.x.trans hx, h.ram.trans hram⟩

theorem State.initEnded_reg {s t : State} (h : s.initEnded t) (r : RegIdx) : t.reg r = s.reg r := by
  rw [State.reg, State.reg, h.x]

theorem State.initEnded_sameRam {s t : State} (h : s.initEnded t) : SameRam s t := fun a => by
  rw [State.ramByte, State.ramByte, h.ram]

/-- The pins, then the engine, of which `P` says what it makes of the state the pins' selection leaves. -/
theorem init_run {s : State} (hop : s.op = none) {P : State → State → Prop}
    (engine : ∀ u, u.cfg = s.cfg → ∃ n t, execTimes n .uartInit (initAfterPin rxPin u) = .next t ∧ u.initEnded t ∧
      t.gpio = u.gpio ∧ P u t) :
    ∃ n u t, execTimes n .uartInit s = .next t ∧ s.selected u ∧ s.initEnded t ∧
      t.gpio.fselAt txPin = altOf s.cfg.variant ∧ t.gpio.fselAt rxPin = altOf s.cfg.variant ∧
      (∀ p, p ≠ txPin → p ≠ rxPin → t.gpio.fselAt p = s.gpio.fselAt p) ∧ t.gpio.out = s.gpio.out ∧ P u t := by
  obtain ⟨n, u, hpins, hsel, htx, hrx, hother⟩ := init_pins_run hop
  obtain ⟨m, t, hrun, hend, hgpio, hP⟩ := engine u hsel.1
  have hout : u.gpio.out = s.gpio.out := by
    obtain ⟨-, -, -, -, -, -, -, -, -, -, -, hout, -⟩ := hsel
    exact hout
  rw [← hgpio] at htx hrx hother hout
  exact ⟨n + m, u, t, (execTimes_add _ _ _ _ _ hpins).trans hrun, hsel, State.initEnded_of_selected hsel hend, htx, hrx,
    hother, hout, hP⟩

/-- Settles O41: the pins, then the Mini UART's engine. -/
theorem initMiniCompletes : Obligations.InitMiniCompletes := by
  intro s hop hv
  obtain ⟨n, u, t, hrun, hsel, hend, htx, hrx, hother, hout, haux, hpl, hmu⟩ := init_run hop
    (P := fun u t => t.aux = { u.aux with enMu := true } ∧ t.pl = u.pl ∧ t.mu = u.mu.initialised u.cfg)
    fun u hc => by
      rw [initAfterPin_rxPin_mini (by rw [hc]; exact hv)]
      obtain ⟨t, hrun, hend, hgpio, hblocks⟩ := init_engine_mini (u.pause_op .uartInit .enables)
      exact ⟨7, t, hrun, ⟨hend.op, hend.opc, hend.drv, hend.status, hend.x, hend.ram⟩, hgpio, hblocks⟩
  obtain ⟨hcfg, -, -, -, -, -, -, haux', -, -, -, -, hmu', hpl'⟩ := hsel
  rw [hv] at htx hrx
  rw [haux'] at haux
  rw [← hpl] at hpl'
  have hm : t.mu = s.mu.initialised s.cfg := by
    rw [hmu, hcfg]
    rcases hmu' with h | h <;> rw [h]
    exact Mu.initialised_corrupt ..
  refine ⟨n, t, hrun, hend.op, hend.opc, hend.drv, hend.status, htx, hrx, hother, hout, haux, ?_⟩
  rw [hm]
  exact ⟨rfl, rfl, hpl', rfl, rfl, rfl, rfl, rfl, rfl, rfl, rfl, TxFrame.map_byte_corrupt _, State.initEnded_reg hend,
    State.initEnded_sameRam hend⟩

/-! ### The PL011's divisors (R172) -/

/-- The divisor in 64ths: 64 for each whole, and the fraction's, rounded to nearest. -/
theorem pl011Div64_eq (c : Config) : pl011Div64 c = 64 * (c.uartClk / (16 * c.baud)) +
    (64 * (c.uartClk % (16 * c.baud)) + 8 * c.baud) / (16 * c.baud) := by
  rcases Nat.eq_zero_or_pos c.baud with h0 | hpos
  · simp [pl011Div64, h0]
  · have hclk := Nat.div_add_mod c.uartClk (16 * c.baud)
    generalize c.uartClk / (16 * c.baud) = q at *
    generalize c.uartClk % (16 * c.baud) = r at *
    have hsum : 2 * 64 * c.uartClk + 16 * c.baud = 2 * (64 * r + 8 * c.baud) + 2 * (16 * c.baud) * (64 * q) := by
      rw [← hclk]; ring
    rw [pl011Div64, hsum, Nat.add_mul_div_left _ _ (by omega), Nat.mul_div_mul_left _ _ (by omega), Nat.add_comm]

/-- The fraction rounds to at most 64 64ths. -/
theorem sixtyFourths_le (clk baud : Nat) : (64 * (clk % (16 * baud)) + 8 * baud) / (16 * baud) ≤ 64 := by
  rcases Nat.eq_zero_or_pos baud with rfl | hpos
  · simp
  · have hlt := Nat.mod_lt clk (show 0 < 16 * baud by omega)
    refine Nat.le_of_lt_succ ((Nat.div_lt_iff_lt_mul (by omega)).2 ?_)
    omega

/-- Settles O42: the pins, then the full UART's engine; the carry of R172 is that of the division by 64. -/
theorem initFullCompletes : Obligations.InitFullCompletes := by
  intro s hop hv
  obtain ⟨n, u, t, hrun, hsel, hend, htx, hrx, hother, hout, haux, hmu, hpl⟩ := init_run hop
    (P := fun u t => t.aux = u.aux ∧ t.mu = u.mu ∧ t.pl = u.pl.initialised u.cfg)
    fun u hc => by
      rw [initAfterPin_rxPin_full (by rw [hc]; exact hv)]
      obtain ⟨t, hrun, hend, hgpio, hblocks⟩ :=
        init_engine_full (u.pause_op .uartInit (.writes (initWritesFull u.cfg)))
      exact ⟨6, t, hrun, ⟨hend.op, hend.opc, hend.drv, hend.status, hend.x, hend.ram⟩, hgpio, hblocks⟩
  obtain ⟨hcfg, -, -, -, -, -, -, haux', -, -, -, -, hmu', hpl'⟩ := hsel
  rw [hv] at htx hrx
  rw [← hmu] at hmu'
  have hp : t.pl = s.pl.initialised s.cfg := by
    rw [hpl, hcfg]
    rcases hpl' with h | h <;> rw [h]
    exact Pl011.initialised_corrupt ..
  refine ⟨n, t, hrun, hend.op, hend.opc, hend.drv, hend.status, htx, hrx, hother, hout, haux.trans haux', ?_, hmu', ?_⟩
  · have hle := sixtyFourths_le s.cfg.uartClk s.cfg.baud
    have hdiv := pl011Div64_eq s.cfg
    dsimp only [pl011Ibrd, pl011Fbrd]
    generalize s.cfg.uartClk / (16 * s.cfg.baud) = whole at *
    generalize (64 * (s.cfg.uartClk % (16 * s.cfg.baud)) + 8 * s.cfg.baud) / (16 * s.cfg.baud) = sixtyFourths at *
    split_ifs with hcarry
    · exact ⟨congrArg _ (by omega), congrArg _ (by omega)⟩
    · exact ⟨congrArg _ (by omega), congrArg _ (by omega)⟩
  · rw [hp]
    have hdepth : (s.pl.initialised s.cfg).depth = 16 := by simp [Pl011.depth, Pl011.initialised, pl011Depth]
    have hok : (s.pl.initialised s.cfg).lineCfg.ok s.cfg = true := by
      simp [PlCfg.ok, Pl011.lineCfg, Pl011.initialised]
    exact ⟨rfl, rfl, rfl, rfl, rfl, rfl, rfl, hdepth, hok, rfl, rfl, rfl, rfl, rfl, rfl, TxFrame.map_byte_corrupt _,
      State.initEnded_reg hend, State.initEnded_sameRam hend⟩

end Sys2Proof.Machine
end

section
/-! Every answer of `UART_INIT`, and its frame (43_uart_common.md R273, R281; 46_gpio.md R401). -/

namespace Sys2Proof.Machine

/-- The end of the pause or of the operation that follows a write of `UART_INIT`. -/
def State.afterInitWrite (u t : State) : Prop := t = u.initDone ∨ ∃ m, t = u.pause .uartInit m

section
variable {s t : State}

/-- The writes that are left: none, or the first faults or is made. -/
theorem initWrite_cases {ws : List (Block × Nat × Word)} (h : initWrite ws s = .next t) : t = s.initDone ∨
    ∃ w ∈ ws, (∃ c, checkWrite w.1 w.2.1 w.2.2 s = .error c ∧ t = s.raise c) ∨
      ∃ r, checkWrite w.1 w.2.1 w.2.2 s = .ok r ∧ (s.writeReg w.1 w.2.1 r w.2.2).afterInitWrite t := by
  have one {blk : Block} {off : Nat} {v : Word} {k : State → State} (hk : ∀ u : State, u.afterInitWrite (k u))
      (h : (regWrite blk off v s fun u => .next (k u)) = .next t) :
      (∃ c, checkWrite blk off v s = .error c ∧ t = s.raise c) ∨
        ∃ r, checkWrite blk off v s = .ok r ∧ (s.writeReg blk off r v).afterInitWrite t := by
    cases hc : checkWrite blk off v s with
    | error c =>
      rw [regWrite_error hc] at h
      cases h
      exact .inl ⟨c, rfl, rfl⟩
    | ok r =>
      rw [regWrite_ok hc] at h
      cases h
      exact .inr ⟨r, rfl, hk _⟩
  match ws with
  | [] => cases h; exact .inl rfl
  | [(blk, off, v)] => exact .inr ⟨_, List.mem_cons_self, one (fun u => .inl rfl) h⟩
  | (blk, off, v) :: w :: rest => exact .inr ⟨_, List.mem_cons_self, one (fun u => .inr ⟨_, rfl⟩) h⟩

/-- One access of a pin's selection pauses the operation. -/
theorem initSelect_selected {pin : Nat} (hp : pin < 60) {ph : SelPhase} (h : initSelect pin ph s = .next t) :
    ∃ u m, s.selected u ∧ t = u.pause .uartInit m := by
  refine Res.of_all (Q := fun t => ∃ u m, s.selected u ∧ t = u.pause .uartInit m)
    (selectFunction_all hp (fun u m hu => ⟨u, _, hu, rfl⟩) fun u hu => ?_) h
  unfold initAfterPin
  split_ifs
  · exact ⟨u, _, hu, rfl⟩
  · cases u.cfg.variant
    · exact ⟨u, _, hu, rfl⟩
    · exact ⟨u, _, hu, rfl⟩

/-- Every answer of `UART_INIT`: an access of the pins' selection or the read of the enables, after which it pauses, or
one of its engine's writes. -/
theorem exec_uartInit_cases (h : exec .uartInit s = .next t) :
    (∃ u m, s.selected u ∧ t = u.pause .uartInit m) ∨
      ∃ ws, s.op = some ⟨.uartInit, .writes ws⟩ ∧ initWrite ws s = .next t := by
  simp only [exec, execUartInit] at h
  split at h
  · split_ifs at h
    · exact .inl (initSelect_selected (by decide) h)
    · exact .inl (initSelect_selected (by decide) h)
  · rename_i heq
    have hexec := exec_uartInit_enables (State.op_of_microOf heq nofun)
    simp only [exec, execUartInit, heq] at hexec
    rw [hexec] at h
    cases h
    exact .inl ⟨_, _, by simp [State.selected, State.readEffect], rfl⟩
  · rename_i heq
    exact .inr ⟨_, State.op_of_microOf heq nofun, h⟩
  · exact .inl (initSelect_selected (by decide) h)

/-- The writes of an initialisation in a sound state go to registers of the selected UART's block, no data register among
them. -/
theorem State.initWrite_sound (hs : s.sound) {ws : List (Block × Nat × Word)} (hop : s.op = some ⟨.uartInit, .writes ws⟩)
    {w : Block × Nat × Word} (hw : w ∈ ws) {r : PReg} (hr : regAt w.1 w.2.1 = some r) :
    r.block = s.uartBlock ∧ r ≠ .mu .io ∧ r ≠ .uart .dr := by
  obtain ⟨-, -, hmicro⟩ := hs
  obtain ⟨hblk, hio, hdr⟩ := hmicro _ hop w hw
  rw [hr, Ne, Option.some.injEq] at hio hdr
  exact ⟨(block_of_regAt hr).trans hblk, hio, hdr⟩

/-! ### The frame -/

/-- What every micro-step of `UART_INIT` leaves alone, or makes of the driver's state. -/
def State.initFrame (s t : State) : Prop :=
  SameRegsBut [] s t ∧ SameRam s t ∧ t.lineOut = s.lineOut ∧ t.lineIn = s.lineIn ∧ SameProgram s t ∧
    t.sched = s.sched ∧ (s.drv = .ready → t.drv = .ready)

/-- The UART of the other variant stays, but for the frame in its shifter. -/
def State.otherUartKept (s t : State) : Prop :=
  (s.cfg.variant = .mini → t.pl = s.pl ∨ t.pl = s.pl.corrupt) ∧
    (s.cfg.variant = .full → t.aux = s.aux ∧ (t.mu = s.mu ∨ t.mu = s.mu.corrupt))

theorem State.initFrame_selected {u : State} (h : s.selected u) (m : Micro) : s.initFrame (u.pause .uartInit m) := by
  obtain ⟨hcfg, hprog, hx, -, hram, -, hdrv, -, hout, hin, hsched, -⟩ := h
  exact ⟨fun r _ => by simp [State.reg, hx], fun a => by simp [State.ramByte, hram], hout, hin, ⟨hprog, hcfg⟩, hsched,
    fun hd => hdrv.trans hd⟩

theorem State.initFrame_write {b : Block} {off : Nat} {r : PReg} {v : Word}
    (h : (s.writeReg b off r v).afterInitWrite t) : s.initFrame t := by
  rcases h with rfl | ⟨m, rfl⟩ <;> simp [State.initFrame, SameRegsBut, SameRam, SameProgram, State.reg, State.ramByte]

theorem State.blocks_afterInitWrite {u : State} (h : u.afterInitWrite t) :
    t.gpio = u.gpio ∧ t.aux = u.aux ∧ t.mu = u.mu ∧ t.pl = u.pl := by
  rcases h with rfl | ⟨m, rfl⟩ <;> simp

/-- A write of the selected UART's block leaves the latches and the other UART. -/
theorem State.otherUartKept_write {b : Block} {off : Nat} {r : PReg} {v : Word} (hr : r.block = s.uartBlock)
    (h : (s.writeReg b off r v).afterInitWrite t) : t.gpio.out = s.gpio.out ∧ s.otherUartKept t := by
  obtain ⟨hgpio, haux, hmu, hpl⟩ := State.blocks_afterInitWrite h
  rw [State.uartBlock] at hr
  have hg : r.block ≠ .gpio := by rw [hr]; cases s.cfg.variant <;> nofun
  refine ⟨by rw [hgpio, State.writeReg_gpio, State.writeEffect_gpio_of_block s v hg], fun hv => ?_, fun hv => ?_⟩
  · rw [hpl, State.writeReg_pl]
    exact (s.writeEffect_pl_of_block v (by rw [hr, hv]; nofun)).imp_right And.right
  · obtain ⟨ha, hm⟩ := s.writeEffect_aux_of_block v (show r.block ≠ .aux by rw [hr, hv]; nofun)
    rw [haux, hmu, State.writeReg_aux, State.writeReg_mu]
    exact ⟨ha, hm.imp_right And.right⟩

end

/-- Settles O55: the two kinds of answer, and for the writes what soundness says of their block. -/
theorem initFrame : Obligations.InitFrame := by
  intro s t h
  suffices hframe : s.initFrame t ∧ ((∀ ws, s.op ≠ some ⟨.uartInit, .writes ws⟩) → t.gpio.out = s.gpio.out) ∧
      (s.sound → t.gpio.out = s.gpio.out ∧ s.otherUartKept t) by
    obtain ⟨⟨hregs, hram, hout, hin, hprog, hsched, hdrv⟩, hlatch, hsound⟩ := hframe
    exact ⟨hregs, hram, hout, hin, hprog, hsched, hdrv, hlatch, hsound⟩
  rcases exec_uartInit_cases h with ⟨u, m, hsel, rfl⟩ | ⟨ws, hop, hw⟩
  · refine ⟨State.initFrame_selected hsel m, ?_⟩
    obtain ⟨-, -, -, -, -, -, -, haux, -, -, -, hout, hmu, hpl⟩ := hsel
    exact ⟨fun _ => hout, fun _ => ⟨hout, fun _ => hpl, fun _ => ⟨haux, hmu⟩⟩⟩
  · rcases initWrite_cases hw with rfl | ⟨w, hmem, ⟨c, -, rfl⟩ | ⟨r, hc, ht⟩⟩
    · simp [State.initFrame, State.otherUartKept, SameRegsBut, SameRam, SameProgram, State.reg, State.ramByte]
    · simp [State.initFrame, State.otherUartKept, SameRegsBut, SameRam, SameProgram, State.reg, State.ramByte]
    · refine ⟨State.initFrame_write ht, fun hno => absurd hop (hno ws), fun hs => ?_⟩
      obtain ⟨hblk, -, -⟩ := State.initWrite_sound hs hop hmem (checkWrite_ok_iff.1 hc).1
      exact State.otherUartKept_write hblk ht

end Sys2Proof.Machine
end

section
/-! No transmit overflow but by `REG_WR` (43_uart_common.md R274; 60_exceptions.md R512): only a write of a data register
raises it, and a driver operation writes one only after it saw room. -/

namespace Sys2Proof.Machine

/-- No transmit overflow has stopped the CPU agent. -/
def State.noOverflow (s : State) : Prop := ∀ u o, s.status ≠ .faulted (.txOverflow u) o

section
variable {s t : State}

theorem State.noOverflow_of_status (h : s.noOverflow) (ht : t.status = s.status) : t.noOverflow := fun u o => by
  rw [ht]; exact h u o

theorem State.noOverflow_raise {c : Cause} (hc : ∀ u, c ≠ .txOverflow u) : (s.raise c).noOverflow := fun u o => by
  simp [hc u]

theorem State.noOverflow_of_running (h : s.status = .running) : s.noOverflow := fun u o => by rw [h]; nofun

/-! ### The checks -/

section
variable {b : Block} {off : Nat} {v : Word} {c : Cause}

theorem checkRead_no_overflow (h : checkRead b off s = .error c) (u : Uart) : c ≠ .txOverflow u := by
  unfold checkRead at h
  split at h
  · cases h; nofun
  · split_ifs at h
    cases h; nofun

/-- A write that overflows is one of a data register. -/
theorem regAt_of_overflow {u : Uart} (h : checkWrite b off v s = .error (.txOverflow u)) :
    regAt b off = some (.mu .io) ∨ regAt b off = some (.uart .dr) := by
  unfold checkWrite at h
  split at h
  · cases h
  · rename_i r hr
    split_ifs at h
    · cases h
    · cases h
    · split at h
      · rename_i c hf
        cases h
        rw [hr]
        cases r with
        | mu q => cases q <;> simp [writeFault] at hf ⊢
        | uart q => cases q <;> simp [writeFault] at hf ⊢
        | _ => simp [writeFault] at hf
      · cases h

/-- A write outside the data registers does not overflow. -/
theorem checkWrite_no_overflow (h : checkWrite b off v s = .error c) (hio : regAt b off ≠ some (.mu .io))
    (hdr : regAt b off ≠ some (.uart .dr)) (u : Uart) : c ≠ .txOverflow u := by
  rintro rfl
  exact (regAt_of_overflow h).elim hio hdr

end

/-! ### The instructions other than the driver's UART operations and `REG_WR` -/

theorem noOverflow_withReg {r : RegIdx} {k : Word → Res} (hk : ∀ v, (k v).all State.noOverflow) :
    (withReg r s k).all State.noOverflow :=
  withReg_all (fun _ => State.noOverflow_raise nofun) fun v _ => hk v

theorem noOverflow_withRam {a n : Nat} {k : Res} (hk : k.all State.noOverflow) :
    (withRam a n s k).all State.noOverflow :=
  withRam_all (fun _ => State.noOverflow_raise nofun) fun _ => hk

theorem State.selected_status {u : State} (h : s.selected u) : u.status = s.status := by
  obtain ⟨-, -, -, -, -, hst, -⟩ := h
  exact hst

section
variable (h : s.noOverflow)
include h

theorem noOverflow_execRegRd (xd : RegIdx) (blk : BitVec 4) (off : Imm12) :
    (execRegRd xd blk off s).all State.noOverflow :=
  withBlock_all (fun _ => State.noOverflow_raise nofun) fun _ _ =>
    regRead_all (fun _ hc => State.noOverflow_raise (checkRead_no_overflow hc)) fun _ _ =>
      State.noOverflow_of_status h (by simp)

theorem noOverflow_bitOp (f : Word → Nat → Word) (xd xs : RegIdx) (n : Imm12) :
    (bitOp f xd xs n s).all State.noOverflow :=
  noOverflow_withReg fun _ => withBitIndex_all (fun _ => State.noOverflow_raise nofun) fun _ =>
    State.noOverflow_of_status h rfl

theorem noOverflow_branch (xs : RegIdx) (p : Word → Prop) [DecidablePred p] (a b : Int) :
    (withReg xs s fun v => .next (if p v then s.goto a else s.goto b)).all State.noOverflow :=
  noOverflow_withReg fun v => by
    show State.noOverflow (if p v then s.goto a else s.goto b)
    split_ifs
    · exact State.noOverflow_of_status h rfl
    · exact State.noOverflow_of_status h rfl

theorem noOverflow_writeBank (lo hi p : Nat) : (writeBank lo hi p s).all State.noOverflow := by
  have gpio (off : Nat) (v : Word) : (regWrite .gpio off v s fun t => .next t.finish).all State.noOverflow := by
    refine regWrite_all (fun c hc => State.noOverflow_raise (checkWrite_no_overflow hc ?_ ?_)) fun r _ =>
      State.noOverflow_of_status h (by simp)
    · exact fun hr => by cases block_of_regAt hr
    · exact fun hr => by cases block_of_regAt hr
  unfold writeBank
  split_ifs
  · exact gpio _ _
  · exact gpio _ _
  · exact State.noOverflow_raise nofun

theorem noOverflow_gpioSetOutput (pin : Imm12) : (execGpioSetOutput pin s).all State.noOverflow := by
  unfold execGpioSetOutput
  dsimp only
  split_ifs with hp
  · exact State.noOverflow_of_status h rfl
  · have hp60 : uimm12 pin < 60 := by
      simp only [pinsPerFsel, numFsel] at hp
      omega
    have select (ph : SelPhase) : Res.all State.noOverflow (selectFunction (.gpioSetOutput pin) (uimm12 pin) fnOutput ph
        s fun t => .next t.finish) := by
      refine selectFunction_all hp60 (fun u m hu => ?_) fun u hu => ?_ <;>
        (have hst := State.selected_status hu
         exact State.noOverflow_of_status h hst)
    split
    · exact select _
    · exact select _

/-- From a sound state the writes of an initialisation reach no data register. -/
theorem noOverflow_uartInit (hs : s.sound) (hexec : exec .uartInit s = .next t) : t.noOverflow := by
  rcases exec_uartInit_cases hexec with ⟨u, m, hsel, rfl⟩ | ⟨ws, hop, hw⟩
  · have hst := State.selected_status hsel
    exact State.noOverflow_of_status h hst
  · rcases initWrite_cases hw with rfl | ⟨w, hmem, ⟨c, hc, rfl⟩ | ⟨r, -, rfl | ⟨m, rfl⟩⟩⟩
    · exact State.noOverflow_of_status h rfl
    · obtain ⟨-, -, hmicro⟩ := hs
      obtain ⟨-, hio, hdr⟩ := hmicro _ hop w hmem
      exact State.noOverflow_raise (checkWrite_no_overflow hc hio hdr)
    · exact State.noOverflow_of_status h (by simp)
    · exact State.noOverflow_of_status h (by simp)

end

/-- From a sound state, of all instructions only `REG_WR` can end with a transmit overflow. -/
theorem noOverflow_exec (hs : s.sound) (hrun : s.status = .running) {i : Instr} (hi : ∀ x b f, i ≠ .regWr x b f)
    (hexec : exec i s = .next t) : t.noOverflow := by
  have h := State.noOverflow_of_running hrun
  have uart {dests : List RegIdx} (hi) : t.noOverflow :=
    (uartStep_of_exec (dests := dests) hi hexec).no_overflow hs hrun
  cases i with
  | regWr x b f => exact absurd rfl (hi x b f)
  | regRd xd blk off => exact Res.of_all (noOverflow_execRegRd h xd blk off) hexec
  | setBit xd xs n => exact Res.of_all (noOverflow_bitOp h _ xd xs n) hexec
  | clearBit xd xs n => exact Res.of_all (noOverflow_bitOp h _ xd xs n) hexec
  | toggleBit xd xs n => exact Res.of_all (noOverflow_bitOp h _ xd xs n) hexec
  | isBitSet xd xs n => exact Res.of_all (noOverflow_bitOp h _ xd xs n) hexec
  | readBit xd xs n => exact Res.of_all (noOverflow_bitOp h _ xd xs n) hexec
  | uartInit => exact noOverflow_uartInit h hs hexec
  | uartWriteByte p => exact uart (dests := []) (by simp)
  | uartWriteString p q => exact uart (dests := []) (by simp)
  | uartReadByte p q => exact uart (dests := [p, q]) (by simp)
  | uartFlush => exact uart (dests := []) (by simp)
  | uartReadLine d p q => exact uart (dests := [d]) (by simp)
  | uartIsDataReady d => exact uart (dests := [d]) (by simp)
  | gpioSetOutput pin => exact Res.of_all (noOverflow_gpioSetOutput h pin) hexec
  | gpioSetHigh pin => exact Res.of_all (noOverflow_writeBank h _ _ _) hexec
  | gpioSetLow pin => exact Res.of_all (noOverflow_writeBank h _ _ _) hexec
  | li xd imm => cases hexec; exact State.noOverflow_of_status h rfl
  | lih xd imm =>
    exact Res.of_all (o := execLih xd imm s) (noOverflow_withReg fun _ => State.noOverflow_of_status h rfl) hexec
  | addi xd xs imm =>
    exact Res.of_all (o := execAddi xd xs imm s) (noOverflow_withReg fun _ => State.noOverflow_of_status h rfl) hexec
  | ldb xd xb imm =>
    exact Res.of_all (o := execLdb xd xb imm s)
      (noOverflow_withReg fun _ => noOverflow_withRam (State.noOverflow_of_status h rfl)) hexec
  | stb xs xb imm =>
    exact Res.of_all (o := execStb xs xb imm s) (noOverflow_withReg fun _ => noOverflow_withReg fun _ =>
      noOverflow_withRam (State.noOverflow_of_status h rfl)) hexec
  | bz xs off => exact Res.of_all (noOverflow_branch h xs (· = 0) _ _) hexec
  | bnz xs off => exact Res.of_all (noOverflow_branch h xs (· = 0) _ _) hexec
  | j off => cases hexec; exact State.noOverflow_of_status h rfl
  | halt => cases hexec; exact fun _ _ => nofun

end

/-- Settles O53: no instruction but `REG_WR` ends its micro-step with a transmit overflow. -/
theorem driverNeverOverflows : Obligations.DriverNeverOverflows := by
  intro s t i u o hs _ hrun hexec hst
  by_contra hi
  exact noOverflow_exec hs hrun (fun x b f h => hi ⟨x, b, f, h⟩) hexec u o hst

end Sys2Proof.Machine
end

section
/-! The host's send step (43_uart_common.md R279, R280; 44_uart_mini.md R307, R308; 45_uart_pl011.md R357, R358). -/

namespace Sys2Proof.Machine

section
variable {s : State} {c : Byte}

/-! ### Where the receive pin leads (R279) -/

theorem State.rxUart_mu (h : s.gpio.fselAt 15 = 0b010) : s.rxUart = some .mu := by
  simp [State.rxUart, State.rxRouted, rxPin, altOfUart, altMini, h]

theorem State.rxUart_pl011 (h : s.gpio.fselAt 15 = 0b100) : s.rxUart = some .pl011 := by
  simp [State.rxUart, State.rxRouted, rxPin, altOfUart, altMini, altFull, h]

theorem State.rxUart_none (hmu : s.gpio.fselAt 15 ≠ 0b010) (hpl : s.gpio.fselAt 15 ≠ 0b100) : s.rxUart = none := by
  have hmu' : s.rxRouted .mu = false := beq_eq_false_iff_ne.2 hmu
  have hpl' : s.rxRouted .pl011 = false := beq_eq_false_iff_ne.2 hpl
  simp [State.rxUart, hmu', hpl']

/-! ### The byte at the head of `LINE_IN` (R58) -/

theorem LineIn.head_isSome (l : LineIn) : l.head.isSome = true ↔ l.listed ≠ [] ∨ l.endless = true := by
  unfold LineIn.head
  cases hl : l.listed with
  | nil => cases l.endless <;> simp
  | cons c rest => simp

theorem LineIn.head_listed {l : LineIn} {rest : List Byte} (h : l.listed = c :: rest) :
    l.head = some c ∧ l.drop = { l with listed := rest } := by
  simp [LineIn.head, LineIn.drop, h]

/-! ### The step by where the byte goes -/

section
variable (hc : s.lineIn.head = some c)
include hc

theorem State.hostStep_unrouted (h : s.rxUart = none) :
    s.hostStep = { s with lineIn := s.lineIn.drop, ev := s.ev ++ [.rxl none c .unrouted] } := by
  simp only [State.hostStep, hc, h, State.emit]

theorem State.hostStep_mu (h : s.rxUart = some .mu) :
    s.hostStep = { s with lineIn := s.lineIn.drop }.muReceive c := by
  simp only [State.hostStep, hc, h]

theorem State.hostStep_pl011 (h : s.rxUart = some .pl011) :
    s.hostStep = { s with lineIn := s.lineIn.drop }.plReceive c := by
  simp only [State.hostStep, hc, h]

end

/-! ### A byte arrives -/

theorem State.muRxEnabled_eq_false_iff : s.muRxEnabled = false ↔ s.aux.enMu = false ∨ s.mu.cntl.getLsbD 0 = false :=
  Bool.and_eq_false_iff

theorem Pl011.rxEnabled_eq_false_iff (u : Pl011) :
    u.rxEnabled = false ↔ u.cr.getLsbD 0 = false ∨ u.cr.getLsbD 9 = false := Bool.and_eq_false_iff

theorem State.muReceive_disabled (h : s.muRxEnabled = false) :
    s.muReceive c = { s with ev := s.ev ++ [.rxl (some .mu) c .disabled] } := by
  simp only [State.muReceive, h, Bool.not_false, if_true, State.emit]

theorem State.plReceive_disabled (h : s.pl.rxEnabled = false) :
    s.plReceive c = { s with ev := s.ev ++ [.rxl (some .pl011) c .disabled] } := by
  simp only [State.plReceive, h, Bool.not_false, if_true, State.emit]

theorem State.muReceive_full (h : s.muRxEnabled = true) (hfull : s.mu.rxf.length = 8) : s.muReceive c =
    { s with mu := { s.mu with ovr := true }, ev := s.ev ++ [.rxl (some .mu) c .overrun] } := by
  have hf : s.mu.rxFull = true := decide_eq_true hfull
  simp only [State.muReceive, h, hf, Bool.not_true, Bool.false_eq_true, if_true, if_false, State.emit]

theorem State.plReceive_full (h : s.pl.rxEnabled = true) (hfull : s.pl.rxf.length = s.pl.depth) : s.plReceive c =
    { s with pl := { s.pl with oe := true }, ev := s.ev ++ [.rxl (some .pl011) c .overrun] } := by
  have hf : s.pl.rxff = true := decide_eq_true hfull
  simp only [State.plReceive, h, hf, Bool.not_true, Bool.false_eq_true, if_true, if_false, State.emit]

theorem State.muReceive_room (h : s.muRxEnabled = true) (hroom : s.mu.rxf.length ≠ 8) {b : Byte}
    (hb : s.received (s.mu.lineCfg.ok s.cfg) c = b) : s.muReceive c =
      { s with mu := { s.mu with rxf := s.mu.rxf ++ [b] }, draws := s.draws + 1, ev := s.ev ++ [.rxp .mu b] } := by
  have hf : s.mu.rxFull = false := decide_eq_false hroom
  simp only [State.muReceive, h, hf, hb, Bool.not_true, Bool.false_eq_true, if_false, State.emit]

theorem State.plReceive_room (h : s.pl.rxEnabled = true) (hroom : s.pl.rxf.length ≠ s.pl.depth) {b : Byte}
    (hb : s.received (s.pl.lineCfg.ok s.cfg) c = b) : s.plReceive c =
      { s with pl := { s.pl with rxf := s.pl.rxf ++ [b] }, draws := s.draws + 1, ev := s.ev ++ [.rxp .pl011 b] } := by
  have hf : s.pl.rxff = false := decide_eq_false hroom
  simp only [State.plReceive, h, hf, hb, Bool.not_true, Bool.false_eq_true, if_false, State.emit]

end

/-! ### Well-formed configurations -/

/-- `wf(MU, cfg)` field by field (R307). -/
theorem MuCfg.ok_iff {c : Config} {l : MuCfg} : l.ok c = true ↔ l.size = 0b11 ∧ l.baud = muBaudDiv c := by
  simp [MuCfg.ok]

/-- `wf(PL011, cfg)` field by field (R357). -/
theorem PlCfg.ok_iff {c : Config} {l : PlCfg} : l.ok c = true ↔ l.lcrh.extractLsb' 5 2 = 0b11 ∧
    l.lcrh.getLsbD 1 = false ∧ l.lcrh.getLsbD 3 = false ∧ l.lcrh.getLsbD 0 = false ∧ l.ibrd = pl011Ibrd c ∧
    l.fbrd = pl011Fbrd c := by
  simp [PlCfg.ok, and_assoc]

/-- Settles O58: the receive pin's UART, then the three fates of the byte there. -/
theorem hostSends : Obligations.HostSends := by
  refine ⟨fun s => ⟨s.lineIn.head_isSome, fun c rest => LineIn.head_listed⟩, fun s c hc => ⟨fun hmu hpl => ?_,
    fun hmu => ⟨fun hoff => ?_, fun hen hrx hfull => ?_, fun hen hrx hroom => ?_⟩,
    fun hpl => ⟨fun hoff => ?_, fun hen hrx hfull => ?_, fun hen hrx hroom => ?_⟩⟩⟩
  · exact State.hostStep_unrouted hc (State.rxUart_none hmu hpl)
  · rw [State.hostStep_mu hc (State.rxUart_mu hmu)]
    exact State.muReceive_disabled (State.muRxEnabled_eq_false_iff.2 hoff)
  · rw [State.hostStep_mu hc (State.rxUart_mu hmu)]
    exact State.muReceive_full (Bool.and_eq_true_iff.2 ⟨hen, hrx⟩) hfull
  · rw [State.hostStep_mu hc (State.rxUart_mu hmu),
      State.muReceive_room (s := { s with lineIn := s.lineIn.drop }) (Bool.and_eq_true_iff.2 ⟨hen, hrx⟩) hroom rfl]
    exact ⟨_, rfl, rfl, rfl, rfl, fun hsize hbaud => if_pos (MuCfg.ok_iff.2 ⟨hsize, hbaud⟩)⟩
  · rw [State.hostStep_pl011 hc (State.rxUart_pl011 hpl)]
    exact State.plReceive_disabled (Pl011.rxEnabled_eq_false_iff _ |>.2 hoff)
  · rw [State.hostStep_pl011 hc (State.rxUart_pl011 hpl)]
    exact State.plReceive_full (Bool.and_eq_true_iff.2 ⟨hen, hrx⟩) hfull
  · rw [State.hostStep_pl011 hc (State.rxUart_pl011 hpl),
      State.plReceive_room (s := { s with lineIn := s.lineIn.drop }) (Bool.and_eq_true_iff.2 ⟨hen, hrx⟩) hroom rfl]
    exact ⟨_, rfl, rfl, rfl, rfl, fun h5 h1 h3 h0 hi hf => if_pos (PlCfg.ok_iff.2 ⟨h5, h1, h3, h0, hi, hf⟩)⟩

end Sys2Proof.Machine
end

section
/-! What the host receives (43_uart_common.md R282; 44_uart_mini.md R307; 45_uart_pl011.md R357). -/

namespace Sys2Proof.Machine

section
variable {c : Config}

theorem hostReceives_exact {e : LineEntry} (h : e.exact c = true) {es : List LineEntry} {bs : List Byte} :
    hostReceives c (e :: es) bs ↔ ∃ rest, bs = e.byte :: rest ∧ hostReceives c es rest := by
  rw [hostReceives, if_pos h]

theorem hostReceives_inexact {e : LineEntry} (h : ¬e.exact c = true) {es : List LineEntry} {bs : List Byte} :
    hostReceives c (e :: es) bs ↔ ∃ junk rest, bs = junk ++ rest ∧ hostReceives c es rest := by
  rw [hostReceives, if_neg h]

/-- Of exact entries the host receives exactly the bytes. -/
theorem hostReceives_all_exact {out : List LineEntry} (h : ∀ e ∈ out, e.exact c = true) {bs : List Byte} :
    hostReceives c out bs ↔ bs = out.map LineEntry.byte := by
  induction out generalizing bs with
  | nil => rfl
  | cons e es ih =>
    rw [hostReceives_exact (h e (by simp))]
    simp only [ih fun e he => h e (List.mem_cons_of_mem _ he), List.map_cons]
    exact ⟨fun ⟨_, hbs, hrest⟩ => by rw [hbs, hrest], fun hbs => ⟨_, hbs, rfl⟩⟩

/-- The entries are received in order. -/
theorem hostReceives_append {out₁ out₂ : List LineEntry} {bs : List Byte} : hostReceives c (out₁ ++ out₂) bs ↔
    ∃ b₁ b₂, bs = b₁ ++ b₂ ∧ hostReceives c out₁ b₁ ∧ hostReceives c out₂ b₂ := by
  induction out₁ generalizing bs with
  | nil => simp [hostReceives]
  | cons e es ih =>
    rw [List.cons_append]
    by_cases h : e.exact c = true
    · simp only [hostReceives_exact h, ih]
      constructor
      · rintro ⟨_, rfl, b₁, b₂, rfl, h₁, h₂⟩
        exact ⟨_, b₂, rfl, ⟨b₁, rfl, h₁⟩, h₂⟩
      · rintro ⟨_, b₂, rfl, ⟨b₁, rfl, h₁⟩, h₂⟩
        exact ⟨_, rfl, b₁, b₂, rfl, h₁, h₂⟩
    · simp only [hostReceives_inexact h, ih]
      constructor
      · rintro ⟨junk, _, rfl, b₁, b₂, rfl, h₁, h₂⟩
        exact ⟨junk ++ b₁, b₂, (List.append_assoc ..).symm, ⟨junk, b₁, rfl, h₁⟩, h₂⟩
      · rintro ⟨_, b₂, rfl, ⟨junk, b₁, rfl, h₁⟩, h₂⟩
        exact ⟨junk, _, List.append_assoc .., b₁, b₂, rfl, h₁, h₂⟩

end

/-- Settles O59: exactness field by field, then the two laws of the reception. -/
theorem hostReceivesExactFrames : Obligations.HostReceivesExactFrames := by
  intro c good byte
  have hgood : ∀ e, good e ↔ e.exact c = true := by
    rintro (⟨f, routed⟩ | ⟨f, routed⟩)
    · simp [good, LineEntry.exact, MuCfg.ok_iff, muBaudDiv, and_assoc]
    · simp [good, LineEntry.exact, PlCfg.ok_iff, and_assoc]
  have hbyte : byte = LineEntry.byte := by
    funext e
    cases e <;> rfl
  refine ⟨fun out bs h => ?_, fun e bs h => ?_, fun out₁ out₂ bs => hostReceives_append⟩
  · rw [hbyte]
    exact hostReceives_all_exact fun e he => (hgood e).1 (h e he)
  · exact (hostReceives_inexact fun hex => h ((hgood e).2 hex)).2 ⟨bs, [], (List.append_nil bs).symm, rfl⟩

end Sys2Proof.Machine
end

section
/-! `UART_FLUSH` under fairness (43_uart_common.md R277, R283, R285): the work left on the transmit path never grows while
the operation spins, its engine's every step lowers it, and the CPU agent's step ends the spin once there is none. -/

namespace Sys2Proof.Machine

/-! ### The work left on the transmit path -/

/-- The engine steps that empty a transmit FIFO and its shifter: two for each byte queued, one for a frame begun. -/
def txWork {C : Type} (txf : List Byte) (busy : Option C) : Nat := 2 * txf.length + busy.toList.length

/-- The work left on the selected UART's transmit path. -/
def State.txBacklog (s : State) : Nat :=
  match s.cfg.variant with
  | .mini => txWork s.mu.txf s.mu.busy
  | .full => txWork s.pl.txf s.pl.busy

/-- The selected UART's transmitter is enabled. -/
def State.txEnabled (s : State) : Bool :=
  match s.cfg.variant with
  | .mini => s.muTxEnabled
  | .full => s.pl.txEnabled

/-- The engine of a variant's UART. -/
def engineOf : Variant → Agent
  | .mini => .mu
  | .full => .pl011

theorem txWork_eq_zero_iff {C : Type} {txf : List Byte} {busy : Option C} :
    txWork txf busy = 0 ↔ txf.isEmpty = true ∧ busy.isNone = true := by
  cases txf <;> cases busy <;> simp [txWork]

section
variable {s : State}

/-- No work is left exactly when the transmit path is idle. -/
theorem State.txBacklog_eq_zero_iff : s.txBacklog = 0 ↔ s.txPathIdle = true := by
  unfold State.txBacklog State.txPathIdle
  cases s.cfg.variant <;> simp only [txWork_eq_zero_iff, Bool.and_eq_true]

/-- A selected UART whose transmitter is enabled can be accessed. -/
theorem State.reachable_of_txEnabled (h : s.txEnabled = true) : s.uartReachable = true := by
  unfold State.txEnabled at h
  unfold State.uartReachable
  cases hv : s.cfg.variant <;> simp only [hv] at h ⊢
  exact (Bool.and_eq_true_iff.1 h).1

/-- With work left and its transmitter enabled, a UART's engine has an enabled step: it can finish the frame in the
shifter, or start the next. -/
theorem State.enabled_mu_of_work (h : s.muTxEnabled = true) (hw : txWork s.mu.txf s.mu.busy ≠ 0) :
    s.enabled .mu = true := by
  have hen : s.aux.enMu = true := (Bool.and_eq_true_iff.1 h).1
  cases hb : s.mu.busy with
  | some f => simp [State.enabled, State.muCanFinish, hen, hb]
  | none =>
    have ht : s.mu.txf ≠ [] := fun ht => hw (txWork_eq_zero_iff.2 (by simp [ht, hb]))
    simp [State.enabled, State.muCanStart, h, hb, ht]

theorem State.enabled_pl011_of_work (h : s.pl.txEnabled = true) (hw : txWork s.pl.txf s.pl.busy ≠ 0) :
    s.enabled .pl011 = true := by
  cases hb : s.pl.busy with
  | some f => simp [State.enabled, State.plCanFinish, hb]
  | none =>
    have ht : s.pl.txf ≠ [] := fun ht => hw (txWork_eq_zero_iff.2 (by simp [ht, hb]))
    simp [State.enabled, State.plCanStart, h, hb, ht]

theorem State.enabled_engine (h : s.txEnabled = true) (hw : s.txBacklog ≠ 0) :
    s.enabled (engineOf s.cfg.variant) = true := by
  unfold State.txEnabled at h
  unfold State.txBacklog at hw
  cases hv : s.cfg.variant <;> simp only [hv] at h hw
  · exact State.enabled_mu_of_work h hw
  · exact State.enabled_pl011_of_work h hw

/-! ### The engines' steps -/

/-- Starting a frame and finishing it each do a part of the work. -/
theorem txWork_start {C : Type} {txf rest : List Byte} {busy : Option C} {b : Byte} (ht : txf = b :: rest)
    (hb : busy = none) (f : C) : txWork rest (some f) < txWork txf busy := by
  subst ht hb
  simp [txWork]
  omega

theorem txWork_finish {C : Type} (txf : List Byte) {busy : Option C} {f : C} (hb : busy = some f) :
    txWork txf (none : Option C) < txWork txf busy := by
  subst hb
  simp [txWork]

theorem State.muStep_work (h : s.enabled .mu = true) :
    txWork s.muStep.mu.txf s.muStep.mu.busy < txWork s.mu.txf s.mu.busy := by
  unfold State.muStep
  split_ifs with hstart hfinish
  · simp only [State.muCanStart, Bool.and_eq_true, Option.isNone_iff_eq_none] at hstart
    obtain ⟨⟨-, hb⟩, ht⟩ := hstart
    cases htx : s.mu.txf with
    | nil => simp [htx] at ht
    | cons b rest => simpa [State.muStart, htx] using txWork_start rfl hb _
  · simp only [State.muCanFinish, Bool.and_eq_true, Option.isSome_iff_exists] at hfinish
    obtain ⟨-, f, hb⟩ := hfinish
    simpa [State.muFinish, hb] using txWork_finish s.mu.txf hb
  · simp [State.enabled, hstart, hfinish] at h

theorem State.plStep_work (h : s.enabled .pl011 = true) :
    txWork s.plStep.pl.txf s.plStep.pl.busy < txWork s.pl.txf s.pl.busy := by
  unfold State.plStep
  split_ifs with hstart hfinish
  · simp only [State.plCanStart, Bool.and_eq_true, Option.isNone_iff_eq_none] at hstart
    obtain ⟨⟨-, hb⟩, ht⟩ := hstart
    cases htx : s.pl.txf with
    | nil => simp [htx] at ht
    | cons b rest => simpa [State.plStart, htx] using txWork_start rfl hb _
  · obtain ⟨f, hb⟩ := Option.isSome_iff_exists.1 hfinish
    simpa [State.plFinish, hb] using txWork_finish s.pl.txf hb
  · simp [State.enabled, hstart, hfinish] at h

end

/-! ### What each agent does to a transmit path and to the operation in progress -/

/-- From `s` to `t` the operation in progress and the transmitter's enable stay, and the work left does not grow. -/
structure State.txProgress (s t : State) : Prop where
  cfg : t.cfg = s.cfg
  status : t.status = s.status
  op : t.op = s.op
  opc : t.opc = s.opc
  enabled : t.txEnabled = s.txEnabled
  work : t.txBacklog ≤ s.txBacklog

theorem State.txProgress.trans {s t u : State} (h : s.txProgress t) (h' : t.txProgress u) : s.txProgress u :=
  ⟨h'.cfg.trans h.cfg, h'.status.trans h.status, h'.op.trans h.op, h'.opc.trans h.opc, h'.enabled.trans h.enabled,
    h'.work.trans h.work⟩

section
variable (s : State)

theorem State.txProgress_afterTurn : s.txProgress s.afterTurn := by
  obtain ⟨l, d, h⟩ := s.afterTurn_eq
  rw [h]
  exact ⟨rfl, rfl, rfl, rfl, rfl, Nat.le_refl _⟩

/-- A step that leaves the CPU agent, the enables and the transmit registers makes progress, if it adds no work to either
UART. -/
theorem State.txProgress_of_uarts {s t : State} (hcfg : t.cfg = s.cfg) (hst : t.status = s.status) (hop : t.op = s.op)
    (hopc : t.opc = s.opc) (haux : t.aux = s.aux)
    (hmu : t.mu.cntl = s.mu.cntl ∧ txWork t.mu.txf t.mu.busy ≤ txWork s.mu.txf s.mu.busy)
    (hpl : t.pl.cr = s.pl.cr ∧ txWork t.pl.txf t.pl.busy ≤ txWork s.pl.txf s.pl.busy) : s.txProgress t := by
  refine ⟨hcfg, hst, hop, hopc, ?_, ?_⟩
  · simp only [State.txEnabled, State.muTxEnabled, Pl011.txEnabled, hcfg, haux, hmu.1, hpl.1]
  · unfold State.txBacklog
    rw [hcfg]
    cases s.cfg.variant
    · exact hmu.2
    · exact hpl.2

theorem State.txProgress_statusRead : s.txProgress s.statusRead := by
  obtain ⟨hcfg, -, -, hopc, -, hst, -, hop, -, haux, -⟩ := s.statusRead_keeps
  obtain ⟨hmu, hpl⟩ := s.statusRead_uarts
  refine State.txProgress_of_uarts hcfg hst hop hopc haux ?_ (by rw [hpl]; exact ⟨rfl, Nat.le_refl _⟩)
  rcases hmu with h | h <;> rw [h] <;> exact ⟨rfl, Nat.le_refl _⟩

theorem State.txProgress_muStep : s.txProgress s.muStep := by
  have hmu : s.muStep.mu.cntl = s.mu.cntl ∧ txWork s.muStep.mu.txf s.muStep.mu.busy ≤ txWork s.mu.txf s.mu.busy := by
    rcases s.muStep_mu with h | ⟨b, rest, f, ht, hb, h⟩ | ⟨f, hb, h⟩
    · rw [h]; exact ⟨rfl, Nat.le_refl _⟩
    · rw [h]; exact ⟨rfl, (txWork_start ht hb f).le⟩
    · rw [h]; exact ⟨rfl, (txWork_finish _ hb).le⟩
  obtain ⟨m, e, l, h⟩ := s.muStep_eq
  rw [h] at hmu ⊢
  exact State.txProgress_of_uarts rfl rfl rfl rfl rfl hmu ⟨rfl, Nat.le_refl _⟩

theorem State.txProgress_plStep : s.txProgress s.plStep := by
  have hpl : s.plStep.pl.cr = s.pl.cr ∧ txWork s.plStep.pl.txf s.plStep.pl.busy ≤ txWork s.pl.txf s.pl.busy := by
    rcases s.plStep_pl with h | ⟨b, rest, f, ht, hb, h⟩ | ⟨f, hb, h⟩
    · rw [h]; exact ⟨rfl, Nat.le_refl _⟩
    · rw [h]; exact ⟨rfl, (txWork_start ht hb f).le⟩
    · rw [h]; exact ⟨rfl, (txWork_finish _ hb).le⟩
  obtain ⟨u, e, l, h⟩ := s.plStep_eq
  rw [h] at hpl ⊢
  exact State.txProgress_of_uarts rfl rfl rfl rfl rfl ⟨rfl, Nat.le_refl _⟩ hpl

theorem State.txProgress_hostStep : s.txProgress s.hostStep := by
  obtain ⟨hm, hp⟩ := s.hostStep_uarts
  have hmu : s.hostStep.mu.cntl = s.mu.cntl ∧
      txWork s.hostStep.mu.txf s.hostStep.mu.busy ≤ txWork s.mu.txf s.mu.busy := by
    rcases hm with h | ⟨b, -, h⟩ | h <;> rw [h] <;> exact ⟨rfl, Nat.le_refl _⟩
  have hpl : s.hostStep.pl.cr = s.pl.cr ∧
      txWork s.hostStep.pl.txf s.hostStep.pl.busy ≤ txWork s.pl.txf s.pl.busy := by
    rcases hp with h | ⟨b, -, h⟩ | h <;> rw [h] <;> exact ⟨rfl, Nat.le_refl _⟩
  obtain ⟨m, u, i, e, d, h⟩ := s.hostStep_eq
  rw [h] at hmu hpl ⊢
  exact State.txProgress_of_uarts rfl rfl rfl rfl rfl hmu hpl

end

/-! ### A step of the machine from the spin -/

/-- The CPU agent is running and in the flush's spin at `k`, the selected UART's transmitter enabled. -/
structure State.flushing (c : Config) (k : Int) (s : State) : Prop where
  cfg : s.cfg = c
  status : s.status = .running
  op : s.op = some ⟨.uartFlush, .idlePoll⟩
  opc : s.opc = k
  enabled : s.txEnabled = true

/-- The flush at `k` has completed, and the transmit path is idle. -/
def State.flushed (k : Int) (s : State) : Prop :=
  s.op = none ∧ s.opc = k + 1 ∧ s.status = .running ∧ s.txPathIdle = true

section
variable {c : Config} {k : Int} {s t : State}

theorem State.flushing_of_progress (h : s.flushing c k) (hp : s.txProgress t) : t.flushing c k :=
  ⟨hp.cfg.trans h.cfg, hp.status.trans h.status, hp.op.trans h.op, hp.opc.trans h.opc, hp.enabled.trans h.enabled⟩

/-- The CPU agent's step ends the spin when no work is left, and else repeats the status read. -/
theorem State.flushing_cpuStep (h : s.flushing c k) :
    ∃ t, cpuStep s = .next t ∧ (t.flushed k ∨ s.txProgress t ∧ s.txBacklog ≠ 0) := by
  have hexec : cpuStep s = flushPoll s := by simp only [cpuStep, h.op, exec_uartFlush_poll h.op]
  rw [hexec, flushPoll, txIdle_eq (State.reachable_of_txEnabled h.enabled)]
  have hp := s.txProgress_statusRead
  cases hidle : s.txPathIdle with
  | true =>
    refine ⟨_, rfl, .inl ⟨rfl, ?_, ?_, ?_⟩⟩
    · exact congrArg (· + 1) (hp.opc.trans h.opc)
    · exact hp.status.trans h.status
    · simp [hidle]
  | false =>
    refine ⟨_, rfl, .inr ⟨⟨hp.cfg, hp.status, h.op.symm, hp.opc, hp.enabled, hp.work⟩, fun hw => ?_⟩⟩
    rw [State.txBacklog_eq_zero_iff.1 hw] at hidle
    cases hidle

/-- The choice of the next agent enables and disables nothing. -/
theorem State.enabled_afterTurn (s : State) (a : Agent) : s.afterTurn.enabled a = s.enabled a := by
  obtain ⟨l, d, h⟩ := s.afterTurn_eq
  rw [h]
  cases a <;> rfl

/-- The selected UART's engine, taking a step of its own, lowers the work left. -/
theorem State.muStep_lowers (hv : engineOf s.cfg.variant = .mu) (h : s.enabled .mu = true) :
    s.muStep.txBacklog < s.txBacklog := by
  have hcfg := s.txProgress_muStep.cfg
  unfold State.txBacklog
  rw [hcfg]
  cases hc : s.cfg.variant
  · exact State.muStep_work h
  · rw [hc] at hv
    cases hv

theorem State.plStep_lowers (hv : engineOf s.cfg.variant = .pl011) (h : s.enabled .pl011 = true) :
    s.plStep.txBacklog < s.txBacklog := by
  have hcfg := s.txProgress_plStep.cfg
  unfold State.txBacklog
  rw [hcfg]
  cases hc : s.cfg.variant
  · rw [hc] at hv
    cases hv
  · exact State.plStep_work h

/-- A step from the spin completes the flush, or stays in the spin with no more work: with less when it is the engine's,
and with some left when it is the CPU agent's. -/
theorem State.flushing_step (h : s.flushing c k) : ∃ t, step s = .next t ∧ (t.flushed k ∨ s.txProgress t ∧
    (s.turn = some .cpu → s.txBacklog ≠ 0) ∧ (s.turn = some (engineOf c.variant) → t.txBacklog < s.txBacklog)) := by
  have hp := s.txProgress_afterTurn
  have ha := State.flushing_of_progress h hp
  cases ht : s.turn with
  | none =>
    have hcpu : s.enabled .cpu = true := by simp [State.enabled, h.status]
    rcases (State.turn_none ht .cpu hcpu).1 with hc | hc <;> cases hc
  | some a =>
    have henabled := State.enabled_of_turn ht
    rw [← State.enabled_afterTurn] at henabled
    have hvariant : engineOf s.afterTurn.cfg.variant = engineOf c.variant := by rw [ha.cfg]
    cases a with
    | cpu =>
      obtain ⟨t, hexec, hdone | ⟨hpt, hw⟩⟩ := State.flushing_cpuStep ha
      · exact ⟨t, by simp only [step, ht, hexec], .inl hdone⟩
      · refine ⟨t, by simp only [step, ht, hexec], .inr ⟨hp.trans hpt, fun _ => ?_, fun hc => ?_⟩⟩
        · have := hp.work
          omega
        · cases hv : c.variant <;> rw [hv] at hc <;> cases hc
    | mu =>
      refine ⟨_, by simp only [step, ht], .inr ⟨hp.trans (State.txProgress_muStep _), nofun, fun hc => ?_⟩⟩
      exact (State.muStep_lowers (hvariant.trans (Option.some.inj hc).symm) henabled).trans_le hp.work
    | pl011 =>
      refine ⟨_, by simp only [step, ht], .inr ⟨hp.trans (State.txProgress_plStep _), nofun, fun hc => ?_⟩⟩
      exact (State.plStep_lowers (hvariant.trans (Option.some.inj hc).symm) henabled).trans_le hp.work
    | host =>
      refine ⟨_, by simp only [step, ht], .inr ⟨hp.trans (State.txProgress_hostStep _), nofun, fun hc => ?_⟩⟩
      cases hv : c.variant <;> rw [hv] at hc <;> cases hc

/-! ### Runs -/

section
variable {run : Nat → State} (hrun : IsRun run)
include hrun

/-- In a run, the step from the spin is the next state. -/
theorem flushing_run_step {n : Nat} (h : (run n).flushing c k) : (run (n + 1)).flushed k ∨ (run n).txProgress (run (n + 1)) ∧
    ((run n).turn = some .cpu → (run n).txBacklog ≠ 0) ∧
    ((run n).turn = some (engineOf c.variant) → (run (n + 1)).txBacklog < (run n).txBacklog) := by
  obtain ⟨t, hstep, ht⟩ := State.flushing_step h
  rcases hrun n with hn | ⟨hn, -⟩
  · cases hstep.symm.trans hn
    exact ht
  · cases hstep.symm.trans hn

/-- A flush that never completes stays in its spin, and its work never grows. -/
theorem flushing_forever {n : Nat} (h : (run n).flushing c k) (hno : ∀ m, ¬(run m).flushed k) {m : Nat} (hm : n ≤ m) :
    (run m).flushing c k ∧ (run m).txBacklog ≤ (run n).txBacklog := by
  induction m, hm using Nat.le_induction with
  | base => exact ⟨h, Nat.le_refl _⟩
  | succ m _ ih =>
    obtain ⟨hm, hw⟩ := ih
    rcases flushing_run_step hrun hm with hdone | ⟨hp, -⟩
    · exact absurd hdone (hno _)
    · exact ⟨State.flushing_of_progress hm hp, hp.work.trans hw⟩

/-- With the CPU agent and the selected UART's engine fairly scheduled, the flush completes, by induction on the work
left. -/
theorem flush_completes (hcpu : WeaklyFair .cpu run) (heng : WeaklyFair (engineOf c.variant) run) {n : Nat}
    (h : (run n).flushing c k) : ∃ m, (run m).flushed k := by
  by_contra hno
  rw [not_exists] at hno
  induction hw : (run n).txBacklog using Nat.strong_induction_on generalizing n with
  | _ w ih =>
    have hstay := fun m (hm : n ≤ m) => flushing_forever hrun h hno hm
    have hsame : ∀ m, n ≤ m → (run m).txBacklog = w := fun m hm => by
      obtain ⟨hf, hle⟩ := hstay m hm
      rcases Nat.lt_or_eq_of_le (hw ▸ hle) with hlt | heq
      · exact (ih _ hlt hf rfl).elim
      · exact heq
    rcases Nat.eq_zero_or_pos w with h0 | hpos
    · obtain ⟨m, hm, hturn⟩ := hcpu n fun m hm => by simp [State.enabled, (hstay m hm).1.status]
      rcases flushing_run_step hrun (hstay m hm).1 with hdone | ⟨-, hleft, -⟩
      · exact hno _ hdone
      · exact hleft hturn ((hsame m hm).trans h0)
    · obtain ⟨m, hm, hturn⟩ := heng n fun m hm => by
        rw [← (hstay m hm).1.cfg]
        exact State.enabled_engine (hstay m hm).1.enabled (by rw [hsame m hm]; omega)
      rcases flushing_run_step hrun (hstay m hm).1 with hdone | ⟨-, -, hlower⟩
      · exact hno _ hdone
      · have hlt := hlower hturn
        rw [hsame m hm, hsame (m + 1) (by omega)] at hlt
        exact Nat.lt_irrefl _ hlt

end

end

/-- Settles O60: the run starts in the spin, and its fairness is that of the CPU agent and of the engine. -/
theorem flushTerminatesUnderFairness : Obligations.FlushTerminatesUnderFairness := by
  intro run hrun hfair hclocked hst hop hmini hfull
  obtain ⟨hcpu, hengines, -⟩ := hfair
  obtain ⟨hmu, hpl⟩ := hengines hclocked
  have henabled : (run 0).txEnabled = true := by
    unfold State.txEnabled
    cases hv : (run 0).cfg.variant
    · exact hmini hv
    · exact hfull hv
  have heng : WeaklyFair (engineOf (run 0).cfg.variant) run := by
    cases (run 0).cfg.variant
    · exact hmu
    · exact hpl
  exact flush_completes hrun hcpu heng ⟨rfl, hst, hop, rfl, henabled⟩

end Sys2Proof.Machine
end

section
/-! The register accesses of an engine's initialisation, as the event history shows them (44_uart_mini.md R305;
45_uart_pl011.md R355). -/

namespace Sys2Proof.Machine

/-- Writes are recorded in order, one event each (R203). -/
theorem State.writeAll_ev (ws : List (Block × Nat × PReg × Word)) (s : State) :
    (s.writeAll ws).ev = s.ev ++ (placesOf ws).map fun w => .wr w.1 w.2.1 w.2.2 := by
  induction ws generalizing s with
  | nil => exact (List.append_nil _).symm
  | cons w ws ih =>
    obtain ⟨b, off, r, v⟩ := w
    rw [State.writeAll, ih, State.writeReg_ev, List.append_assoc]
    rfl

/-- Writes that pass their checks complete `UART_INIT` and are what the history gains. -/
theorem initWrites_run_ev {ws : List (Block × Nat × PReg × Word)} (hne : ws ≠ []) {s : State}
    (hop : s.op = some ⟨.uartInit, .writes (placesOf ws)⟩) (hpass : s.writesPass ws) :
    ∃ t, execTimes ws.length .uartInit s = .next t ∧ t.op = none ∧
      t.ev = s.ev ++ (placesOf ws).map fun w => .wr w.1 w.2.1 w.2.2 :=
  ⟨_, initWrites_run hne hop hpass, rfl, State.writeAll_ev ws s⟩

/-- Settles O43: the Mini UART's read, then the writes of either engine as `initWritesMini` and `initWritesFull` list
them. -/
theorem engineInitSequences : Obligations.EngineInitSequences := by
  intro s
  simp only [BitVec.ofNat_toNat]
  refine ⟨fun hop => ?_, fun hop => ?_⟩
  · have hread := exec_uartInit_enables hop
    obtain ⟨t, hrun, hdone, hev⟩ := initWrites_run_ev (ws := muInitWrites s.cfg (s.drawnOf .auxEnables).word)
      (by simp [muInitWrites]) (State.pause_op (s.readReg .aux 0x04 .auxEnables) _ _) (muInitWrites_pass _ _ _)
    refine ⟨(s.drawnOf .auxEnables).word, t, (execTimes_succ hread).trans hrun, hdone, ?_⟩
    rw [hev, State.pause_ev, State.readReg_ev, List.append_assoc]
    rfl
  · exact initWrites_run_ev (ws := plInitWrites s.cfg) (by simp [plInitWrites]) hop (plInitWrites_pass s s.cfg)

end Sys2Proof.Machine
end

section
/-! The Mini UART engine's two steps (44_uart_mini.md R307 to R311). -/

namespace Sys2Proof.Machine

/-- The transmit pin carries the Mini UART when its function is ALT5 (R279, R306). -/
theorem State.txRouted_mu (s : State) : s.txRouted .mu = decide (s.gpio.fselAt 14 = 0b010) := rfl

section
variable {s : State}

theorem State.muCanStart_iff : s.muCanStart = true ↔
    s.aux.enMu = true ∧ s.mu.cntl.getLsbD 1 = true ∧ s.mu.busy = none ∧ s.mu.txf ≠ [] := by
  simp [State.muCanStart, State.muTxEnabled, and_assoc]

theorem State.muCanFinish_iff : s.muCanFinish = true ↔ s.aux.enMu = true ∧ s.mu.busy ≠ none := by
  simp [State.muCanFinish, Option.isSome_iff_ne_none]

theorem State.enabled_mu_iff : s.enabled .mu = true ↔ s.muCanStart = true ∨ s.muCanFinish = true := Bool.or_eq_true_iff

/-- A frame in the shifter keeps the next from starting. -/
theorem State.muCanStart_eq_false_of_busy {f : TxFrame MuCfg} (hb : s.mu.busy = some f) : s.muCanStart = false := by
  simp [State.muCanStart, hb]

theorem State.muStep_start {b : Byte} {rest : List Byte} (hcan : s.muCanStart = true) (ht : s.mu.txf = b :: rest) :
    s.muStep = { s with
      mu := { s.mu with txf := rest, busy := some ⟨b, s.mu.lineCfg, s.txRouted .mu⟩ }
      ev := s.ev ++ [.txs .mu b] } := by
  simp only [State.muStep, hcan, if_true, State.muStart, ht, State.emit]

theorem State.muStep_finish {f : TxFrame MuCfg} (hcan : s.muCanFinish = true) (hb : s.mu.busy = some f) :
    s.muStep = { s with
      mu := { s.mu with busy := none }
      lineOut := s.lineOut ++ [.mu f (s.txRouted .mu)]
      ev := s.ev ++ [.txd .mu f.byte] } := by
  simp only [State.muStep, State.muCanStart_eq_false_of_busy hb, Bool.false_eq_true, if_false, hcan, if_true,
    State.muFinish, hb, State.emit]

end

/-- Settles O56: TX_START and TX_DONE by their conditions, which are those under which the engine is enabled. -/
theorem miniUartEngine : Obligations.MiniUartEngine := by
  intro s
  rw [← State.txRouted_mu]
  refine ⟨fun b rest hen htx hb ht => ?_, fun f hen hb => ?_, fun h => ?_⟩
  · have hcan : s.muCanStart = true := State.muCanStart_iff.2 ⟨hen, htx, hb, by simp [ht]⟩
    exact ⟨State.enabled_mu_iff.2 (.inl hcan), State.muStep_start hcan ht⟩
  · have hcan : s.muCanFinish = true := State.muCanFinish_iff.2 ⟨hen, by simp [hb]⟩
    exact ⟨State.enabled_mu_iff.2 (.inr hcan), State.muStep_finish hcan hb⟩
  · rcases State.enabled_mu_iff.1 h with hstart | hfinish
    · obtain ⟨hen, hsend⟩ := State.muCanStart_iff.1 hstart
      exact ⟨hen, .inr hsend⟩
    · obtain ⟨hen, hbusy⟩ := State.muCanFinish_iff.1 hfinish
      exact ⟨hen, .inl hbusy⟩

end Sys2Proof.Machine
end

section
/-! The PL011 engine's two steps (45_uart_pl011.md R357 to R361). -/

namespace Sys2Proof.Machine

/-- The transmit pin carries the PL011 when its function is ALT0 (R279, R356). -/
theorem State.txRouted_pl011 (s : State) : s.txRouted .pl011 = decide (s.gpio.fselAt 14 = 0b100) := rfl

section
variable {s : State}

theorem State.plCanStart_iff : s.plCanStart = true ↔
    s.pl.cr.getLsbD 0 = true ∧ s.pl.cr.getLsbD 8 = true ∧ s.pl.busy = none ∧ s.pl.txf ≠ [] := by
  simp [State.plCanStart, Pl011.txEnabled, and_assoc]

theorem State.plCanFinish_iff : s.plCanFinish = true ↔ s.pl.busy ≠ none := by
  simp [State.plCanFinish, Option.isSome_iff_ne_none]

theorem State.enabled_pl011_iff : s.enabled .pl011 = true ↔ s.plCanStart = true ∨ s.plCanFinish = true :=
  Bool.or_eq_true_iff

/-- A frame in the shifter keeps the next from starting. -/
theorem State.plCanStart_eq_false_of_busy {f : TxFrame PlCfg} (hb : s.pl.busy = some f) : s.plCanStart = false := by
  simp [State.plCanStart, hb]

theorem State.plStep_start {b : Byte} {rest : List Byte} (hcan : s.plCanStart = true) (ht : s.pl.txf = b :: rest) :
    s.plStep = { s with
      pl := { s.pl with txf := rest, busy := some ⟨b, s.pl.lineCfg, s.txRouted .pl011⟩ }
      ev := s.ev ++ [.txs .pl011 b] } := by
  simp only [State.plStep, hcan, if_true, State.plStart, ht, State.emit]

theorem State.plStep_finish {f : TxFrame PlCfg} (hb : s.pl.busy = some f) :
    s.plStep = { s with
      pl := { s.pl with busy := none }
      lineOut := s.lineOut ++ [.pl011 f (s.txRouted .pl011)]
      ev := s.ev ++ [.txd .pl011 f.byte] } := by
  have hcan : s.plCanFinish = true := State.plCanFinish_iff.2 (by simp [hb])
  simp only [State.plStep, State.plCanStart_eq_false_of_busy hb, Bool.false_eq_true, if_false, hcan, if_true,
    State.plFinish, hb, State.emit]

end

/-- Settles O57: TX_START and TX_DONE by their conditions, which are those under which the engine is enabled; TX_DONE asks
for a frame in the shifter only. -/
theorem pl011Engine : Obligations.Pl011Engine := by
  intro s
  rw [← State.txRouted_pl011]
  refine ⟨fun b rest hen htx hb ht => ?_, fun f hb => ?_, fun h => ?_⟩
  · have hcan : s.plCanStart = true := State.plCanStart_iff.2 ⟨hen, htx, hb, by simp [ht]⟩
    exact ⟨State.enabled_pl011_iff.2 (.inl hcan), State.plStep_start hcan ht⟩
  · have hcan : s.plCanFinish = true := State.plCanFinish_iff.2 (by simp [hb])
    exact ⟨State.enabled_pl011_iff.2 (.inr hcan), State.plStep_finish hb⟩
  · rcases State.enabled_pl011_iff.1 h with hstart | hfinish
    · exact .inr (State.plCanStart_iff.1 hstart)
    · exact .inl (State.plCanFinish_iff.1 hfinish)

end Sys2Proof.Machine
end

section
/-! The GPIO operations (46_gpio.md R401 to R405; 60_exceptions.md R505). -/

namespace Sys2Proof.Machine

/-! ### `GPIO_SET_OUTPUT` -/

/-- The access of `SelectFunction` that a micro-step of `GPIO_SET_OUTPUT` makes: the context's, else the first. -/
def Micro.selPhase : Micro → SelPhase
  | .select _ ph => ph
  | _ => .read

/-- Six registers of ten pins (R142, R402). -/
theorem pastLastFsel_iff (pin : Imm12) : uimm12 pin / pinsPerFsel ≥ numFsel ↔ 60 ≤ pin.toNat := by
  simp only [uimm12, pinsPerFsel, numFsel]
  omega

section
variable {s t : State} {pin : Imm12}

/-- A pin past the last select register. -/
theorem exec_gpioSetOutput_past (hp : 60 ≤ pin.toNat) : exec (.gpioSetOutput pin) s = .next s.finish := by
  simp only [exec, execGpioSetOutput, if_pos ((pastLastFsel_iff pin).2 hp)]

/-- A pin that a select register owns. -/
theorem exec_gpioSetOutput_select (hp : pin.toNat < 60) : exec (.gpioSetOutput pin) s =
    selectFunction (.gpioSetOutput pin) pin.toNat fnOutput (s.microOf (.gpioSetOutput pin)).selPhase s
      fun t => .next t.finish := by
  simp only [exec, execGpioSetOutput, if_neg (mt (pastLastFsel_iff pin).1 (Nat.not_le.2 hp))]
  cases s.microOf (.gpioSetOutput pin) <;> rfl

theorem exec_gpioSetOutput_start (hp : pin.toNat < 60) (hop : s.op = none) : exec (.gpioSetOutput pin) s =
    selectFunction (.gpioSetOutput pin) pin.toNat fnOutput .read s fun t => .next t.finish := by
  rw [exec_gpioSetOutput_select hp, State.microOf_idle s hop]
  rfl

theorem exec_gpioSetOutput_inProgress (hp : pin.toNat < 60) {p : Nat} {ph : SelPhase}
    (hop : s.op = some ⟨.gpioSetOutput pin, .select p ph⟩) : exec (.gpioSetOutput pin) s =
      selectFunction (.gpioSetOutput pin) pin.toNat fnOutput ph s fun t => .next t.finish := by
  rw [exec_gpioSetOutput_select hp, State.microOf_inProgress hop, Micro.selPhase]

/-- Every answer of `GPIO_SET_OUTPUT`: but for the context and the operation pointer it is a state that `SelectFunction`
leaves. -/
theorem exec_gpioSetOutput_cases (h : exec (.gpioSetOutput pin) s = .next t) :
    ∃ u, s.selected u ∧ (t = u.finish ∨ ∃ m, t = u.pause (.gpioSetOutput pin) m) := by
  by_cases hp : pin.toNat < 60
  · rw [exec_gpioSetOutput_select hp] at h
    exact Res.of_all (Q := fun t => ∃ u, s.selected u ∧ (t = u.finish ∨ ∃ m, t = u.pause (.gpioSetOutput pin) m))
      (selectFunction_all hp (fun u _ hu => ⟨u, hu, .inr ⟨_, rfl⟩⟩) fun u hu => ⟨u, hu, .inl rfl⟩) h
  · rw [exec_gpioSetOutput_past (Nat.not_lt.1 hp)] at h
    cases h
    exact ⟨s, s.selected_refl, .inl rfl⟩

end

/-- Settles O37: `SelectFunction` run to its end, and the pins past its registers. -/
theorem setOutputCompletes : Obligations.SetOutputCompletes := by
  intro s pin hop
  refine ⟨fun hp => ?_, exec_gpioSetOutput_past⟩
  obtain ⟨t, hrun, hsel, hother, hpin⟩ := select_run (s := s) (code := fnOutput) (k := State.finish) hp
    (fun u ph hu _ => exec_gpioSetOutput_inProgress hp hu) (exec_gpioSetOutput_start hp hop)
  obtain ⟨-, -, -, hopc, -, hst, -, -, -, -, -, hout, -⟩ := hsel
  exact ⟨t.finish, hrun, hpin, hother, hout, congrArg (· + 1) hopc, rfl, hst⟩

/-! ### `GPIO_SET_HIGH` and `GPIO_SET_LOW` -/

/-- Whether a pin's latch is in the second bank (R144). -/
def inHighBank (p : Nat) : Bool := decide (32 ≤ p)

/-- The value with a pin's bit set, as its bank's registers number the pins (R144). -/
def pinBit (p : Nat) : Word := (1 : Word) <<< (p - bankBase (inHighBank p))

/-- A pin's bit acts on the pin's own latch only. -/
theorem bankBits_pinBit {p q : Nat} (hp : p < 64) (hq : q < 54) :
    (bankBits (inHighBank p) (pinBit p)).getLsbD q = decide (q = p) := by
  by_cases h32 : 32 ≤ p
  · have hhi : inHighBank p = true := decide_eq_true h32
    have hbit : pinBit p = (1 : Word) <<< (p - 32) := by rw [pinBit, hhi]; rfl
    rw [hhi, hbit, bankBits_high _ hq, one_shift_bit (by omega), ← Bool.decide_and]
    exact decide_eq_decide.2 (by omega)
  · have hlo : inHighBank p = false := decide_eq_false h32
    have hbit : pinBit p = (1 : Word) <<< p := by rw [pinBit, hlo]; rfl
    rw [hlo, hbit, bankBits_low _ hq]
    by_cases hq32 : q < 32
    · rw [one_shift_bit hq32]
      simp [hq32]
    · rw [decide_eq_false hq32, Bool.false_and, decide_eq_false (by omega)]

section
variable {s t : State} {pin : Imm12} {lo hi p : Nat} {reg : Bool → PReg}

theorem writeBank_past (hp : 64 ≤ p) : writeBank lo hi p s = .next (s.raise (.shiftRange p)) := by
  rw [writeBank, if_neg (by omega), if_neg (by omega), raise]

/-- Writes of the two banks' registers that pass their checks: one of them is made, with the pin's bit. -/
theorem writeBank_ok (hp : p < 64) (hlo : ∀ v, checkWrite .gpio lo v s = .ok (reg false))
    (hhi : ∀ v, checkWrite .gpio hi v s = .ok (reg true)) : writeBank lo hi p s =
      .next (s.writeReg .gpio (if p < 32 then lo else hi) (reg (inHighBank p)) (pinBit p)).finish := by
  by_cases h32 : p < 32
  · have hbank : inHighBank p = false := decide_eq_false (by omega)
    rw [writeBank, if_pos h32, regWrite_ok (hlo _), if_pos h32, pinBit, hbank]
    rfl
  · have hbank : inHighBank p = true := decide_eq_true (by omega)
    rw [writeBank, if_neg h32, if_pos hp, regWrite_ok (hhi _), if_neg h32, pinBit, hbank]
    rfl

/-- `GPIO_SET_HIGH` writes the set register of the pin's bank (R404). -/
theorem exec_gpioSetHigh_ok (hp : pin.toNat < 64) : exec (.gpioSetHigh pin) s = .next (s.writeReg .gpio
    (if pin.toNat < 32 then 0x1C else 0x20) (.gpset (inHighBank pin.toNat)) (pinBit pin.toNat)).finish :=
  writeBank_ok hp (fun _ => checkWrite_ok_iff.2 ⟨rfl, rfl, rfl, rfl⟩) fun _ => checkWrite_ok_iff.2 ⟨rfl, rfl, rfl, rfl⟩

/-- `GPIO_SET_LOW` writes the clear register of the pin's bank (R405). -/
theorem exec_gpioSetLow_ok (hp : pin.toNat < 64) : exec (.gpioSetLow pin) s = .next (s.writeReg .gpio
    (if pin.toNat < 32 then 0x28 else 0x2C) (.gpclr (inHighBank pin.toNat)) (pinBit pin.toNat)).finish :=
  writeBank_ok hp (fun _ => checkWrite_ok_iff.2 ⟨rfl, rfl, rfl, rfl⟩) fun _ => checkWrite_ok_iff.2 ⟨rfl, rfl, rfl, rfl⟩

/-- The one event of a bank's write, by the bank. -/
theorem wr_pinBit (p lo hi : Nat) : Event.wr .gpio (if p < 32 then lo else hi) (pinBit p) =
    if p < 32 then .wr .gpio lo (1#32 <<< p) else .wr .gpio hi (1#32 <<< (p - 32)) := by
  by_cases h32 : p < 32
  · have hbank : inHighBank p = false := decide_eq_false (by omega)
    rw [if_pos h32, if_pos h32, pinBit, hbank]
    rfl
  · have hbank : inHighBank p = true := decide_eq_true (by omega)
    rw [if_neg h32, if_neg h32, pinBit, hbank]
    rfl

/-- The latches after a set register is written with a pin's bit (R206). -/
theorem Gpio.setOut_pinBit (g : Gpio) {q : Nat} (hp : p < 64) (hq : q < 54) :
    (g.setOut (inHighBank p) (pinBit p)).out.getLsbD q = (decide (q = p) || g.out.getLsbD q) := by
  rw [Gpio.setOut, BitVec.getLsbD_or, bankBits_pinBit hp hq, Bool.or_comm]

/-- The latches after a clear register is written with a pin's bit (R207). -/
theorem Gpio.clearOut_pinBit (g : Gpio) {q : Nat} (hp : p < 64) (hq : q < 54) :
    (g.clearOut (inHighBank p) (pinBit p)).out.getLsbD q = (!decide (q = p) && g.out.getLsbD q) := by
  rw [Gpio.clearOut, BitVec.getLsbD_and, BitVec.getLsbD_not, bankBits_pinBit hp hq, decide_eq_true hq, Bool.true_and,
    Bool.and_comm]

end

/-- Settles O38: the one write of each operation, its event and its latches, and the pins past both banks. -/
theorem setHighAndLowResults : Obligations.SetHighAndLowResults := by
  intro s pin
  refine ⟨fun hp => ⟨_, _, exec_gpioSetHigh_ok hp, exec_gpioSetLow_ok hp,
    fun q hq => ⟨s.gpio.setOut_pinBit hp hq, s.gpio.clearOut_pinBit hp hq⟩, rfl, rfl, ?_, ?_, by simp⟩,
    fun hp => ⟨writeBank_past hp, writeBank_past hp⟩⟩
  · rw [State.finish_ev, State.writeReg_ev, wr_pinBit]
  · rw [State.finish_ev, State.writeReg_ev, wr_pinBit]

/-! ### The frame -/

/-- What every micro-step of a GPIO operation leaves alone, the frames in the shifters perhaps no longer intact. -/
def State.gpioFrame (s t : State) : Prop :=
  SameRegsBut [] s t ∧ SameRam s t ∧ t.aux = s.aux ∧ (t.mu = s.mu ∨ t.mu = s.mu.corrupt) ∧
    (t.pl = s.pl ∨ t.pl = s.pl.corrupt) ∧ t.lineOut = s.lineOut ∧ t.lineIn = s.lineIn ∧ SameProgram s t ∧ t.drv = s.drv

section
variable {s t : State} {pin : Imm12}

theorem State.gpioFrame_selected {u : State} (h : s.selected u) : s.gpioFrame u := by
  obtain ⟨hcfg, hprog, hx, -, hram, -, hdrv, haux, hout, hin, -, -, hmu, hpl⟩ := h
  exact ⟨fun r _ => by rw [State.reg, State.reg, hx], fun a => by rw [State.ramByte, State.ramByte, hram], haux, hmu,
    hpl, hout, hin, ⟨hprog, hcfg⟩, hdrv⟩

/-- Every answer of `GPIO_SET_OUTPUT` keeps the frame and the latches. -/
theorem gpioSetOutput_frame (h : exec (.gpioSetOutput pin) s = .next t) :
    s.gpioFrame t ∧ t.gpio.out = s.gpio.out := by
  obtain ⟨u, hu, ht⟩ := exec_gpioSetOutput_cases h
  have hframe := State.gpioFrame_selected hu
  obtain ⟨-, -, -, -, -, -, -, -, -, -, -, hout, -⟩ := hu
  rcases ht with rfl | ⟨m, rfl⟩
  · exact ⟨hframe, hout⟩
  · exact ⟨hframe, hout⟩

/-- Of what a micro-step of `GPIO_SET_HIGH` or `GPIO_SET_LOW` reaches, only the latches can change. -/
def State.latchStep (s t : State) : Prop :=
  s.gpioFrame t ∧ t.gpio.fsel = s.gpio.fsel ∧ t.mu = s.mu ∧ t.pl = s.pl ∧ t.op = none

theorem State.latchStep_raise (c : Cause) : s.latchStep (s.raise c) := by
  simp [State.latchStep, State.gpioFrame, SameRegsBut, SameRam, SameProgram]

theorem State.latchStep_writeReg {off : Nat} {r : PReg} {v : Word} (hr : (∃ hi, r = .gpset hi) ∨ ∃ hi, r = .gpclr hi) :
    s.latchStep (s.writeReg .gpio off r v).finish := by
  rcases hr with ⟨hi, rfl⟩ | ⟨hi, rfl⟩ <;>
    simp [State.latchStep, State.gpioFrame, SameRegsBut, SameRam, SameProgram, State.writeEffect, Gpio.setOut,
      Gpio.clearOut]

/-- Every answer of the two operations: the fault, or the one write. -/
theorem latchStep_of_exec {i : Instr} (hi : i = .gpioSetHigh pin ∨ i = .gpioSetLow pin) (h : exec i s = .next t) :
    s.latchStep t := by
  by_cases hp : pin.toNat < 64
  · rcases hi with rfl | rfl
    · cases (exec_gpioSetHigh_ok hp).symm.trans h
      exact State.latchStep_writeReg (.inl ⟨_, rfl⟩)
    · cases (exec_gpioSetLow_ok hp).symm.trans h
      exact State.latchStep_writeReg (.inr ⟨_, rfl⟩)
  · have hfault : exec i s = .next (s.raise (.shiftRange pin.toNat)) := by
      rcases hi with rfl | rfl
      · exact writeBank_past (Nat.not_lt.1 hp)
      · exact writeBank_past (Nat.not_lt.1 hp)
    cases hfault.symm.trans h
    exact State.latchStep_raise _

end

/-- Settles O39: `GPIO_SET_OUTPUT` by the states `SelectFunction` leaves, the other two by their one write. -/
theorem gpioOperationsFrame : Obligations.GpioOperationsFrame := by
  intro s t i pin hi h
  suffices hframe : s.gpioFrame t ∧
      (i ≠ .gpioSetOutput pin → t.gpio.fsel = s.gpio.fsel ∧ t.mu = s.mu ∧ t.pl = s.pl ∧ t.op = none) ∧
      (i = .gpioSetOutput pin → t.gpio.out = s.gpio.out) by
    obtain ⟨⟨hregs, hram, haux, hmu, hpl, hout, hin, hprog, hdrv⟩, hlatch, hsel⟩ := hframe
    exact ⟨hregs, hram, haux, hmu, hpl, hout, hin, hprog, hdrv, hlatch, hsel⟩
  rcases hi with rfl | hi
  · obtain ⟨hframe, hout⟩ := gpioSetOutput_frame h
    exact ⟨hframe, fun hne => absurd rfl hne, fun _ => hout⟩
  · obtain ⟨hframe, hkept⟩ := latchStep_of_exec hi h
    refine ⟨hframe, fun _ => hkept, fun hsel => ?_⟩
    subst hsel
    exact absurd hi (by simp)

end Sys2Proof.Machine
end

section
/-! The last access of an operation of several accesses (46_gpio.md R401, R402; 43_uart_common.md R273, R275). -/

namespace Sys2Proof.Machine

/-- The output code in a pin's field, as R402 writes it. -/
theorem selCode_fnOutput (pin : Nat) : selCode pin fnOutput = 1#32 <<< (3 * (pin % 10)) := rfl

/-- A pin's field of its own code (R401). -/
theorem selCode_field (pin : Nat) (code : BitVec 3) :
    (selCode pin code).extractLsb' (3 * (pin % 10)) 3 = code := by
  apply BitVec.eq_of_getLsbD_eq
  intro i hi
  rw [BitVec.getLsbD_extractLsb', selCode_bit pin code (by omega), decide_eq_true hi, decide_eq_true (by omega),
    Nat.add_sub_cancel_left, Bool.true_and, Bool.true_and]

/-- A cleared field with the code put in is the code. -/
theorem selCode_field_of_cleared {pin : Nat} {v : Word} (code : BitVec 3) (hv : v.extractLsb' (3 * (pin % 10)) 3 = 0) :
    (v ||| selCode pin code).extractLsb' (3 * (pin % 10)) 3 = code := by
  rw [BitVec.extractLsb'_or, hv, selCode_field]
  exact BitVec.zero_or

section
variable {s : State} {pin : Imm12} {v : Word}

/-- The last access of `GPIO_SET_OUTPUT`: the code is put in the select word (R401, R402). -/
theorem exec_gpioSetOutput_set (hp : pin.toNat < 60) {p : Nat}
    (hop : s.op = some ⟨.gpioSetOutput pin, .select p (.set v)⟩) : exec (.gpioSetOutput pin) s =
      .next (s.writeReg .gpio (selOffset pin.toNat) (.gpfsel ⟨pin.toNat / 10, by omega⟩)
        (v ||| selCode pin.toNat fnOutput)).finish := by
  rw [exec_gpioSetOutput_inProgress hp hop, selectFunction, regWrite_ok (checkWrite_sel hp _ s)]

/-- The last access of `UART_INIT`: a write after which none is left (R273). -/
theorem exec_uartInit_lastWrite {b : Block} {off : Nat} {r : PReg}
    (hop : s.op = some ⟨.uartInit, .writes [(b, off, v)]⟩) (hc : checkWrite b off v s = .ok r) :
    exec .uartInit s = .next (s.writeReg b off r v).initDone := by
  rw [exec_uartInit_writes hop, initWrite, regWrite_ok hc]

end

/-- Settles O44: the one write each operation has left, and the state it leaves. -/
theorem lastAccessCompletes : Obligations.LastAccessCompletes := by
  refine ⟨fun s pin v hop hp => ?_, fun s hop hen => ?_, fun s hop => ?_, fun s xa xn a n k b hop hk hroom => ?_⟩
  · refine ⟨_, exec_gpioSetOutput_set hp hop, rfl, by simp, by simp, ?_, fun h54 hv => ?_⟩
    · rw [State.finish_ev, State.writeReg_ev, selCode_fnOutput]
      rfl
    · rw [State.finish_gpio, (s.selected_write _ _ _).2, Gpio.fselAt_writeSel _ _ _ h54, if_pos rfl,
        selCode_field_of_cleared _ hv]
      rfl
  · have hc : checkWrite .aux 0x48 0x06 s = .ok (.mu .iir) :=
      checkWrite_ok_iff.2 ⟨rfl, rfl, by rw [auxBlocked, hen]; rfl, rfl⟩
    exact ⟨_, exec_uartInit_lastWrite hop hc, rfl, rfl, rfl, rfl, rfl⟩
  · have hc : checkWrite .uart0 0x30 0x301 s = .ok (.uart .cr) := checkWrite_ok_iff.2 ⟨rfl, rfl, rfl, rfl⟩
    exact ⟨_, exec_uartInit_lastWrite hop hc, rfl, rfl, rfl, rfl, rfl⟩
  · obtain ⟨hr, hlt⟩ := s.txHasRoom_iff.1 hroom
    have hexec := writeString_put hr hlt hop
    rw [stringAfter_last (Nat.le_of_eq hk.symm)] at hexec
    have hq := State.queued_finish (s.queued_dataWrite b)
    exact ⟨_, hexec, rfl, by simp, hq.status, hq.txFifo⟩

end Sys2Proof.Machine
end

section
/-! The harness words (47_harness.md R430 to R438; 60_exceptions.md R503, R504, R506). -/

namespace Sys2Proof.Machine

/-! ### Words of the operands -/

/-- Both halves of `LIH`'s result (R431). -/
theorem highHalf_or_lowHalf (imm : Imm16) (v : Word) :
    zext16 imm <<< 16 ||| (v &&& 0xFFFF) = imm ++ v.extractLsb' 0 16 := by
  apply BitVec.eq_of_getLsbD_eq
  intro k hk
  have hmask : ∀ j < 32, (0xFFFF : Word).getLsbD j = decide (j < 16) := by decide
  rw [BitVec.getLsbD_or, BitVec.getLsbD_and, hmask k hk, BitVec.getLsbD_append]
  by_cases hlow : k < 16
  · simp [zext16, hlow, hk]
  · simp [zext16, hlow, hk]

/-- A register plus a signed offset, modulo 2^32 (R432). -/
theorem add_sext16 (v : Word) (imm : Imm16) : v + sext16 imm = BitVec.ofInt 32 (v.toNat + imm.toInt) := by
  apply BitVec.eq_of_toNat_eq
  rw [BitVec.toNat_ofInt]
  exact congrArg Int.toNat (ramAddr_eq v imm)

/-- The address of R433 and R434 is the model's. -/
theorem eq_ramAddr {base : Word} {imm : Imm16} {a : Nat} (ha : (a : Int) = (base.toNat + imm.toInt) % 2 ^ 32) :
    a = ramAddr base imm :=
  Int.ofNat_inj.1 (ha.trans (ramAddr_eq base imm).symm)

/-! ### What each word answers -/

section
variable {s : State} {xd xs xb : RegIdx} {imm : Imm16} {v base : Word}

theorem exec_lih_ok (hx : s.reg xd = some v) :
    exec (.lih xd imm) s = .next (s.setReg xd (imm ++ v.extractLsb' 0 16)).finish := by
  rw [← highHalf_or_lowHalf]
  exact withReg_some hx _

theorem exec_addi_ok (hx : s.reg xs = some v) :
    exec (.addi xd xs imm) s = .next (s.setReg xd (BitVec.ofInt 32 (v.toNat + imm.toInt))).finish := by
  rw [← add_sext16]
  exact withReg_some hx _

theorem exec_ldb_ok (hx : s.reg xb = some base) (ha : ramAddr base imm < s.cfg.ramSize) : exec (.ldb xd xb imm) s =
    .next (s.setReg xd (BitVec.ofNat 32 (s.ramByte (ramAddr base imm)).toNat)).finish := by
  rw [BitVec.ofNat_toNat]
  exact (withReg_some hx _).trans (withRam_in ha _)

theorem exec_ldb_out (hx : s.reg xb = some base) (ha : s.cfg.ramSize ≤ ramAddr base imm) :
    exec (.ldb xd xb imm) s = .next (s.raise (.ramRange (ramAddr base imm) 1)) :=
  (withReg_some hx _).trans (withRam_out (Nat.lt_succ_of_le ha) _)

theorem exec_stb_ok (hv : s.reg xs = some v) (hx : s.reg xb = some base) (ha : ramAddr base imm < s.cfg.ramSize) :
    exec (.stb xs xb imm) s = .next (s.setRam (ramAddr base imm) (v.extractLsb' 0 8)).finish := by
  rw [← BitVec.setWidth_eq_extractLsb' (by decide)]
  exact (withReg_some hv _).trans ((withReg_some hx _).trans (withRam_in ha _))

theorem exec_stb_out (hv : s.reg xs = some v) (hx : s.reg xb = some base) (ha : s.cfg.ramSize ≤ ramAddr base imm) :
    exec (.stb xs xb imm) s = .next (s.raise (.ramRange (ramAddr base imm) 1)) :=
  (withReg_some hv _).trans ((withReg_some hx _).trans (withRam_out (Nat.lt_succ_of_le ha) _))

theorem exec_bz_ok (hx : s.reg xs = some v) :
    exec (.bz xs imm) s = .next (s.goto (if v = 0 then s.branchTarget imm else s.opc + 1)) := by
  rw [apply_ite s.goto]
  exact withReg_some hx _

theorem exec_bnz_ok (hx : s.reg xs = some v) :
    exec (.bnz xs imm) s = .next (s.goto (if v ≠ 0 then s.branchTarget imm else s.opc + 1)) := by
  rw [ite_not, apply_ite s.goto]
  exact withReg_some hx _

end

theorem State.fetch_eq_none {s : State} (h : s.opc < 0 ∨ (s.prog.length : Int) ≤ s.opc) : s.fetch = none := by
  unfold State.fetch
  split_ifs with hneg
  · rfl
  · exact List.getElem?_eq_none (by omega)

/-- Outside the program the fetch faults (R506). -/
theorem fetchStep_outside {s : State} (h : s.opc < 0 ∨ (s.prog.length : Int) ≤ s.opc) :
    fetchStep s = .next (s.raise (.pcRange s.opc)) := by
  simp only [fetchStep, State.fetch_eq_none h, raise]

/-- Settles O16: the store by the rules of the RAM, and the faults of the operands in their order. -/
theorem storeByteResult : Obligations.StoreByteResult := by
  intro s xs xb imm
  refine ⟨fun hxs => withReg_none hxs _, fun v hxs hxb => (withReg_some hxs _).trans (withReg_none hxb _),
    fun v base hxs hxb a ha => ?_⟩
  obtain rfl := eq_ramAddr ha
  refine ⟨fun hin => ⟨_, exec_stb_ok hxs hxb hin, fun hwf => ?_, ?_, fun _ _ => rfl,
    ⟨rfl, rfl, rfl, rfl, rfl, rfl⟩, ⟨rfl, rfl⟩, rfl, rfl, rfl, rfl, rfl⟩, exec_stb_out hxs hxb⟩
  · rw [State.ramByte_finish, State.ramByte_setRam_same hwf]
  · exact State.sameRamOutside_setRam s _ _

/-- Settles O17: each word's answer, the fetch outside the program, and the status being the CPU agent's own. -/
theorem controlFlowResults : Obligations.ControlFlowResults := by
  intro s xs off
  refine ⟨fun v hx => ⟨exec_bz_ok hx, exec_bnz_ok hx⟩, fun hx => ⟨withReg_none hx _, withReg_none hx _⟩, rfl,
    fetchStep_outside, rfl, rfl, fun a ha => ?_⟩
  cases a with
  | cpu => exact absurd rfl ha
  | mu | pl011 | host => rfl

/-- Settles O13: `LI` as it stands, `LIH` by the halves of its result. -/
theorem loadImmediateResults : Obligations.LoadImmediateResults := by
  intro s xd imm
  refine ⟨?_, fun v hx => exec_lih_ok hx, fun hx => withReg_none hx _⟩
  rw [BitVec.ofNat_toNat]
  rfl

/-- Settles O14: the sum modulo 2^32, and the unwritten source. -/
theorem addImmediateResult : Obligations.AddImmediateResult :=
  fun _ _ _ _ => ⟨fun _ => exec_addi_ok, fun hx => withReg_none hx _⟩

/-- Settles O15: the address of R433 inside the RAM and past its end. -/
theorem loadByteResult : Obligations.LoadByteResult := by
  intro s xd xb imm
  refine ⟨fun hx => withReg_none hx _, fun base hx a ha => ?_⟩
  obtain rfl := eq_ramAddr ha
  exact ⟨exec_ldb_ok hx, exec_ldb_out hx⟩

/-! ### The frame of the words that store nothing -/

/-- How a word that stores nothing and does not halt ends: in a fault, with a register of `dests` written, or with the
operation pointer moved. -/
inductive State.RegisterEnd (s : State) (dests : List RegIdx) : State → Prop
  | fault (c : Cause) : RegisterEnd s dests (s.raise c)
  | write (d : RegIdx) (v : Word) (hd : d ∈ dests) : RegisterEnd s dests (s.setReg d v).finish
  | jump (target : Int) : RegisterEnd s dests (s.goto target)

section
variable {s : State} {dests : List RegIdx}

theorem registerEnd_withReg {r : RegIdx} {k : Word → Res} (hk : ∀ v, (k v).all (s.RegisterEnd dests)) :
    (withReg r s k).all (s.RegisterEnd dests) :=
  withReg_all (fun _ => .fault _) fun v _ => hk v

theorem registerEnd_bitOp (f : Word → Nat → Word) (d p : RegIdx) (n : Imm12) :
    (bitOp f d p n s).all (s.RegisterEnd [d]) :=
  registerEnd_withReg fun _ => withBitIndex_all (fun _ => .fault _) fun _ => .write d _ (List.mem_singleton_self d)

theorem registerEnd_branch (p : RegIdx) (q : Word → Prop) [DecidablePred q] (m n : Int) :
    (withReg p s fun v => .next (if q v then s.goto m else s.goto n)).all (s.RegisterEnd dests) :=
  registerEnd_withReg fun v => by
    rw [← apply_ite s.goto]
    exact .jump _

/-- What a word that stores nothing leaves alone. Only a fault, or `HALT`, changes the status. -/
def State.registerFrame (s : State) (dests : List RegIdx) (i : Instr) (t : State) : Prop :=
  SameRegsBut dests s t ∧ SameRam s t ∧ SamePeripherals s t ∧ SameProgram s t ∧ t.drv = s.drv ∧ t.op = none ∧
    t.sched = s.sched ∧ t.draws = s.draws ∧
    ((t.ev = s.ev ∧ (t.status = s.status ∨ i = .halt)) ∨ ∃ c, t = s.raise c)

/-- The frame of a state that differs in the CPU agent's own record only. -/
theorem State.registerFrame_update {i : Instr} {x : Vector (Option Word) 16} {opc : Int} {ev : List Event} {st : Status}
    {t : State} (ht : t = { s with x := x, opc := opc, ev := ev, status := st, op := none })
    (hx : SameRegsBut dests s t)
    (hrecord : (t.ev = s.ev ∧ (t.status = s.status ∨ i = .halt)) ∨ ∃ c, t = s.raise c) : s.registerFrame dests i t := by
  subst ht
  exact ⟨hx, fun _ => rfl, ⟨rfl, rfl, rfl, rfl, rfl, rfl⟩, ⟨rfl, rfl⟩, rfl, rfl, rfl, rfl, hrecord⟩

theorem State.RegisterEnd.frame {t : State} (h : s.RegisterEnd dests t) (i : Instr) : s.registerFrame dests i t := by
  cases h with
  | fault c => exact State.registerFrame_update rfl (fun _ _ => rfl) (.inr ⟨c, rfl⟩)
  | write d v hd =>
    refine State.registerFrame_update rfl (fun r hr => ?_) (.inl ⟨rfl, .inl rfl⟩)
    rw [State.reg_finish, State.reg_setReg_other s (ne_of_mem_of_not_mem hd hr).symm]
  | jump target => exact State.registerFrame_update rfl (fun _ _ => rfl) (.inl ⟨rfl, .inl rfl⟩)

end

/-- Settles O19: the end of each word but `HALT`, whose own end changes the status. -/
theorem registerWordsFrame : Obligations.RegisterWordsFrame := by
  intro s t i dests hi h
  have ends (hall : Res.all (s.RegisterEnd dests) (exec i s)) : s.registerFrame dests i t := (Res.of_all hall h).frame i
  rcases hi with ⟨d, imm, rfl, rfl⟩ | ⟨d, imm, rfl, rfl⟩ | ⟨d, p, imm, rfl, rfl⟩ | ⟨d, p, imm, rfl, rfl⟩ |
    ⟨d, p, n, hbit, rfl⟩ | ⟨p, off, hbranch, rfl⟩ | ⟨rfl, rfl⟩
  · exact ends (.write d _ (List.mem_singleton_self d))
  · exact ends (registerEnd_withReg fun _ => .write d _ (List.mem_singleton_self d))
  · exact ends (registerEnd_withReg fun _ => .write d _ (List.mem_singleton_self d))
  · exact ends (registerEnd_withReg fun _ =>
      withRam_all (fun _ => .fault _) fun _ => .write d _ (List.mem_singleton_self d))
  · obtain ⟨f, hf⟩ := exec_bitUtility hbit
    exact ends (hf ▸ registerEnd_bitOp f d p n)
  · rcases hbranch with rfl | rfl | rfl
    · exact ends (registerEnd_branch p (· = 0) _ _)
    · exact ends (registerEnd_branch p (· = 0) _ _)
    · exact ends (.jump _)
  · cases h
    exact State.registerFrame_update rfl (fun _ _ => rfl) (.inl ⟨rfl, .inr rfl⟩)

end Sys2Proof.Machine
end

section
/-! The CPU agent's step (10_state.md R31, R34, R40; 47_harness.md R429). -/

namespace Sys2Proof.Machine

/-- The choice of the next agent, field by field. -/
theorem State.afterTurn_record (s : State) : s.afterTurn =
    { s with sched := s.sched.tail, draws := if s.sched = [] then s.draws + 1 else s.draws } := by
  unfold State.afterTurn
  split
  · next hsched => simp [hsched]
  · next hsched => simp [hsched]

@[simp] theorem State.afterTurn_op (s : State) : s.afterTurn.op = s.op := by rw [s.afterTurn_record]

@[simp] theorem State.afterTurn_fetch (s : State) : s.afterTurn.fetch = s.fetch := by rw [s.afterTurn_record]; rfl

section
variable {s : State} (ht : s.turn = some .cpu)
include ht

theorem step_cpu : step s = cpuStep s.afterTurn := by simp only [step, ht]

/-- With no operation in progress the step runs the word at the operation pointer. -/
theorem step_decoded {w : Word} {i : Instr} (hop : s.op = none) (hf : s.fetch = some w) (hd : decode w = .ok i) :
    step s = exec i s.afterTurn := by
  simp only [step_cpu ht, cpuStep, fetchStep, State.afterTurn_op, State.afterTurn_fetch, hop, hf, hd]

/-- With an operation in progress the step goes on with it. -/
theorem step_inProgress {o : Op} (hop : s.op = some o) : step s = exec o.instr s.afterTurn := by
  simp only [step_cpu ht, cpuStep, State.afterTurn_op, hop]

end

/-- Settles O4: the two ways the CPU agent's step begins, after the choice of the agent. -/
theorem stepRunsDecodedInstruction : Obligations.StepRunsDecodedInstruction :=
  fun s ht => ⟨fun _ _ hop hf hd _ => step_decoded ht hop hf hd, fun _ hop => step_inProgress ht hop,
    s.afterTurn_record⟩

end Sys2Proof.Machine
end

section
/-! What a stopped CPU agent leaves the others to do (60_exceptions.md R501, R516; 47_harness.md R438). -/

namespace Sys2Proof.Machine

/-- A step of the machine while the CPU agent is stopped changes the UARTs, the serial line, the history, the schedule and
the draw counter only. -/
theorem step_stopped_eq {s t : State} (hstop : s.status ≠ .running) (hstep : step s = .next t) :
    ∃ m u e o i l d, t = { s with
      mu := m, pl := u, ev := e, lineOut := o, lineIn := i, sched := l, draws := d } := by
  rcases step_cases hstep with ⟨-, -, rfl⟩ | ⟨-, hrun, -⟩ | ⟨-, rfl⟩ | ⟨-, rfl⟩ | ⟨-, rfl⟩
  · rw [s.afterTurn_record]
    exact ⟨_, _, _, _, _, _, _, rfl⟩
  · exact absurd hrun hstop
  · obtain ⟨m, e, o, h⟩ := s.afterTurn.muStep_eq
    rw [h, s.afterTurn_record]
    exact ⟨_, _, _, _, _, _, _, rfl⟩
  · obtain ⟨u, e, o, h⟩ := s.afterTurn.plStep_eq
    rw [h, s.afterTurn_record]
    exact ⟨_, _, _, _, _, _, _, rfl⟩
  · obtain ⟨m, u, i, e, d, h⟩ := s.afterTurn.hostStep_eq
    rw [h, s.afterTurn_record]
    exact ⟨_, _, _, _, _, _, _, rfl⟩

/-- The status enables the CPU agent alone. -/
theorem State.enabled_withStatus (s : State) (st : Status) {a : Agent} (ha : a ≠ .cpu) :
    ({ s with status := st } : State).enabled a = s.enabled a := by
  cases a with
  | cpu => exact absurd rfl ha
  | mu | pl011 | host => rfl

/-- Settles O8: the fields the other agents write are none of the CPU agent's. -/
theorem stoppedCpuStaysStopped : Obligations.StoppedCpuStaysStopped := by
  refine ⟨fun s t hstop hstep => ?_, fun s st a ha => s.enabled_withStatus st ha⟩
  obtain ⟨m, u, e, o, i, l, d, rfl⟩ := step_stopped_eq hstop hstep
  exact ⟨rfl, fun _ => rfl, rfl, rfl, rfl, fun _ => rfl⟩

end Sys2Proof.Machine
end

section
/-! Every instruction answers, and every step until the end of the run (60_exceptions.md R500, R501;
70_reset_and_hazards.md R641). -/

namespace Sys2Proof.Machine

/-- Every update of a micro-step keeps the claim that says nothing: what is left of the induction over micro-steps is that
each of them answers a next state. -/
theorem microStepKeeps_trivial (s : State) : MicroStepKeeps s (fun _ => True) fun _ => True where
  start := trivial
  setReg _ := trivial
  setRam _ _ := trivial
  read _ := trivial
  write _ _ := trivial
  raise _ := trivial
  goto _ := trivial
  pause _ _ := trivial
  initDone _ := trivial
  halt _ := trivial

theorem Res.exists_next {Q : State → Prop} {o : Res} (h : o.all Q) : ∃ t, o = .next t :=
  (Res.all_iff.1 h).imp fun _ => And.left

theorem exec_answers (i : Instr) (s : State) : ∃ t, exec i s = .next t :=
  Res.exists_next ((microStepKeeps_trivial s).exec i)

theorem cpuStep_answers (s : State) : ∃ t, cpuStep s = .next t :=
  Res.exists_next (microStepKeeps_trivial s).cpuStep

/-- With no agent's turn the step ends the run unless some agent has an enabled step. -/
theorem step_noTurn {s : State} (ht : s.turn = none) :
    (∃ t, step s = .next t) ∨ (step s = .fault .runEnded ∧ ∀ a, s.enabled a = false) := by
  by_cases ha : ∃ a, s.enabled a = true
  · exact .inl ⟨_, step_idle ht ha⟩
  · refine .inr ⟨?_, fun a => Bool.eq_false_iff.2 fun h => ha ⟨a, h⟩⟩
    have hidle : ¬s.idles = true := fun h => ha ((State.idles_iff ht).1 h)
    simp only [step, ht, if_neg hidle]

/-- The agent whose turn it is answers a next state. -/
theorem step_turn {s : State} {a : Agent} (ht : s.turn = some a) : ∃ t, step s = .next t := by
  cases a with
  | cpu =>
    rw [step_cpu ht]
    exact cpuStep_answers _
  | mu | pl011 | host => simp only [step, ht, Host.Outcome.next.injEq, exists_eq']

/-- Settles O12: the micro-steps of the CPU agent all answer, and so do the other agents; with no agent's turn the step
idles or the run has ended. -/
theorem everyInstructionAnswers : Obligations.EveryInstructionAnswers := by
  refine ⟨exec_answers, fun s => ?_⟩
  cases ht : s.turn with
  | none => exact step_noTurn ht
  | some a => exact .inl (step_turn ht)

end Sys2Proof.Machine
end

section
/-! The faults of the fetch (60_exceptions.md R502, R506), and what raising a fault records (R501, R515). -/

namespace Sys2Proof.Machine

/-- The index of the word fetched (R429). -/
theorem State.fetch_eq_some {s : State} {k : Nat} {w : Word} (hk : s.opc = k) (hw : s.prog[k]? = some w) :
    s.fetch = some w := by
  simp [State.fetch, hk, hw]

@[simp] theorem State.afterTurn_opc (s : State) : s.afterTurn.opc = s.opc := by rw [s.afterTurn_record]

/-- With no operation in progress the step fetches. -/
theorem step_fetches {s : State} (ht : s.turn = some .cpu) (hop : s.op = none) : step s = fetchStep s.afterTurn := by
  simp only [step_cpu ht, cpuStep, State.afterTurn_op, hop]

theorem fetchStep_none {s : State} (hf : s.fetch = none) : fetchStep s = .next (s.raise (.pcRange s.opc)) := by
  simp only [fetchStep, hf, raise]

theorem fetchStep_illegal {s : State} {w : Word} {e : Reject} (hf : s.fetch = some w) (hd : decode w = .error e) :
    fetchStep s = .next (s.raise (.illegal w)) := by
  simp only [fetchStep, hf, hd, raise]

/-- Settles O5: the step fetches, and the fetch finds no word or one with no meaning. -/
theorem badFetchFaults : Obligations.BadFetchFaults := by
  intro s ht hop
  rw [step_fetches ht hop]
  refine ⟨fun hout => ?_, fun k w e hk hw hd => ?_⟩
  · have hf : s.afterTurn.fetch = none := s.afterTurn_fetch.trans (State.fetch_eq_none hout)
    rw [fetchStep_none hf, State.afterTurn_opc]
  · exact fetchStep_illegal (s.afterTurn_fetch.trans (State.fetch_eq_some hk hw)) hd

/-- Settles O7: the state `State.raise` leaves, field by field, and the table of codes. -/
theorem raisingRecordsTheFault : Obligations.RaisingRecordsTheFault :=
  ⟨fun s c => ⟨s.raise c, rfl, s.raise_status c, s.raise_ev c, s.raise_op c, s.raise_opc c, s.reg_raise c,
      s.ramByte_raise c, ⟨rfl, rfl, rfl, rfl, rfl, rfl⟩, ⟨rfl, rfl⟩, s.raise_drv c⟩,
    fun _ => rfl, fun _ => rfl, fun _ => rfl, fun _ _ => rfl, fun _ => rfl, fun _ => rfl, fun _ => rfl,
    fun _ _ _ => rfl, fun _ => rfl, fun _ _ => rfl, fun _ => rfl⟩

end Sys2Proof.Machine
end

section
/-! The checks an operation makes before its first access, in their order: its register operands, then the driver
(60_exceptions.md R503, R507, R513; 43_uart_common.md R271, R272). -/

namespace Sys2Proof.Machine

/-- Of two register operands the first one that is unwritten faults (R513). -/
theorem twoOperands_unwritten {s : State} {p q : RegIdx} (k : Word → Word → Res) :
    (s.reg p = none → (withReg p s fun v => withReg q s (k v)) = .next (s.raise (.unwritten p))) ∧
    ∀ v, s.reg p = some v → s.reg q = none →
      (withReg p s fun v => withReg q s (k v)) = .next (s.raise (.unwritten q)) :=
  ⟨fun hp => withReg_none hp _, fun _ hp hq => (withReg_some hp _).trans (withReg_none hq _)⟩

section
variable {s : State} (hop : s.op = none)
include hop

theorem exec_uartReadByte_checks (xv xt : RegIdx) : ∃ k, exec (.uartReadByte xv xt) s = withReady 0x23 s k := by
  simp only [exec, execUartReadByte, State.microOf_idle s hop]
  exact ⟨_, rfl⟩

theorem exec_uartFlush_checks : ∃ k, exec .uartFlush s = withReady 0x24 s k := by
  simp only [exec, execUartFlush, State.microOf_idle s hop]
  exact ⟨_, rfl⟩

theorem exec_uartWriteByte_checks (xs : RegIdx) :
    ∃ k : Word → Res, exec (.uartWriteByte xs) s = withReg xs s fun v => withReady 0x21 s (k v) := by
  simp only [exec, execUartWriteByte, State.microOf_idle s hop]
  exact ⟨_, rfl⟩

theorem exec_uartWriteString_checks (xa xn : RegIdx) : ∃ k : Word → Word → Res, exec (.uartWriteString xa xn) s =
    withReg xa s fun a => withReg xn s fun n => withReady 0x22 s (k a n) := by
  simp only [exec, execUartWriteString, State.microOf_idle s hop]
  exact ⟨_, rfl⟩

theorem exec_uartReadLine_checks (xd xa xc : RegIdx) : ∃ k : Word → Word → Res, exec (.uartReadLine xd xa xc) s =
    withReg xa s fun a => withReg xc s fun cap => withReady 0x25 s (k a cap) := by
  simp only [exec, execUartReadLine, State.microOf_idle s hop]
  exact ⟨_, rfl⟩

/-! ### An unwritten operand -/

theorem exec_uartWriteByte_unwritten {p : RegIdx} (hp : s.reg p = none) :
    exec (.uartWriteByte p) s = .next (s.raise (.unwritten p)) := by
  obtain ⟨k, hk⟩ := exec_uartWriteByte_checks hop p
  rw [hk, withReg_none hp]

theorem exec_uartWriteString_unwritten {p q : RegIdx} :
    (s.reg p = none → exec (.uartWriteString p q) s = .next (s.raise (.unwritten p))) ∧
    ∀ v, s.reg p = some v → s.reg q = none → exec (.uartWriteString p q) s = .next (s.raise (.unwritten q)) := by
  obtain ⟨k, hk⟩ := exec_uartWriteString_checks hop p q
  rw [hk]
  exact twoOperands_unwritten _

theorem exec_uartReadLine_unwritten {d p q : RegIdx} :
    (s.reg p = none → exec (.uartReadLine d p q) s = .next (s.raise (.unwritten p))) ∧
    ∀ v, s.reg p = some v → s.reg q = none → exec (.uartReadLine d p q) s = .next (s.raise (.unwritten q)) := by
  obtain ⟨k, hk⟩ := exec_uartReadLine_checks hop d p q
  rw [hk]
  exact twoOperands_unwritten _

end

/-- A block number below 3 names a block (R175). -/
theorem exists_decodeBlock {blk : BitVec 4} (h : blk.toNat < 3) : ∃ b, decodeBlock blk = some b := by
  unfold decodeBlock
  interval_cases blk.toNat
  exacts [⟨_, rfl⟩, ⟨_, rfl⟩, ⟨_, rfl⟩]

theorem exec_regWr_unwritten {s : State} {p : RegIdx} {blk : BitVec 4} {off : Imm12} (hwf : WellFormed (.regWr p blk off))
    (hp : s.reg p = none) : exec (.regWr p blk off) s = .next (s.raise (.unwritten p)) := by
  obtain ⟨b, hb⟩ := exists_decodeBlock (of_decide_eq_true hwf)
  simp only [exec, execRegWr, withBlock_ok hb, withReg_none hp]

/-- Settles O18: each word reads its operands first, in the order of their fields. -/
theorem unwrittenOperandFaults : Obligations.UnwrittenOperandFaults := by
  intro s p q
  refine ⟨fun hp => ⟨fun d n => ?_, fun d imm => ⟨withReg_none hp _, (twoOperands_unwritten _).1 hp⟩,
      fun blk off hwf => exec_regWr_unwritten hwf hp,
      fun hop => ⟨exec_uartWriteByte_unwritten hop hp, fun d => (exec_uartWriteString_unwritten hop).1 hp,
        fun d e => (exec_uartReadLine_unwritten hop).1 hp⟩⟩,
    fun v hp hq => ⟨fun imm => (twoOperands_unwritten _).2 v hp hq,
      fun hop => ⟨(exec_uartWriteString_unwritten hop).2 v hp hq,
        fun d => (exec_uartReadLine_unwritten hop).2 v hp hq⟩⟩⟩
  exact ⟨bitOp_unwritten hp, bitOp_unwritten hp, bitOp_unwritten hp, bitOp_unwritten hp, bitOp_unwritten hp⟩

/-- Settles O40: the operands are written, and the driver's check comes next. -/
theorem uninitialisedDriverFaults : Obligations.UninitialisedDriverFaults := by
  intro s p q d hd hop
  obtain ⟨kb, hbyte⟩ := exec_uartReadByte_checks hop p q
  obtain ⟨kf, hflush⟩ := exec_uartFlush_checks hop
  refine ⟨hbyte ▸ withReady_uninit hd _, hflush ▸ withReady_uninit hd _, withReady_uninit hd _, fun v hp => ?_,
    fun v w hp hq => ⟨?_, ?_⟩⟩
  · obtain ⟨k, hk⟩ := exec_uartWriteByte_checks hop p
    rw [hk, withReg_some hp, withReady_uninit hd]
  · obtain ⟨k, hk⟩ := exec_uartWriteString_checks hop p q
    rw [hk, withReg_some hp, withReg_some hq, withReady_uninit hd]
  · obtain ⟨k, hk⟩ := exec_uartReadLine_checks hop d p q
    rw [hk, withReg_some hp, withReg_some hq, withReady_uninit hd]

end Sys2Proof.Machine
end
